-- ==== Sys2Proof/Word.lean ====
section
/-!
DEFINITION. The plainest types: a byte, a caller's id, a device handle. Every field of the block is an unsigned
integer and nothing is sign-extended (R11).
-/

namespace Sys2Proof

/-- A byte: 8 bits, bit 0 the least significant (R11). -/
abbrev Byte := BitVec 8

/-- A caller's id (R16, R121). Every natural number names a caller: the model holds for every `N_CALLERS` (log 10). -/
abbrev CallerId := Nat

/-- The opaque device handle of the USB collaborator (R28, R80): a name, with which nothing is computed. -/
abbrev Handle := Nat

end Sys2Proof
end

