-- ==== Sys2Proof/Config.lean ====
section
/-!
DEFINITION. The parameters of R10, the answers the transport may give (R81, R82, R83), the agents that take steps
(R16), and the free values: what the spec leaves to a draw, as constants without a body.
-/

namespace Sys2Proof

/-- `WIRE_LENGTH`: every packet has 16 bytes, whatever its variant (R10, R45; log 1). -/
abbrev Config.wireLength : Nat := 16

/-- The bytes of one packet: exactly `WIRE_LENGTH` of them, `buf[0]` first on the wire (R12, R20, R34). -/
abbrev Buffer := Vector Byte Config.wireLength

/-- The answers of `Transport.claim` (R81). -/
inductive ClaimAnswer where
  | ok
  | busy
  | disconnected
deriving DecidableEq, Repr, Inhabited

/-- The answers of `Transport.write` (R82). A short write sent fewer than 16 bytes. -/
inductive WriteAnswer where
  | ok
  | short (sent : Fin Config.wireLength)
  | busy
  | timeout
  | disconnected
deriving DecidableEq, Repr, Inhabited

/-- The answers of `Transport.read` (R83). A whole answer has exactly 16 bytes, a short one fewer. -/
inductive ReadAnswer where
  | ok (bytes : Buffer)
  | short (received : Fin Config.wireLength)
  | busy
  | timeout
  | disconnected
deriving DecidableEq, Repr, Inhabited

/-- The agents that take steps (R16): a caller, or the transport when it delivers a packet of the device. The session
has no step of its own. -/
inductive Agent where
  | caller (c : CallerId)
  | transport
deriving DecidableEq, Repr, Inhabited

/-! Free values. Each is applied to the counter `State.transport.drawn`, which goes up by one at every draw, so that
nothing relates one draw to another (log 4, log 6). -/

/-- A draw of `Transport.claim` (R81, U8): any answer. -/
opaque Config.freeClaim : Nat → ClaimAnswer

/-- A draw of `Transport.write` (R82, U8): any answer. -/
opaque Config.freeWrite : Nat → WriteAnswer

/-- A draw of `Transport.read` (R83, U7, U8): any answer, any 16 bytes. -/
opaque Config.freeRead : Nat → ReadAnswer

/-- A draw of `Transport.residue_clean` (R84, U6): either answer. -/
opaque Config.freeClean : Nat → Bool

/-- The agent that steps next where the schedule names none: any agent (R90, R116, U9). -/
opaque Config.freeAgent : Nat → Agent

/-! OPEN parameters that no rule reads (log 10, log 11). -/

/-- How many callers there are beyond the first. -/
opaque Config.furtherCallers : Nat

/-- `N_CALLERS` (R10, R16): OPEN, at least 1. -/
def Config.nCallers : Nat := Config.furtherCallers + 1

/-- `TIMEOUT_INTERVAL` (R10, R85, R119): OPEN. The model keeps no clock, so no rule reads it (R135). -/
opaque Config.timeoutInterval : Nat

/-- The kind of USB transfer that carries the packets; the source says 'control/bulk' (C9). -/
inductive TransferType where
  | control
  | bulk
deriving DecidableEq, Repr, Inhabited

/-- `USB_EP`, the endpoint's address and transfer type (R10, R80, R120): OPEN. No rule reads it. -/
opaque Config.usbEndpoint : Nat × TransferType

end Sys2Proof
end

