-- ==== Sys2Proof/Syntax.lean ====
section
/-!
DEFINITION. The names an instruction is written with, and the instructions: one constructor per row of
spec/opcode_table.json, six wire variants (R46, R47) and twenty-four commands (R55).
-/

namespace Sys2Proof

/-- The six packet variants (R3, R46), in the order of their index. -/
inductive Variant where
  | v8x8
  | v8x16
  | v8x32
  | v8x64
  | v16x64
  | v32x32
deriving DecidableEq, Repr, Inhabited

/-- The packet registers a caller can name (R25, R54, R57): its own `p0`, `p1`, …, and the `req` and `resp` of its
exchange context. -/
inductive PacketReg where
  | p (n : Nat)
  | req
  | resp
deriving DecidableEq, Repr

/-- The instructions. A wire variant carries every bit of its 16 bytes: the flags byte, the target id, the address, the
data and the padding, the last three little-endian numbers (R47, R39). A command carries its issuing caller `c` and its
operands as R54 gives them: a descriptor `d` by its index, numbers of unbounded width, byte sequences of any length, a
Boolean `b` as a number (R75). -/
inductive Instr where
  | pkt8x8 (flags targetId : Byte) (address : BitVec 8) (data : BitVec 8) (padding : BitVec 88)
  | pkt8x16 (flags targetId : Byte) (address : BitVec 8) (data : BitVec 16) (padding : BitVec 80)
  | pkt8x32 (flags targetId : Byte) (address : BitVec 8) (data : BitVec 32) (padding : BitVec 64)
  | pkt8x64 (flags targetId : Byte) (address : BitVec 8) (data : BitVec 64) (padding : BitVec 32)
  | pkt16x64 (flags targetId : Byte) (address : BitVec 16) (data : BitVec 64) (padding : BitVec 24)
  | pkt32x32 (flags targetId : Byte) (address : BitVec 32) (data : BitVec 32) (padding : BitVec 40)
  | lookup (c : CallerId) (m : Nat)
  | descInfo (c : CallerId) (d : Nat)
  | construct (c : CallerId) (p : PacketReg) (d targetId flags address data : Nat)
  | encode (c : CallerId) (p : PacketReg)
  | decode (c : CallerId) (p : PacketReg) (d : Nat) (bytes : List Byte)
  | validate (c : CallerId) (p : PacketReg)
  | reuse (c : CallerId) (p : PacketReg)
  | getTarget (c : CallerId) (p : PacketReg)
  | getAddress (c : CallerId) (p : PacketReg)
  | getData (c : CallerId) (p : PacketReg)
  | isWrite (c : CallerId) (p : PacketReg)
  | isSuccess (c : CallerId) (p : PacketReg)
  | setTarget (c : CallerId) (p : PacketReg) (v : Nat)
  | setAddress (c : CallerId) (p : PacketReg) (v : Nat)
  | setData (c : CallerId) (p : PacketReg) (v : Nat)
  | setWrite (c : CallerId) (p : PacketReg) (b : Nat)
  | setSuccess (c : CallerId) (p : PacketReg) (b : Nat)
  | acquireOnce (c : CallerId) (h : Handle)
  | reestablish (c : CallerId) (h : Handle)
  | lock (c : CallerId)
  | unlock (c : CallerId)
  | transfer (c : CallerId) (bytes : List Byte)
  | exchange (c : CallerId) (bytes : List Byte)
  | sendRequest (c : CallerId) (d targetId flags address data : Nat)
deriving DecidableEq, Repr

end Sys2Proof
end

