-- ==== Sys2Proof/Machine/Bytes.lean ====
section
/-!
DEFINITION. Bytes of a buffer and little-endian packing (R12, R13, R33): the helpers that the wire decoder and the
packet operations share.
-/

namespace Sys2Proof.Machine

/-- `buf[i]`; past the end, where no rule looks, 0 (R12). -/
def byteAt (buf : Buffer) (i : Nat) : Byte := buf[i]?.getD 0

/-- `zeros(WIRE_LENGTH)` (R12). -/
def zeroBuffer : Buffer := Vector.replicate Config.wireLength 0

/-- `LE(buf, off, n)`: the unsigned value of the `n` bytes that start at `off`, least significant first (R13). -/
def leValue (buf : Buffer) (off : Nat) : Nat → Nat
  | 0 => 0
  | n + 1 => (byteAt buf off).toNat + 256 * leValue buf (off + 1) n

/-- Byte `k` of `LEBytes(v, n)`: `(v / 256^k) mod 256` (R13). -/
def leByte (v k : Nat) : Byte := BitVec.ofNat 8 (v / 256 ^ k)

/-- `LEBytes(v, n)` (R13). -/
def leBytes (v n : Nat) : List Byte := (List.range n).map (leByte v)

/-- `p.buf[i] <- v` (R14). -/
def putByte (buf : Buffer) (i : Nat) (v : Byte) : Buffer :=
  Vector.ofFn fun j => if j.val = i then v else buf[j]

/-- `MemWrite(p, off, n, v)`: `LEBytes(v, n)` at offsets `[off..off+n)`, the other bytes as they are (R14). -/
def memWrite (buf : Buffer) (off n v : Nat) : Buffer :=
  Vector.ofFn fun j => if off ≤ j.val ∧ j.val < off + n then leByte v (j.val - off) else buf[j]

/-- Every byte from offset `off` on becomes 0: the padding on encode (R50, R63). -/
def zeroFrom (buf : Buffer) (off : Nat) : Buffer :=
  Vector.ofFn fun j => if off ≤ j.val then 0 else buf[j]

/-- The buffer whose bytes are the first `WIRE_LENGTH` of a byte sequence, the first byte at `buf[0]` (R34). -/
def bufferOf (bytes : List Byte) : Buffer := Vector.ofFn fun j => bytes.getD j.val 0

/-- The lowest offset in `[off..WIRE_LENGTH)` whose byte is not 0 (R65, R114). -/
def firstNonzeroFrom (buf : Buffer) (off : Nat) : Option Nat :=
  (List.range Config.wireLength).find? fun i => decide (off ≤ i ∧ byteAt buf i ≠ 0)

end Sys2Proof.Machine
end

