-- ==== Sys2Proof/Machine/Descriptor.lean ====
section
/-!
DEFINITION. The variant descriptor table (R17, R18, R19, R46), the one place that widths are read from, and the two
lookups of 40_descriptor.md as functions. The table is constant: no operation writes it (R17).
-/

namespace Sys2Proof.Machine

/-- A variant descriptor: `{name, aw, dw, magic}` (R17). -/
structure Descriptor where
  name : String
  addressBits : Nat
  dataBits : Nat
  magic : Byte
deriving DecidableEq, Repr

/-- The rows of R46. -/
def descriptorOf : Variant → Descriptor
  | .v8x8 => { name := "8×8", addressBits := 8, dataBits := 8, magic := 0x41 }
  | .v8x16 => { name := "8×16", addressBits := 8, dataBits := 16, magic := 0x42 }
  | .v8x32 => { name := "8×32", addressBits := 8, dataBits := 32, magic := 0x43 }
  | .v8x64 => { name := "8×64", addressBits := 8, dataBits := 64, magic := 0x44 }
  | .v16x64 => { name := "16×64", addressBits := 16, dataBits := 64, magic := 0x45 }
  | .v32x32 => { name := "32×32", addressBits := 32, dataBits := 32, magic := 0x4B }

/-- The variants in the order of their index 0 to 5 (R46). -/
def allVariants : List Variant := [.v8x8, .v8x16, .v8x32, .v8x64, .v16x64, .v32x32]

/-- `VARIANTS[0..6)` (R17). -/
def VARIANTS : List Descriptor := allVariants.map descriptorOf

/-- `d.aw`. -/
def addressWidth (v : Variant) : Nat := (descriptorOf v).addressBits

/-- `d.dw`. -/
def dataWidth (v : Variant) : Nat := (descriptorOf v).dataBits

/-- `d.magic`. -/
def magicOf (v : Variant) : Byte := (descriptorOf v).magic

/-- `ab(d) = d.aw / 8` (R19). -/
def addressBytes (v : Variant) : Nat := addressWidth v / 8

/-- `db(d) = d.dw / 8` (R19). -/
def dataBytes (v : Variant) : Nat := dataWidth v / 8

/-- `A = 3 + ab(d)`: the first data byte (R22). -/
def dataStart (v : Variant) : Nat := 3 + addressBytes v

/-- `P = A + db(d)`: the first padding byte (R22). -/
def paddingStart (v : Variant) : Nat := dataStart v + dataBytes v

/-- The variant of an index 0 to 5 (R46, R54). -/
def variantAt (d : Nat) : Option Variant := allVariants[d]?

/-- The index of a variant (R46). -/
def indexOf : Variant → Nat
  | .v8x8 => 0
  | .v8x16 => 1
  | .v8x32 => 2
  | .v8x64 => 3
  | .v16x64 => 4
  | .v32x32 => 5

/-- The variant with a magic byte; a number of 256 or more spells none (R51, R60). -/
def variantOfMagic (m : Nat) : Option Variant :=
  allVariants.find? fun v => (magicOf v).toNat == m

/-- What `DESC_INFO` reports (R61). -/
structure DescriptorInfo where
  name : String
  addressBitWidth : Nat
  dataBitWidth : Nat
  magicByte : Byte
  wireLength : Nat
deriving DecidableEq, Repr

/-- The report of a variant (R61). -/
def descriptorInfo (v : Variant) : DescriptorInfo :=
  { name := (descriptorOf v).name
    addressBitWidth := addressWidth v
    dataBitWidth := dataWidth v
    magicByte := magicOf v
    wireLength := Config.wireLength }

end Sys2Proof.Machine
end

