-- ==== Sys2Proof/WellFormed.lean ====
section
/-!
DEFINITION. Which instructions are well formed. What a command may carry and must not is R56 (a descriptor index
outside 0 to 5), R75 and R76 (a Boolean operand other than 0 or 1) and R25 (the exchange context is written by
`SEND_REQUEST` only). A wire packet is well formed whatever its bits: byte 0 alone selects the variant (R51), and
reserved bits are `VALIDATE`'s business, not the decoder's (R64, R65). A number out of a field's range is no defect:
it is presented and refused with an error (R54, R133).
-/

namespace Sys2Proof

/-- What can be wrong with a command's operands. -/
inductive Defect where
  /-- A descriptor index outside 0 to 5 (R56). -/
  | descriptorIndex (d : Nat)
  /-- A Boolean operand other than 0 or 1 (R75, R76, R111). -/
  | notBoolean (b : Nat)
  /-- A codec command that would write `req` or `resp` (R25; log 12). -/
  | contextRegister (p : PacketReg)
deriving DecidableEq, Repr

/-- The defect of a descriptor operand, if any (R56). -/
def Defect.ofIndex (d : Nat) : Option Defect := if d < 6 then none else some (.descriptorIndex d)

/-- The defect of a Boolean operand, if any (R75). -/
def Defect.ofBoolean (b : Nat) : Option Defect := if b < 2 then none else some (.notBoolean b)

/-- The defect of a packet operand that the command writes, if any (R25; log 12). -/
def Defect.ofWritten : PacketReg → Option Defect
  | .p _ => none
  | .req => some (.contextRegister .req)
  | .resp => some (.contextRegister .resp)

/-- The first defect of an instruction, in the order of its operands. -/
def Instr.defect : Instr → Option Defect
  | .pkt8x8 _ _ _ _ _ => none
  | .pkt8x16 _ _ _ _ _ => none
  | .pkt8x32 _ _ _ _ _ => none
  | .pkt8x64 _ _ _ _ _ => none
  | .pkt16x64 _ _ _ _ _ => none
  | .pkt32x32 _ _ _ _ _ => none
  | .lookup _ _ => none
  | .descInfo _ d => Defect.ofIndex d
  | .construct _ p d _ _ _ _ => (Defect.ofWritten p).or (Defect.ofIndex d)
  | .encode _ p => Defect.ofWritten p
  | .decode _ p d _ => (Defect.ofWritten p).or (Defect.ofIndex d)
  | .validate _ _ => none
  | .reuse _ p => Defect.ofWritten p
  | .getTarget _ _ => none
  | .getAddress _ _ => none
  | .getData _ _ => none
  | .isWrite _ _ => none
  | .isSuccess _ _ => none
  | .setTarget _ p _ => Defect.ofWritten p
  | .setAddress _ p _ => Defect.ofWritten p
  | .setData _ p _ => Defect.ofWritten p
  | .setWrite _ p b => (Defect.ofWritten p).or (Defect.ofBoolean b)
  | .setSuccess _ p b => (Defect.ofWritten p).or (Defect.ofBoolean b)
  | .acquireOnce _ _ => none
  | .reestablish _ _ => none
  | .lock _ => none
  | .unlock _ => none
  | .transfer _ _ => none
  | .exchange _ _ => none
  | .sendRequest _ d _ _ _ _ => Defect.ofIndex d

/-- An instruction is well formed when its operands have no defect. -/
abbrev Instr.WellFormed (i : Instr) : Prop := i.defect = none

end Sys2Proof
end

