-- ==== Sys2Proof/Decode.lean ====
section
/-!
DEFINITION. The two encodings of the block (30_encoding.md): the wire packet, 16 bytes selected by byte 0 (R45 to R53),
and the command record `{op, caller, operands}` (R54, R55, R56). The decoder is total and names what it rejects; the
encoder stands after it.
-/

namespace Sys2Proof

open Sys2Proof.Machine

/-- The twenty-four operations a command names (R55). -/
inductive Opcode where
  | lookup
  | descInfo
  | construct
  | encode
  | decode
  | validate
  | reuse
  | getTarget
  | getAddress
  | getData
  | isWrite
  | isSuccess
  | setTarget
  | setAddress
  | setData
  | setWrite
  | setSuccess
  | acquireOnce
  | reestablish
  | lock
  | unlock
  | transfer
  | exchange
  | sendRequest
deriving DecidableEq, Repr

/-- The command codes (R55). -/
def opcodeCode : Opcode → Byte
  | .lookup => 0x01
  | .descInfo => 0x02
  | .construct => 0x10
  | .encode => 0x11
  | .decode => 0x12
  | .validate => 0x13
  | .reuse => 0x14
  | .getTarget => 0x20
  | .getAddress => 0x21
  | .getData => 0x22
  | .isWrite => 0x23
  | .isSuccess => 0x24
  | .setTarget => 0x30
  | .setAddress => 0x31
  | .setData => 0x32
  | .setWrite => 0x33
  | .setSuccess => 0x34
  | .acquireOnce => 0x40
  | .reestablish => 0x41
  | .lock => 0x42
  | .unlock => 0x43
  | .transfer => 0x44
  | .exchange => 0x45
  | .sendRequest => 0x50

/-- The operations in the order of the table (R55). -/
def allOpcodes : List Opcode :=
  [.lookup, .descInfo, .construct, .encode, .decode, .validate, .reuse, .getTarget, .getAddress, .getData, .isWrite,
    .isSuccess] ++
  [.setTarget, .setAddress, .setData, .setWrite, .setSuccess, .acquireOnce, .reestablish, .lock, .unlock, .transfer,
    .exchange, .sendRequest]

/-- The operation a code selects; every other code is reserved (R56). -/
def opcodeOf (op : Byte) : Option Opcode := allOpcodes.find? fun o => opcodeCode o == op

/-- A typed operand of a command (R54): a packet register, a natural number of unbounded width, a byte sequence of any
length, or a device handle. -/
inductive Operand where
  | packet (p : PacketReg)
  | num (n : Nat)
  | bytes (s : List Byte)
  | handle (h : Handle)
deriving DecidableEq, Repr

/-- A command record (R54). -/
structure Command where
  op : Byte
  caller : CallerId
  operands : List Operand
deriving DecidableEq, Repr

/-- What the decoder is given: a command of a caller, or a packet on the wire. -/
inductive Frame where
  | command (cmd : Command)
  | wire (bytes : List Byte)
deriving DecidableEq, Repr

/-- Why the decoder rejects a frame. -/
inductive DecodeError where
  /-- A reserved command code (R56). -/
  | reservedCode (op : Byte)
  /-- An assigned code whose operands are not those of its rule, in number or in kind (R54; log 13). -/
  | operandList (op : Byte)
  /-- An operand with a defect (R56, R75, R25). -/
  | illFormed (d : Defect)
  /-- A wire sequence that is not `WIRE_LENGTH` bytes long (R45). -/
  | wireLength (n : Nat)
  /-- A wire packet whose byte 0 is unassigned (R51). -/
  | unassignedMagic (m : Byte)
deriving DecidableEq, Repr

/-! ### The wire packet -/

/-- The one layout of all variants (R47, R39, R53): magic, flags, target id, address, data, padding. -/
def wireLayout (v : Variant) (flags targetId : Byte) (address data padding : Nat) : Buffer :=
  let head := putByte (putByte (putByte zeroBuffer 0 (magicOf v)) 1 flags) 2 targetId
  let body := memWrite (memWrite head 3 (addressBytes v) address) (dataStart v) (dataBytes v) data
  memWrite body (paddingStart v) (Config.wireLength - paddingStart v) padding

/-- The wire instruction of a variant with the given field values. -/
def packetInstr (flags targetId : Byte) (address data padding : Nat) : Variant → Instr
  | .v8x8 => .pkt8x8 flags targetId (BitVec.ofNat 8 address) (BitVec.ofNat 8 data) (BitVec.ofNat 88 padding)
  | .v8x16 => .pkt8x16 flags targetId (BitVec.ofNat 8 address) (BitVec.ofNat 16 data) (BitVec.ofNat 80 padding)
  | .v8x32 => .pkt8x32 flags targetId (BitVec.ofNat 8 address) (BitVec.ofNat 32 data) (BitVec.ofNat 64 padding)
  | .v8x64 => .pkt8x64 flags targetId (BitVec.ofNat 8 address) (BitVec.ofNat 64 data) (BitVec.ofNat 32 padding)
  | .v16x64 => .pkt16x64 flags targetId (BitVec.ofNat 16 address) (BitVec.ofNat 64 data) (BitVec.ofNat 24 padding)
  | .v32x32 => .pkt32x32 flags targetId (BitVec.ofNat 32 address) (BitVec.ofNat 32 data) (BitVec.ofNat 40 padding)

/-- The fields of 16 bytes read as a packet of variant `v` (R22, R47): every bit belongs to exactly one field. -/
def wireFields (v : Variant) (buf : Buffer) : Instr :=
  packetInstr (byteAt buf 1) (byteAt buf 2) (leValue buf 3 (addressBytes v)) (leValue buf (dataStart v) (dataBytes v))
    (leValue buf (paddingStart v) (Config.wireLength - paddingStart v)) v

/-- Byte 0 alone selects the variant (R51). -/
def decodeWire (bytes : List Byte) : Except DecodeError Instr :=
  if bytes.length = Config.wireLength then
    match variantOfMagic (byteAt (bufferOf bytes) 0).toNat with
    | some v => .ok (wireFields v (bufferOf bytes))
    | none => .error (.unassignedMagic (byteAt (bufferOf bytes) 0))
  else .error (.wireLength bytes.length)

/-! ### The command record -/

/-- The instruction of an operation with its operands in the order of its rule (R54, R55); none where they are not
those of the rule. -/
def commandInstr (c : CallerId) : Opcode → List Operand → Option Instr
  | .lookup, [.num m] => some (.lookup c m)
  | .descInfo, [.num d] => some (.descInfo c d)
  | .construct, [.packet p, .num d, .num t, .num f, .num a, .num v] => some (.construct c p d t f a v)
  | .encode, [.packet p] => some (.encode c p)
  | .decode, [.packet p, .num d, .bytes s] => some (.decode c p d s)
  | .validate, [.packet p] => some (.validate c p)
  | .reuse, [.packet p] => some (.reuse c p)
  | .getTarget, [.packet p] => some (.getTarget c p)
  | .getAddress, [.packet p] => some (.getAddress c p)
  | .getData, [.packet p] => some (.getData c p)
  | .isWrite, [.packet p] => some (.isWrite c p)
  | .isSuccess, [.packet p] => some (.isSuccess c p)
  | .setTarget, [.packet p, .num v] => some (.setTarget c p v)
  | .setAddress, [.packet p, .num v] => some (.setAddress c p v)
  | .setData, [.packet p, .num v] => some (.setData c p v)
  | .setWrite, [.packet p, .num b] => some (.setWrite c p b)
  | .setSuccess, [.packet p, .num b] => some (.setSuccess c p b)
  | .acquireOnce, [.handle h] => some (.acquireOnce c h)
  | .reestablish, [.handle h] => some (.reestablish c h)
  | .lock, [] => some (.lock c)
  | .unlock, [] => some (.unlock c)
  | .transfer, [.bytes s] => some (.transfer c s)
  | .exchange, [.bytes s] => some (.exchange c s)
  | .sendRequest, [.num d, .num t, .num f, .num a, .num v] => some (.sendRequest c d t f a v)
  | _, _ => none

/-- A command record's instruction, or what is illegal about it (R54, R55, R56). -/
def decodeCommand (cmd : Command) : Except DecodeError Instr :=
  match opcodeOf cmd.op with
  | none => .error (.reservedCode cmd.op)
  | some o =>
    match commandInstr cmd.caller o cmd.operands with
    | none => .error (.operandList cmd.op)
    | some i =>
      match i.defect with
      | some d => .error (.illFormed d)
      | none => .ok i

/-- The decoder. -/
def decode : Frame → Except DecodeError Instr
  | .command cmd => decodeCommand cmd
  | .wire bytes => decodeWire bytes

/-! ### The encoder -/

/-- A command record of an operation. -/
def commandOf (o : Opcode) (c : CallerId) (operands : List Operand) : Frame :=
  .command { op := opcodeCode o, caller := c, operands := operands }

/-- A wire packet. -/
def packetOf (v : Variant) (flags targetId : Byte) (address data padding : Nat) : Frame :=
  .wire (wireLayout v flags targetId address data padding).toList

/-- The words of an instruction: its record (R54, R55) or its 16 bytes (R47). -/
def encode : Instr → Frame
  | .pkt8x8 f t a d p => packetOf .v8x8 f t a.toNat d.toNat p.toNat
  | .pkt8x16 f t a d p => packetOf .v8x16 f t a.toNat d.toNat p.toNat
  | .pkt8x32 f t a d p => packetOf .v8x32 f t a.toNat d.toNat p.toNat
  | .pkt8x64 f t a d p => packetOf .v8x64 f t a.toNat d.toNat p.toNat
  | .pkt16x64 f t a d p => packetOf .v16x64 f t a.toNat d.toNat p.toNat
  | .pkt32x32 f t a d p => packetOf .v32x32 f t a.toNat d.toNat p.toNat
  | .lookup c m => commandOf .lookup c [.num m]
  | .descInfo c d => commandOf .descInfo c [.num d]
  | .construct c p d t f a v => commandOf .construct c [.packet p, .num d, .num t, .num f, .num a, .num v]
  | .encode c p => commandOf .encode c [.packet p]
  | .decode c p d s => commandOf .decode c [.packet p, .num d, .bytes s]
  | .validate c p => commandOf .validate c [.packet p]
  | .reuse c p => commandOf .reuse c [.packet p]
  | .getTarget c p => commandOf .getTarget c [.packet p]
  | .getAddress c p => commandOf .getAddress c [.packet p]
  | .getData c p => commandOf .getData c [.packet p]
  | .isWrite c p => commandOf .isWrite c [.packet p]
  | .isSuccess c p => commandOf .isSuccess c [.packet p]
  | .setTarget c p v => commandOf .setTarget c [.packet p, .num v]
  | .setAddress c p v => commandOf .setAddress c [.packet p, .num v]
  | .setData c p v => commandOf .setData c [.packet p, .num v]
  | .setWrite c p b => commandOf .setWrite c [.packet p, .num b]
  | .setSuccess c p b => commandOf .setSuccess c [.packet p, .num b]
  | .acquireOnce c h => commandOf .acquireOnce c [.handle h]
  | .reestablish c h => commandOf .reestablish c [.handle h]
  | .lock c => commandOf .lock c []
  | .unlock c => commandOf .unlock c []
  | .transfer c s => commandOf .transfer c [.bytes s]
  | .exchange c s => commandOf .exchange c [.bytes s]
  | .sendRequest c d t f a v => commandOf .sendRequest c [.num d, .num t, .num f, .num a, .num v]

/-! ### The opcode table's words -/

/-- The operands of an operation when every one of them is zero: register `p0`, number 0, the empty sequence, handle 0. -/
def zeroOperands : Opcode → List Operand
  | .lookup | .descInfo => [.num 0]
  | .construct => [.packet (.p 0), .num 0, .num 0, .num 0, .num 0, .num 0]
  | .decode => [.packet (.p 0), .num 0, .bytes []]
  | .encode | .validate | .reuse | .getTarget | .getAddress | .getData | .isWrite | .isSuccess => [.packet (.p 0)]
  | .setTarget | .setAddress | .setData | .setWrite | .setSuccess => [.packet (.p 0), .num 0]
  | .acquireOnce | .reestablish => [.handle 0]
  | .lock | .unlock => []
  | .transfer | .exchange => [.bytes []]
  | .sendRequest => [.num 0, .num 0, .num 0, .num 0, .num 0]

/-- The command of caller 0 with code `op` and zero operands. -/
def zeroCommand (op : Byte) : Option Command :=
  (opcodeOf op).map fun o => { op := op, caller := 0, operands := zeroOperands o }

/-- The frame of a table word. The table's codes 0x41 to 0x45 stand for a wire magic and for a command at once, in two
encodings that never meet (R51, R55): a word of at most 8 bits is a command code where it is an assigned one, a longer
word is a packet where its byte 0 is an assigned magic (log 8). -/
def tableFrame (nbits w : Nat) : Frame :=
  let packet := Frame.wire (memWrite zeroBuffer 0 Config.wireLength w).toList
  let asCommand := (zeroCommand (leByte w 0)).map Frame.command
  if nbits ≤ 8 then asCommand.getD packet
  else if (variantOfMagic (leByte w 0).toNat).isSome then packet
  else asCommand.getD packet

/-- The instruction the decoder reads from a table word. -/
def decodeTableWord (nbits w : Nat) : Option Instr := (decode (tableFrame nbits w)).toOption

end Sys2Proof
end

