-- ==== Sys2Proof/Machine/State.lean ====
section
/-!
DEFINITION. The state of the block as plain data: the callers with their packet registers and exchange contexts (R20 to
R25, R29, R30), the endpoint session (R26 to R28), the wire (R32), and what comes from outside: the callers' commands
(R54), the schedule (R90, R116), the transport's answers (R80 to R84). `State.reset` is R31 and R123.
-/

namespace Sys2Proof.Machine

/-- Why the machine stops: the model faults of R111. They mark a command the block gives no meaning and are no error
that the hardware returns. -/
inductive Fault where
  /-- A field operation, `ENCODE` or `VALIDATE` on a packet that is `Empty` or `Stale`: raised by the codec commands
  that require a bound packet (R21, R111). Safe: the spec gives the command no result. -/
  | useBeforeConstruct
  /-- A reserved command code, a bad descriptor index, a Boolean operand other than 0 or 1 (R56, R75, R111), operands
  that are not the rule's (log 13), a codec command that would write the exchange context (log 12): raised by `step`
  on a command the decoder rejects and by the meanings on ill-formed operands. Safe: the spec gives no effect. -/
  | illegalCommand
  /-- `UNLOCK` or `TRANSFER` by a caller that does not hold the gate: raised by those two (R89, R91, R111). Safe. -/
  | notHolder
deriving DecidableEq, Repr

/-- Why an instruction has no meaning in the model. -/
inductive Refusal where
  /-- An arm of `exec` without a meaning, by its mnemonic. No arm answers so. Safe. -/
  | notModelled (mnemonic : String)
deriving DecidableEq, Repr

/-! ### Results and errors -/

/-- The fields a `FieldOverflow` names (R106, R112). -/
inductive Field where
  | address
  | data
  | targetId
  | flags
deriving DecidableEq, Repr

/-- The sub-codes of `ValidationError` (R107); `ReservedPadding` records its offset (R106). -/
inductive Violation where
  | badMagic
  | reservedFlagBits
  | reservedPadding (offset : Nat)
  | fieldRange
  | echoMismatch
deriving DecidableEq, Repr

/-- The blocking step in which a transfer timed out (R91, R106). -/
inductive Stage where
  | transmit
  | receive
deriving DecidableEq, Repr

/-- The errors, each with the information it records (R106). -/
inductive Error where
  | fieldOverflow (field : Field) (value width : Nat)
  | lengthMismatch (expected got : Nat)
  | shortRead (received : Nat)
  | shortWrite (sent : Nat)
  | magicMismatch (expected got : Byte)
  | unknownVariant (magic : Nat)
  | validationError (violation : Violation)
  | endpointBusy
  | timeout (stage : Stage)
  | reentrantLock
  | degraded
deriving DecidableEq, Repr

/-- The result of an operation: `Ok(v)` or `Err(e)` (R15). -/
inductive Result (α : Type) where
  | ok (value : α)
  | err (e : Error)
deriving DecidableEq, Repr

/-- What `SEND_REQUEST` returns (R103). -/
structure DecodedResponse where
  targetId : Nat
  address : Nat
  data : Nat
  isWrite : Bool
  isSuccess : Bool
  flags : Byte
deriving DecidableEq, Repr

/-- The values that operations return. -/
inductive Value where
  | unit
  | descriptor (v : Variant)
  | descInfo (info : DescriptorInfo)
  | packet (p : PacketReg)
  | bytes (s : Buffer)
  | number (n : Nat)
  | bool (b : Bool)
  | response (r : DecodedResponse)
deriving DecidableEq, Repr

/-! ### Packet registers -/

/-- The status of a packet register (R21). -/
inductive PacketStatus where
  | empty
  | stale
  | constructed
  | decoded
deriving DecidableEq, Repr

/-- A packet register (R20). -/
structure Packet where
  buf : Buffer
  desc : Option Variant
  status : PacketStatus
deriving DecidableEq, Repr

/-- A newly allocated packet register (R31): `Empty`, bound to no descriptor. Its bytes are unspecified; the model
names 0 (DESIGN CHOICE, log 2) and no operation reads them. -/
def Packet.fresh : Packet := { buf := zeroBuffer, desc := none, status := .empty }

/-- A caller's packet registers `p0`, `p1`, …: pairs of number and packet, numbers rising, none newly allocated
(log 3). The packet buffer space of R32 is the buffers of these registers. -/
abbrev Memory := List (Nat × Packet)

/-! ### The exchange context -/

/-- The exchange phases (R30). -/
inductive Phase where
  | idle
  | built
  | sent
  | awaitingResponse
  | decoded
  | validated
  | rejected
deriving DecidableEq, Repr

/-- A caller's exchange context (R29). `path` is the model's own: the phases of the present or last exchange in order
(log 17). -/
structure ExchangeContext where
  phase : Phase
  req : Packet
  resp : Packet
  respBytes : Option Buffer
  result : Option (Result DecodedResponse)
  path : List Phase
deriving DecidableEq, Repr

/-- The exchange context at reset (R31). -/
def ExchangeContext.fresh : ExchangeContext :=
  { phase := .idle, req := .fresh, resp := .fresh, respBytes := none, result := none, path := [] }

/-! ### Operations in progress -/

/-- Which operation takes the gate: `LOCK` itself, `EXCHANGE(s)`, or `SEND_REQUEST` with its descriptor, the target id
and address to be echoed and the encoded request (R88, R92, R94). -/
inductive GateUser where
  | lock
  | exchange (s : List Byte)
  | request (v : Variant) (targetId address : Nat) (b : Buffer)
deriving DecidableEq, Repr

/-- Which operation a transfer belongs to: `TRANSFER` itself, `EXCHANGE`, or `SEND_REQUEST` (R91, R92, R94). -/
inductive TransferUser where
  | raw
  | exchange
  | request (v : Variant) (targetId address : Nat)
deriving DecidableEq, Repr

/-- Where a caller is held ('hold until', R14). -/
inductive Held where
  /-- At the gate (R88): a waiter (R27). -/
  | atLock (u : GateUser)
  /-- At `REESTABLISH`, until the gate is free (R87). -/
  | atReestablish (h : Handle)
  /-- In the TX step, until the transport answers the write (R91). -/
  | atTransmit (u : TransferUser) (b : Buffer)
  /-- In the RX step, until the transport answers the read (R91). -/
  | atReceive (u : TransferUser)
deriving DecidableEq, Repr

/-- A caller (R16, R24, R121): its packet registers, its exchange context, the operation in which it is held, and the
result of its last operation (`none` while an operation is in progress; log 14). -/
structure Caller where
  regs : Memory
  xs : ExchangeContext
  held : Option Held
  ret : Option (Result Value)
deriving DecidableEq, Repr

/-- A caller at reset (R31). -/
def Caller.fresh : Caller := { regs := [], xs := .fresh, held := none, ret := none }

/-! ### The session and the transport -/

/-- `sess.state` (R26). -/
inductive SessionState where
  | unacquired
  | ready
  | degraded
deriving DecidableEq, Repr

/-- The endpoint session (R26, R27, R28). -/
structure Session where
  state : SessionState
  holder : Option CallerId
  handle : Option Handle
  claims : Nat
deriving DecidableEq, Repr

/-- A use of a transport primitive (R80), with the bytes it carried and its answer. -/
inductive WireEvent where
  | claim (h : Handle) (a : ClaimAnswer)
  | release (h : Handle)
  | write (c : CallerId) (bytes : Buffer) (a : WriteAnswer)
  | read (c : CallerId) (a : ReadAnswer)
deriving DecidableEq, Repr

/-- What the transport has ready, the model's own: its next answers to each primitive (R81 to R84), the packets of the
device that are still to be delivered, and how many free values have been drawn (log 4, log 9). -/
structure Transport where
  claims : List ClaimAnswer
  writes : List WriteAnswer
  reads : List ReadAnswer
  cleans : List Bool
  inbound : List Buffer
  drawn : Nat
deriving DecidableEq, Repr

/-- The state of the block. -/
structure State where
  /-- The endpoint session (R26 to R28). -/
  session : Session
  /-- The callers, by id, ids rising, none as at reset (log 3). -/
  callers : List (Nat × Caller)
  /-- The commands issued and not yet started (R54); a caller's own are in its program order (R40). -/
  issued : List Command
  /-- The agents in the order in which they step (R90, R116; log 6). -/
  schedule : List Agent
  /-- What the transport has ready (log 4). -/
  transport : Transport
  /-- The wire stream (R32, R40): the transport primitives used, oldest first (log 17). -/
  wire : List WireEvent
deriving DecidableEq, Repr

/-- The state after reset (R31, R123): no caller has done anything, the session is `Unacquired`, with no holder, no
handle and no claim; nothing has been issued or carried. -/
def State.reset : State :=
  { session := { state := .unacquired, holder := none, handle := none, claims := 0 }
    callers := []
    issued := []
    schedule := []
    transport := { claims := [], writes := [], reads := [], cleans := [], inbound := [], drawn := 0 }
    wire := [] }

end Sys2Proof.Machine
end

