-- ==== Sys2Proof/Machine/Errors.lean ====
section
/-!
DEFINITION. The numbers of the errors (R106, R107; D9, D11): the code of every result, the sub-code of a `ValidationError`, and
what a caller is handed when its operation ends (R108).
-/

namespace Sys2Proof.Machine

/-- The sub-code of a `ValidationError` (R107). -/
def Violation.subCode : Violation → Nat
  | .badMagic => 1
  | .reservedFlagBits => 2
  | .reservedPadding _ => 3
  | .fieldRange => 4
  | .echoMismatch => 5

/-- The code of an error (R106). -/
def Error.code : Error → Nat
  | .fieldOverflow _ _ _ => 1
  | .lengthMismatch _ _ => 2
  | .shortRead _ => 3
  | .shortWrite _ => 4
  | .magicMismatch _ _ => 5
  | .unknownVariant _ => 6
  | .validationError _ => 7
  | .endpointBusy => 8
  | .timeout _ => 9
  | .reentrantLock => 10
  | .degraded => 11

/-- The sub-code that an error records: a `ValidationError`'s, and no other's (R106, R107). -/
def Error.subCode : Error → Option Nat
  | .fieldOverflow _ _ _ => none
  | .lengthMismatch _ _ => none
  | .shortRead _ => none
  | .shortWrite _ => none
  | .magicMismatch _ _ => none
  | .unknownVariant _ => none
  | .validationError x => some x.subCode
  | .endpointBusy => none
  | .timeout _ => none
  | .reentrantLock => none
  | .degraded => none

/-- The code of a result: 0 for `Ok`, the error's for `Err` (R106). -/
def Result.code {α : Type} : Result α → Nat
  | .ok _ => 0
  | .err e => e.code

/-- What a caller is handed when its operation ends: the result with its code (R15, R108); none while the operation is in
progress (log 14). -/
def Caller.delivered (k : Caller) : Option (Nat × Result Value) := k.ret.map fun r => (r.code, r)

end Sys2Proof.Machine
end

