-- ==== Sys2Proof/Machine/Flags.lean ====
section
/-!
DEFINITION. The flags byte (R23, R49), the only flags of the block, and the flag symbols of R58.
-/

namespace Sys2Proof.Machine

/-- `W`, bit 0: 1 = write, 0 = read (R23, R49). -/
def writeFlag (f : Byte) : Bool := f.getLsbD 0

/-- `S`, bit 1: 1 = success, 0 = failure (R23, R49). -/
def successFlag (f : Byte) : Bool := f.getLsbD 1

/-- Bits 7:2, reserved (R23, R49). -/
def reservedFlags (f : Byte) : BitVec 6 := f.extractLsb' 2 6

/-- The byte with bit 0 set to `b`, bits 7:1 unchanged (R75). -/
def withWriteFlag (f : Byte) (b : Bool) : Byte := (f &&& 0xFE#8) ||| (if b then 0x01#8 else 0x00#8)

/-- The byte with bit 1 set to `b`, bits 7:2 and bit 0 unchanged (R76). -/
def withSuccessFlag (f : Byte) (b : Bool) : Byte := (f &&& 0xFD#8) ||| (if b then 0x02#8 else 0x00#8)

/-- `READ` (R58). -/
def flagRead : Nat := 0x00

/-- `WRITE` (R58). -/
def flagWrite : Nat := 0x01

/-- `SUCCESS` (R58). -/
def flagSuccess : Nat := 0x02

end Sys2Proof.Machine
end

