-- ==== Sys2Proof/Machine/Store.lean ====
section
/-!
DEFINITION. Data by number, in one canonical form: a list of (number, value) pairs, numbers strictly rising, and no
entry equal to what an unlisted number reads as. A caller's packet registers and the callers themselves are held so:
there are any number of each (R24, R16), and all but finitely many are as at reset (R31; log 3).
-/

namespace Sys2Proof.Machine

/-- Every listed number is at least `lo`, numbers strictly rise, and no value is the unlisted one. -/
def storeWfFrom {α : Type} [DecidableEq α] (unlisted : α) (lo : Nat) : List (Nat × α) → Bool
  | [] => true
  | (k, v) :: rest => decide (lo ≤ k) && decide (v ≠ unlisted) && storeWfFrom unlisted (k + 1) rest

/-- The canonical form. -/
def storeWf {α : Type} [DecidableEq α] (unlisted : α) (m : List (Nat × α)) : Bool := storeWfFrom unlisted 0 m

/-- What a number reads as. -/
def storeGet {α : Type} (unlisted : α) : List (Nat × α) → Nat → α
  | [], _ => unlisted
  | (k, v) :: rest, a => if a = k then v else storeGet unlisted rest a

/-- The list with an entry for `a`. -/
def storeInsert {α : Type} (a : Nat) (v : α) : List (Nat × α) → List (Nat × α)
  | [] => [(a, v)]
  | (k, w) :: rest =>
    if a < k then (a, v) :: (k, w) :: rest
    else if a = k then (a, v) :: rest
    else (k, w) :: storeInsert a v rest

/-- The list without an entry for `a`. -/
def storeErase {α : Type} (a : Nat) : List (Nat × α) → List (Nat × α)
  | [] => []
  | (k, w) :: rest => if a = k then storeErase a rest else (k, w) :: storeErase a rest

/-- A write; writing what an unlisted number reads as removes the entry. -/
def storeSet {α : Type} [DecidableEq α] (unlisted : α) (m : List (Nat × α)) (a : Nat) (v : α) : List (Nat × α) :=
  if v = unlisted then storeErase a m else storeInsert a v m

/-- A caller's packet registers are in canonical form. -/
def Memory.wf (m : Memory) : Bool := storeWf Packet.fresh m

/-- The callers are in canonical form, and each one's packet registers are. -/
def State.wf (s : State) : Bool :=
  storeWf Caller.fresh s.callers && s.callers.all fun kv => Memory.wf kv.2.regs

end Sys2Proof.Machine
end

