-- ==== Sys2Proof/Machine/Operands.lean ====
section
/-!
DEFINITION. Operand forms (R54): reading and writing a caller's packet registers, the descriptor operand, the Boolean
operand, and the accessors of the state that go by caller.
-/

namespace Sys2Proof.Machine

/-- A Boolean operand: 0 or 1, nothing else (R75). -/
def booleanOf : Nat → Option Bool
  | 0 => some false
  | 1 => some true
  | _ => none

/-- The number of a register that codec commands may write: `p<n>`, never `req` or `resp` (R25; log 12). -/
def writtenReg : PacketReg → Option Nat
  | .p n => some n
  | .req => none
  | .resp => none

/-- The packet in a register of a caller. -/
def Caller.packet (k : Caller) : PacketReg → Packet
  | .p n => storeGet Packet.fresh k.regs n
  | .req => k.xs.req
  | .resp => k.xs.resp

/-- The caller with a packet written to a register. -/
def Caller.setPacket (k : Caller) (r : PacketReg) (q : Packet) : Caller :=
  match r with
  | .p n => { k with regs := storeSet Packet.fresh k.regs n q }
  | .req => { k with xs := { k.xs with req := q } }
  | .resp => { k with xs := { k.xs with resp := q } }

/-- The caller `c`. -/
def State.caller (s : State) (c : CallerId) : Caller := storeGet Caller.fresh s.callers c

/-- The state with caller `c` changed. -/
def State.mapCaller (s : State) (c : CallerId) (f : Caller → Caller) : State :=
  { s with callers := storeSet Caller.fresh s.callers c (f (s.caller c)) }

/-- The packet in a register of caller `c`. -/
def State.packet (s : State) (c : CallerId) (r : PacketReg) : Packet := (s.caller c).packet r

/-- The state with a packet written to a register of caller `c`. -/
def State.setPacket (s : State) (c : CallerId) (r : PacketReg) (q : Packet) : State :=
  s.mapCaller c fun k => k.setPacket r q

/-- One byte of a caller's packet buffer space (R32). -/
def State.byte (s : State) (c : CallerId) (r : PacketReg) (i : Nat) : Byte := byteAt (s.packet c r).buf i

/-- The descriptor of a bound packet: `bound(p)` is `p.status ∈ {Constructed, Decoded}` (41_codec.md; R21). -/
def boundTo (q : Packet) : Option Variant :=
  match q.status with
  | .empty => none
  | .stale => none
  | .constructed => q.desc
  | .decoded => q.desc

end Sys2Proof.Machine
end

