-- ==== Sys2Proof/Machine/Ops.lean ====
section
/-!
DEFINITION. The named operations that the meanings share: packets as values (41_codec.md), delivering a result or an
error (R15, R108), the transport's draws (R80 to R84), the gate, the transfer and the exchange sequencer (42_session.md,
43_exchange.md).
-/

namespace Sys2Proof.Machine

/-- What an instruction answers. -/
abbrev Step := Host.Outcome State Fault Refusal

/-- A result with its value changed. -/
def resultMap {α β : Type} (f : α → β) : Result α → Result β
  | .ok v => .ok (f v)
  | .err e => .err e

/-! ### Packets as values: one implementation for all six variants (R53) -/

/-- The checks of `CONSTRUCT` in their order (R62, R112). -/
def constructError (v : Variant) (targetId flags address data : Nat) : Option Error :=
  if 2 ^ addressWidth v ≤ address then some (.fieldOverflow .address address (addressWidth v))
  else if 2 ^ dataWidth v ≤ data then some (.fieldOverflow .data data (dataWidth v))
  else if 2 ^ 8 ≤ targetId then some (.fieldOverflow .targetId targetId 8)
  else if 2 ^ 8 ≤ flags then some (.fieldOverflow .flags flags 8)
  else if reservedFlags (BitVec.ofNat 8 flags) ≠ 0 then some (.validationError .reservedFlagBits)
  else none

/-- The packet that `CONSTRUCT` builds: every byte is written (R62). -/
def constructed (v : Variant) (targetId flags address data : Nat) : Packet :=
  { buf :=
      memWrite
        (memWrite
          (putByte (putByte (putByte zeroBuffer 0 (magicOf v)) 1 (BitVec.ofNat 8 flags)) 2 (BitVec.ofNat 8 targetId))
          3 (addressBytes v) address)
        (dataStart v) (dataBytes v) data
    desc := some v
    status := .constructed }

/-- `CONSTRUCT` as a function (R62). -/
def constructPacket (v : Variant) (targetId flags address data : Nat) : Result Packet :=
  match constructError v targetId flags address data with
  | some e => .err e
  | none => .ok (constructed v targetId flags address data)

/-- `ENCODE`'s effect on a packet bound to `v`: the padding becomes zero; the buffer is the wire bytes (R63). -/
def encodedPacket (v : Variant) (q : Packet) : Packet := { q with buf := zeroFrom q.buf (paddingStart v) }

/-- `DECODE` as a function: length, then unassigned magic, then the descriptor's magic (R64, R113). -/
def decodePacket (v : Variant) (bytes : List Byte) : Result Packet :=
  if bytes.length ≠ Config.wireLength then .err (.lengthMismatch Config.wireLength bytes.length)
  else if (variantOfMagic (byteAt (bufferOf bytes) 0).toNat).isNone then
    .err (.unknownVariant (byteAt (bufferOf bytes) 0).toNat)
  else if byteAt (bufferOf bytes) 0 ≠ magicOf v then .err (.magicMismatch (magicOf v) (byteAt (bufferOf bytes) 0))
  else .ok { buf := bufferOf bytes, desc := some v, status := .decoded }

/-- `GET_TARGET` of a packet (R67). -/
def targetOf (q : Packet) : Nat := (byteAt q.buf 2).toNat

/-- `GET_ADDRESS` of a packet bound to `v` (R68). -/
def addressOf (v : Variant) (q : Packet) : Nat := leValue q.buf 3 (addressBytes v)

/-- `GET_DATA` of a packet bound to `v` (R69). -/
def dataOf (v : Variant) (q : Packet) : Nat := leValue q.buf (dataStart v) (dataBytes v)

/-- The flags byte of a packet (R22, R23). -/
def flagsOf (q : Packet) : Byte := byteAt q.buf 1

/-- `VALIDATE` as a function: the first violation in the order of R65 and R114. -/
def violationOf (v : Variant) (q : Packet) : Option Violation :=
  if byteAt q.buf 0 ≠ magicOf v then some .badMagic
  else if reservedFlags (flagsOf q) ≠ 0 then some .reservedFlagBits
  else
    match firstNonzeroFrom q.buf (paddingStart v) with
    | some i => some (.reservedPadding i)
    | none =>
      if 2 ^ addressWidth v ≤ addressOf v q ∨ 2 ^ dataWidth v ≤ dataOf v q then some .fieldRange else none

/-- `SET_TARGET` as a function (R72). -/
def targetSet (q : Packet) (x : Nat) : Result Packet :=
  if 2 ^ 8 ≤ x then .err (.fieldOverflow .targetId x 8) else .ok { q with buf := putByte q.buf 2 (BitVec.ofNat 8 x) }

/-- `SET_ADDRESS` as a function (R73). -/
def addressSet (v : Variant) (q : Packet) (x : Nat) : Result Packet :=
  if 2 ^ addressWidth v ≤ x then .err (.fieldOverflow .address x (addressWidth v))
  else .ok { q with buf := memWrite q.buf 3 (addressBytes v) x }

/-- `SET_DATA` as a function (R74). -/
def dataSet (v : Variant) (q : Packet) (x : Nat) : Result Packet :=
  if 2 ^ dataWidth v ≤ x then .err (.fieldOverflow .data x (dataWidth v))
  else .ok { q with buf := memWrite q.buf (dataStart v) (dataBytes v) x }

/-- The packet with its flags byte replaced (R75, R76). -/
def flagsSet (q : Packet) (f : Byte) : Packet := { q with buf := putByte q.buf 1 f }

/-- `REUSE` as a function: no copy, no clear (R66). -/
def reusedPacket (q : Packet) : Packet := { q with desc := none, status := .stale }

/-- `decoded_response(q)` (R103). -/
def decodedResponse (v : Variant) (q : Packet) : DecodedResponse :=
  { targetId := targetOf q
    address := addressOf v q
    data := dataOf v q
    isWrite := writeFlag (flagsOf q)
    isSuccess := successFlag (flagsOf q)
    flags := flagsOf q }

/-! ### Results, errors and holds -/

/-- The operation in progress ends with its result. -/
def Caller.finish (k : Caller) (r : Result Value) : Caller := { k with held := none, ret := some r }

/-- The caller is held; its operation has no result yet. -/
def Caller.hold (k : Caller) (h : Held) : Caller := { k with held := some h, ret := none }

/-- `phase <- P` (R14). -/
def Caller.enter (k : Caller) (ph : Phase) : Caller :=
  { k with xs := { k.xs with phase := ph, path := k.xs.path ++ [ph] } }

/-- An exchange begins: its path starts at the phase the caller is in (R94). -/
def Caller.beginExchange (k : Caller) : Caller := { k with xs := { k.xs with path := [k.xs.phase] } }

/-- The exchange takes its result and the phase returns to `Idle`: `take_result()` (R30, R94). -/
def Caller.settle (k : Caller) (ph : Phase) (r : Result DecodedResponse) : Caller :=
  (({ k.enter ph with xs := { (k.enter ph).xs with result := some r } }).enter .idle).finish (resultMap .response r)

/-- An operation of caller `c` ends with `Ok(v)`. -/
def State.succeed (s : State) (c : CallerId) (v : Value) : State := s.mapCaller c fun k => k.finish (.ok v)

/-- Delivering an error, the block's 'trap entry' (R108): `Err(e)`, with the code `e.code` and the information that `e`
records, is the result of the operation that raised it, for its caller and no one else (`Caller.delivered` reads it). No
handler, no saved state, no mode: there is nothing to return from. -/
def State.raise (s : State) (c : CallerId) (e : Error) : State := s.mapCaller c fun k => k.finish (.err e)

/-- Caller `c` is held at `h`. -/
def State.hold (s : State) (c : CallerId) (h : Held) : State := s.mapCaller c fun k => k.hold h

/-- A codec operation on register `r` ends: the packet is committed, or the error is delivered and the register is as
it was (R109). -/
def State.commit (s : State) (c : CallerId) (r : PacketReg) : Result Packet → State
  | .ok q => (s.setPacket c r q).succeed c (.packet r)
  | .err e => s.raise c e

/-- `require bound(p)`: the operation on the packet in `r` and its descriptor, or the fault (R111). -/
def withBound (s : State) (c : CallerId) (r : PacketReg) (f : Variant → Packet → State) : Step :=
  match boundTo (s.packet c r) with
  | some v => .next (f v (s.packet c r))
  | none => .fault .useBeforeConstruct

/-- The operation with a register that it writes: `p<n>` only (R25; log 12). -/
def withWritten (r : PacketReg) (f : Step) : Step :=
  match writtenReg r with
  | some _ => f
  | none => .fault .illegalCommand

/-- The operation with a descriptor operand (R56). -/
def withVariant (d : Nat) (f : Variant → Step) : Step :=
  match variantAt d with
  | some v => f v
  | none => .fault .illegalCommand

/-- The operation with a Boolean operand (R75). -/
def withBoolean (b : Nat) (f : Bool → Step) : Step :=
  match booleanOf b with
  | some x => f x
  | none => .fault .illegalCommand

/-! ### The session's registers -/

/-- `sess.holder <- x`. -/
def State.setHolder (s : State) (x : Option CallerId) : State := { s with session := { s.session with holder := x } }

/-- `sess.state <- Degraded`. -/
def State.degrade (s : State) : State := { s with session := { s.session with state := .degraded } }

/-- `sess.handle <- none`. -/
def State.unbind (s : State) : State := { s with session := { s.session with handle := none } }

/-- `sess.handle <- h; sess.claims <- sess.claims + 1; sess.state <- Ready` (R86, R87). -/
def State.bind (s : State) (h : Handle) : State :=
  { s with session := { s.session with handle := some h, claims := s.session.claims + 1, state := .ready } }

/-- A transport primitive has been used (R80). -/
def State.record (s : State) (e : WireEvent) : State := { s with wire := s.wire ++ [e] }

/-! ### The transport's draws: the answer that is ready, else a free value (log 4) -/

/-- `draw Transport.claim` (R81). -/
def drawClaim (s : State) : ClaimAnswer × State :=
  match s.transport.claims with
  | a :: rest => (a, { s with transport := { s.transport with claims := rest } })
  | [] => (Config.freeClaim s.transport.drawn, { s with transport := { s.transport with drawn := s.transport.drawn + 1 } })

/-- `draw Transport.write` (R82). -/
def drawWrite (s : State) : WriteAnswer × State :=
  match s.transport.writes with
  | a :: rest => (a, { s with transport := { s.transport with writes := rest } })
  | [] => (Config.freeWrite s.transport.drawn, { s with transport := { s.transport with drawn := s.transport.drawn + 1 } })

/-- `draw Transport.read` (R83). -/
def drawRead (s : State) : ReadAnswer × State :=
  match s.transport.reads with
  | a :: rest => (a, { s with transport := { s.transport with reads := rest } })
  | [] => (Config.freeRead s.transport.drawn, { s with transport := { s.transport with drawn := s.transport.drawn + 1 } })

/-- `draw Transport.residue_clean` (R84). -/
def drawClean (s : State) : Bool × State :=
  match s.transport.cleans with
  | a :: rest => (a, { s with transport := { s.transport with cleans := rest } })
  | [] => (Config.freeClean s.transport.drawn, { s with transport := { s.transport with drawn := s.transport.drawn + 1 } })

/-- The residue rule: a transfer that failed and may have moved bytes leaves the session `Ready` where the transport
says the endpoint is clean, and `Degraded` where it does not (R84). -/
def applyResidue (s : State) : State :=
  if (drawClean s).1 then (drawClean s).2 else (drawClean s).2.degrade

/-! ### Binding the endpoint -/

/-- Claim the endpoint for handle `h`: bound and `Ready`, or `EndpointBusy` (R81, R86, R87). -/
def claimFor (c : CallerId) (h : Handle) (s : State) : State :=
  match (drawClaim s).1 with
  | .ok => (((drawClaim s).2.record (.claim h .ok)).bind h).succeed c .unit
  | .busy => ((drawClaim s).2.record (.claim h .busy)).raise c .endpointBusy
  | .disconnected => ((drawClaim s).2.record (.claim h .disconnected)).raise c .endpointBusy

/-- `Transport.release(sess.handle)` where there is one, and `sess.handle <- none` (R87). -/
def releaseHandle (s : State) : State :=
  match s.session.handle with
  | some h => (s.record (.release h)).unbind
  | none => s

/-- `ACQUIRE_ONCE` (R86). -/
def acquireSession (c : CallerId) (h : Handle) (s : State) : State :=
  match s.session.state with
  | .unacquired => claimFor c h s
  | .ready => s.succeed c .unit
  | .degraded => s.succeed c .unit

/-- What R87 has follow the hold, in one step: the handle there is is released and the endpoint claimed anew for `h`. Where the
claim fails the release is all that is kept, and `sess.state` is not written (R87, R109): it stays `Degraded`, or, where another
waiter has made it `Ready` in the meantime, `Ready` (log 15). -/
def restoreSession (c : CallerId) (h : Handle) (s : State) : State := claimFor c h (releaseHandle s)

/-- `REESTABLISH` (R87). In `Degraded` a caller that holds the gate gets `ReentrantLock`, another waits for the gate to
be free and then restores the session; the holder is not looked at in the other two states (log 16). -/
def reestablishSession (c : CallerId) (h : Handle) (s : State) : State :=
  match s.session.state with
  | .unacquired => acquireSession c h s
  | .ready => s.succeed c .unit
  | .degraded =>
    if s.session.holder = some c then s.raise c .reentrantLock
    else if s.session.holder = none then restoreSession c h s
    else s.hold c (.atReestablish h)

/-! ### The exchange sequencer's ends (43_exchange.md) -/

/-- `reject(x)` (R94, R100). -/
def rejectExchange (c : CallerId) (e : Error) (s : State) : State :=
  s.mapCaller c fun k => k.settle .rejected (.err e)

/-- The phase becomes `Validated` and the caller takes the response (R94, R99). -/
def acceptExchange (c : CallerId) (r : DecodedResponse) (s : State) : State :=
  s.mapCaller c fun k => k.settle .validated (.ok r)

/-- What follows `VALIDATE` of the decoded response `q`: a violation, the echo check, or the typed response (R94, R99 to
R104). -/
def judgeResponse (c : CallerId) (v : Variant) (targetId address : Nat) (q : Packet) (s : State) : State :=
  match violationOf v q with
  | some x => rejectExchange c (.validationError x) s
  | none =>
    if targetOf q ≠ targetId ∨ addressOf v q ≠ address then rejectExchange c (.validationError .echoMismatch) s
    else acceptExchange c (decodedResponse v q) s

/-- The 16 bytes of a response: kept, decoded with the request's descriptor, then judged (R94, R98, R102). -/
def receiveResponse (c : CallerId) (v : Variant) (targetId address : Nat) (t : Buffer) (s : State) : State :=
  let s1 := s.mapCaller c fun k => { k with xs := { k.xs with respBytes := some t } }
  match decodePacket v t.toList with
  | .err e => rejectExchange c e s1
  | .ok q => judgeResponse c v targetId address q ((s1.setPacket c .resp q).mapCaller c fun k => k.enter .decoded)

/-! ### The transfer (R91) -/

/-- A transfer has ended with `r`. `TRANSFER` returns it and the gate stays held; `EXCHANGE` and `SEND_REQUEST` release
the gate, and `SEND_REQUEST` goes on with the bytes (R91, R92, R94). -/
def endTransfer (u : TransferUser) (c : CallerId) (r : Result Buffer) (s : State) : State :=
  match u with
  | .raw => s.mapCaller c fun k => k.finish (resultMap .bytes r)
  | .exchange => (s.setHolder none).mapCaller c fun k => k.finish (resultMap .bytes r)
  | .request v targetId address =>
    match r with
    | .err e => rejectExchange c e (s.setHolder none)
    | .ok t => receiveResponse c v targetId address t (s.setHolder none)

/-- The RX step with the transport's answer (R91, R84). -/
def receiveStep (u : TransferUser) (c : CallerId) (a : ReadAnswer) (s : State) : State :=
  match a with
  | .ok t => endTransfer u c (.ok t) (s.record (.read c a))
  | .short n => endTransfer u c (.err (.shortRead n.val)) (applyResidue (s.record (.read c a)))
  | .busy => endTransfer u c (.err .endpointBusy) (applyResidue (s.record (.read c a)))
  | .timeout => endTransfer u c (.err (.timeout .receive)) (applyResidue (s.record (.read c a)))
  | .disconnected => endTransfer u c (.err .degraded) (s.record (.read c a)).degrade

/-- The RX step, its answer drawn. -/
def receiveDrawn (u : TransferUser) (c : CallerId) (s : State) : State := receiveStep u c (drawRead s).1 (drawRead s).2

/-- The RX step begins: the caller is held until the transport answers; an answer that is ready ends it at once
(R9, R91; log 5). -/
def beginReceive (u : TransferUser) (c : CallerId) (s : State) : State :=
  match s.transport.reads with
  | [] => s.hold c (.atReceive u)
  | _ :: _ => receiveDrawn u c s

/-- `Built → Sent → AwaitingResponse`, for `SEND_REQUEST` only (R94, R97, R98). -/
def sentPhases (u : TransferUser) (c : CallerId) (s : State) : State :=
  match u with
  | .raw => s
  | .exchange => s
  | .request _ _ _ => s.mapCaller c fun k => (k.enter .sent).enter .awaitingResponse

/-- The TX step with the transport's answer (R91, R84). -/
def transmitStep (u : TransferUser) (c : CallerId) (b : Buffer) (a : WriteAnswer) (s : State) : State :=
  match a with
  | .ok => beginReceive u c (sentPhases u c (s.record (.write c b a)))
  | .busy => endTransfer u c (.err .endpointBusy) (s.record (.write c b a))
  | .short n => endTransfer u c (.err (.shortWrite n.val)) (applyResidue (s.record (.write c b a)))
  | .timeout => endTransfer u c (.err (.timeout .transmit)) (applyResidue (s.record (.write c b a)))
  | .disconnected => endTransfer u c (.err .degraded) (s.record (.write c b a)).degrade

/-- The TX step, its answer drawn. -/
def transmitDrawn (u : TransferUser) (c : CallerId) (b : Buffer) (s : State) : State :=
  transmitStep u c b (drawWrite s).1 (drawWrite s).2

/-- The TX step begins: the caller is held until the transport answers; an answer that is ready ends it at once
(R9, R91; log 5). -/
def beginTransmit (u : TransferUser) (c : CallerId) (b : Buffer) (s : State) : State :=
  match s.transport.writes with
  | [] => s.hold c (.atTransmit u b)
  | _ :: _ => transmitDrawn u c b s

/-- A transfer by the gate's holder: the session's state, the length, then the TX step (R91, D23, D45). -/
def startTransfer (u : TransferUser) (c : CallerId) (bytes : List Byte) (s : State) : State :=
  match s.session.state with
  | .unacquired => endTransfer u c (.err .endpointBusy) s
  | .degraded => endTransfer u c (.err .degraded) s
  | .ready =>
    if bytes.length ≠ Config.wireLength then
      endTransfer u c (.err (.lengthMismatch Config.wireLength bytes.length)) s
    else beginTransmit u c (bufferOf bytes) s

/-! ### The gate (R88, R89, R90) -/

/-- The gate has been granted to caller `c`: what its operation does next (R88, R92, R94). -/
def grantGate (u : GateUser) (c : CallerId) (s : State) : State :=
  match u with
  | .lock => (s.setHolder (some c)).succeed c .unit
  | .exchange bytes => startTransfer .exchange c bytes (s.setHolder (some c))
  | .request v targetId address b => startTransfer (.request v targetId address) c b.toList (s.setHolder (some c))

/-- `LOCK` has failed: `ReentrantLock`, with the gate as it was (R88, R92, R97). -/
def reentrantGate (u : GateUser) (c : CallerId) (s : State) : State :=
  match u with
  | .lock => s.raise c .reentrantLock
  | .exchange _ => s.raise c .reentrantLock
  | .request _ _ _ _ => rejectExchange c .reentrantLock s

/-- `LOCK(c)` (R88): an error for the holder, a grant where the gate is free, else a hold. -/
def takeGate (u : GateUser) (c : CallerId) (s : State) : State :=
  if s.session.holder = some c then reentrantGate u c s
  else if s.session.holder = none then grantGate u c s
  else s.hold c (.atLock u)

/-! ### Going on with a held operation -/

/-- A held caller is scheduled. At the gate, and at `REESTABLISH`, it goes on if the gate is free and waits if not (R88,
R90, R87); `REESTABLISH` goes on behind its hold, and does not read the session's state again (R87; log 15). In a blocking
step the caller goes on with the transport's answer (R91). -/
def resume (c : CallerId) (h : Held) (s : State) : State :=
  match h with
  | .atLock u => if s.session.holder = none then grantGate u c s else s
  | .atReestablish hd => if s.session.holder = none then restoreSession c hd s else s
  | .atTransmit u b => transmitDrawn u c b s
  | .atReceive u => receiveDrawn u c s

/-- A packet of the device arrives: it is the answer of a read (R34, R83). Where the gate's holder is in its RX step, that
step ends with the answer that is first; else the packet is the answer of a later read (log 9). -/
def deliverPacket (t : Buffer) (s : State) : State :=
  let s1 := { s with transport := { s.transport with reads := s.transport.reads ++ [ReadAnswer.ok t] } }
  match s1.session.holder with
  | none => s1
  | some c =>
    match (s1.caller c).held with
    | some (.atReceive u) => receiveDrawn u c s1
    | _ => s1

end Sys2Proof.Machine
end

