-- ==== Sys2Proof/Machine/Accessors.lean ====
section
/-!
DEFINITION. The accessors (41_codec.md section 2): loads from the packet buffer. Each needs a bound packet and writes no
packet.
-/

namespace Sys2Proof.Machine

/-- GET_TARGET (R67). -/
def execGetTarget (c : CallerId) (p : PacketReg) (s : State) : Step :=
  withBound s c p fun _ q => s.succeed c (.number (targetOf q))

/-- GET_ADDRESS (R68). -/
def execGetAddress (c : CallerId) (p : PacketReg) (s : State) : Step :=
  withBound s c p fun v q => s.succeed c (.number (addressOf v q))

/-- GET_DATA (R69). -/
def execGetData (c : CallerId) (p : PacketReg) (s : State) : Step :=
  withBound s c p fun v q => s.succeed c (.number (dataOf v q))

/-- IS_WRITE (R70). -/
def execIsWrite (c : CallerId) (p : PacketReg) (s : State) : Step :=
  withBound s c p fun _ q => s.succeed c (.bool (writeFlag (flagsOf q)))

/-- IS_SUCCESS (R71). -/
def execIsSuccess (c : CallerId) (p : PacketReg) (s : State) : Step :=
  withBound s c p fun _ q => s.succeed c (.bool (successFlag (flagsOf q)))

end Sys2Proof.Machine
end

