-- ==== Sys2Proof/Machine/Codec.lean ====
section
/-!
DEFINITION. Construction, encoding, decoding, validation and reuse (41_codec.md section 1).
-/

namespace Sys2Proof.Machine

/-- CONSTRUCT (R62): build a packet, in a register of any status, or report the first failing check (R112). -/
def execConstruct (c : CallerId) (p : PacketReg) (d targetId flags address data : Nat) (s : State) : Step :=
  withWritten p (withVariant d fun v => .next (s.commit c p (constructPacket v targetId flags address data)))

/-- ENCODE (R63): zero the padding and return the 16 bytes. -/
def execEncode (c : CallerId) (p : PacketReg) (s : State) : Step :=
  withWritten p
    (withBound s c p fun v q => (s.setPacket c p (encodedPacket v q)).succeed c (.bytes (encodedPacket v q).buf))

/-- DECODE (R64): a packet from bytes, in a register of any status, or the first failing check (R113). -/
def execDecode (c : CallerId) (p : PacketReg) (d : Nat) (bytes : List Byte) (s : State) : Step :=
  withWritten p (withVariant d fun v => .next (s.commit c p (decodePacket v bytes)))

/-- VALIDATE (R65): the first violation, or `Ok`; no packet is written. -/
def execValidate (c : CallerId) (p : PacketReg) (s : State) : Step :=
  withBound s c p fun v q =>
    match violationOf v q with
    | some x => s.raise c (.validationError x)
    | none => s.succeed c .unit

/-- REUSE (R66): the buffer is kept, unbound and `Stale`. -/
def execReuse (c : CallerId) (p : PacketReg) (s : State) : Step :=
  withWritten p (.next ((s.setPacket c p (reusedPacket (s.packet c p))).succeed c (.packet p)))

end Sys2Proof.Machine
end

