-- ==== Sys2Proof/Machine/Lookup.lean ====
section
/-!
DEFINITION. The descriptor unit (40_descriptor.md): a pure table, no state of its own.
-/

namespace Sys2Proof.Machine

/-- LOOKUP (R60): the descriptor of a magic byte, or `UnknownVariant`. -/
def execLookup (c : CallerId) (m : Nat) (s : State) : Step :=
  match variantOfMagic m with
  | some v => .next (s.succeed c (.descriptor v))
  | none => .next (s.raise c (.unknownVariant m))

/-- DESC_INFO (R61): a descriptor's name, widths, magic and wire length. -/
def execDescInfo (c : CallerId) (d : Nat) (s : State) : Step :=
  withVariant d fun v => .next (s.succeed c (.descInfo (descriptorInfo v)))

end Sys2Proof.Machine
end

