-- ==== Sys2Proof/Machine/Mutators.lean ====
section
/-!
DEFINITION. The mutators (41_codec.md section 3): stores to the packet buffer. Each needs a bound packet, checks the
value's width, then writes only the bytes or the bit of its field.
-/

namespace Sys2Proof.Machine

/-- SET_TARGET (R72). -/
def execSetTarget (c : CallerId) (p : PacketReg) (x : Nat) (s : State) : Step :=
  withWritten p (withBound s c p fun _ q => s.commit c p (targetSet q x))

/-- SET_ADDRESS (R73). -/
def execSetAddress (c : CallerId) (p : PacketReg) (x : Nat) (s : State) : Step :=
  withWritten p (withBound s c p fun v q => s.commit c p (addressSet v q x))

/-- SET_DATA (R74). -/
def execSetData (c : CallerId) (p : PacketReg) (x : Nat) (s : State) : Step :=
  withWritten p (withBound s c p fun v q => s.commit c p (dataSet v q x))

/-- SET_WRITE (R75). -/
def execSetWrite (c : CallerId) (p : PacketReg) (b : Nat) (s : State) : Step :=
  withWritten p (withBoolean b fun x =>
    withBound s c p fun _ q => s.commit c p (.ok (flagsSet q (withWriteFlag (flagsOf q) x))))

/-- SET_SUCCESS (R76). -/
def execSetSuccess (c : CallerId) (p : PacketReg) (b : Nat) (s : State) : Step :=
  withWritten p (withBoolean b fun x =>
    withBound s c p fun _ q => s.commit c p (.ok (flagsSet q (withSuccessFlag (flagsOf q) x))))

end Sys2Proof.Machine
end

