-- ==== Sys2Proof/Machine/Sequencer.lean ====
section
/-!
DEFINITION. The exchange sequencer's one command (43_exchange.md).
-/

namespace Sys2Proof.Machine

/-- The exchange has constructed: `req` is written, the phase is `Built`, and the encoded request goes to the gate (R94,
R96). -/
def sendBuilt (c : CallerId) (v : Variant) (targetId address : Nat) (q : Packet) (s : State) : State :=
  takeGate (.request v targetId address (encodedPacket v q).buf) c
    ((s.mapCaller c fun k => (k.setPacket .req q).enter .built).setPacket c .req (encodedPacket v q))

/-- SEND_REQUEST (R94): construct, encode, take the gate, transmit, receive, release, decode, validate, check the echo.
A construction error goes straight to `Rejected`, with nothing sent (R95). -/
def execSendRequest (c : CallerId) (d targetId flags address data : Nat) (s : State) : Step :=
  withVariant d fun v =>
    match constructPacket v targetId flags address data with
    | .err e => .next (rejectExchange c e (s.mapCaller c Caller.beginExchange))
    | .ok q => .next (sendBuilt c v targetId address q (s.mapCaller c Caller.beginExchange))

end Sys2Proof.Machine
end

