-- ==== Sys2Proof/Machine/Session.lean ====
section
/-!
DEFINITION. The endpoint session's operations (42_session.md).
-/

namespace Sys2Proof.Machine

/-- ACQUIRE_ONCE (R86): bind the endpoint once per device session. -/
def execAcquireOnce (c : CallerId) (h : Handle) (s : State) : Step := .next (acquireSession c h s)

/-- REESTABLISH (R87): restore a `Degraded` session. -/
def execReestablish (c : CallerId) (h : Handle) (s : State) : Step := .next (reestablishSession c h s)

/-- LOCK (R88): acquire exclusive access, or wait for it. -/
def execLock (c : CallerId) (s : State) : Step := .next (takeGate .lock c s)

/-- UNLOCK (R89): release exclusive access; no successor is picked (R90). -/
def execUnlock (c : CallerId) (s : State) : Step :=
  if s.session.holder = some c then .next ((s.setHolder none).succeed c .unit) else .fault .notHolder

/-- TRANSFER (R91): one transmit, then one receive, under the gate, which stays held after every outcome. -/
def execTransfer (c : CallerId) (bytes : List Byte) (s : State) : Step :=
  if s.session.holder = some c then .next (startTransfer .raw c bytes s) else .fault .notHolder

/-- EXCHANGE (R92): `LOCK`, `TRANSFER`, `UNLOCK`; on `ReentrantLock` no transfer and no unlock. -/
def execExchange (c : CallerId) (bytes : List Byte) (s : State) : Step := .next (takeGate (.exchange bytes) c s)

end Sys2Proof.Machine
end

