-- ==== Sys2Proof/Machine/Wire.lean ====
section
/-!
DEFINITION. The six wire variants as instructions: the packet arrives from the device (R32, R34, R83; log 9). Each
meaning lays its fields out as R47 and R39 give them and delivers the 16 bytes.
-/

namespace Sys2Proof.Machine

/-- PKT_8x8 (R47, R46, R39): a packet of variant 8×8 arrives. -/
def execPkt8x8 (flags targetId : Byte) (address : BitVec 8) (data : BitVec 8) (padding : BitVec 88) (s : State) : Step :=
  .next (deliverPacket (wireLayout .v8x8 flags targetId address.toNat data.toNat padding.toNat) s)

/-- PKT_8x16 (R47, R46, R39): a packet of variant 8×16 arrives. -/
def execPkt8x16 (flags targetId : Byte) (address : BitVec 8) (data : BitVec 16) (padding : BitVec 80) (s : State) : Step :=
  .next (deliverPacket (wireLayout .v8x16 flags targetId address.toNat data.toNat padding.toNat) s)

/-- PKT_8x32 (R47, R46, R39): a packet of variant 8×32 arrives. -/
def execPkt8x32 (flags targetId : Byte) (address : BitVec 8) (data : BitVec 32) (padding : BitVec 64) (s : State) : Step :=
  .next (deliverPacket (wireLayout .v8x32 flags targetId address.toNat data.toNat padding.toNat) s)

/-- PKT_8x64 (R47, R46, R39): a packet of variant 8×64 arrives. -/
def execPkt8x64 (flags targetId : Byte) (address : BitVec 8) (data : BitVec 64) (padding : BitVec 32) (s : State) : Step :=
  .next (deliverPacket (wireLayout .v8x64 flags targetId address.toNat data.toNat padding.toNat) s)

/-- PKT_16x64 (R47, R46, R39): a packet of variant 16×64 arrives. -/
def execPkt16x64 (flags targetId : Byte) (address : BitVec 16) (data : BitVec 64) (padding : BitVec 24) (s : State) :
    Step :=
  .next (deliverPacket (wireLayout .v16x64 flags targetId address.toNat data.toNat padding.toNat) s)

/-- PKT_32x32 (R47, R46, R39): a packet of variant 32×32 arrives. -/
def execPkt32x32 (flags targetId : Byte) (address : BitVec 32) (data : BitVec 32) (padding : BitVec 40) (s : State) :
    Step :=
  .next (deliverPacket (wireLayout .v32x32 flags targetId address.toNat data.toNat padding.toNat) s)

end Sys2Proof.Machine
end

