-- ==== Sys2Proof/Machine/Dispatch.lean ====
section
/-!
DEFINITION. One arm per instruction, each one call of its meaning.
-/

namespace Sys2Proof.Machine

def exec (i : Instr) (s : State) : Host.Outcome State Fault Refusal :=
  match i with
  | .pkt8x8 f t a d p => Sys2Proof.Machine.execPkt8x8 f t a d p s
  | .pkt8x16 f t a d p => Sys2Proof.Machine.execPkt8x16 f t a d p s
  | .pkt8x32 f t a d p => Sys2Proof.Machine.execPkt8x32 f t a d p s
  | .pkt8x64 f t a d p => Sys2Proof.Machine.execPkt8x64 f t a d p s
  | .pkt16x64 f t a d p => Sys2Proof.Machine.execPkt16x64 f t a d p s
  | .pkt32x32 f t a d p => Sys2Proof.Machine.execPkt32x32 f t a d p s
  | .lookup c m => Sys2Proof.Machine.execLookup c m s
  | .descInfo c d => Sys2Proof.Machine.execDescInfo c d s
  | .construct c p d t f a v => Sys2Proof.Machine.execConstruct c p d t f a v s
  | .encode c p => Sys2Proof.Machine.execEncode c p s
  | .decode c p d bytes => Sys2Proof.Machine.execDecode c p d bytes s
  | .validate c p => Sys2Proof.Machine.execValidate c p s
  | .reuse c p => Sys2Proof.Machine.execReuse c p s
  | .getTarget c p => Sys2Proof.Machine.execGetTarget c p s
  | .getAddress c p => Sys2Proof.Machine.execGetAddress c p s
  | .getData c p => Sys2Proof.Machine.execGetData c p s
  | .isWrite c p => Sys2Proof.Machine.execIsWrite c p s
  | .isSuccess c p => Sys2Proof.Machine.execIsSuccess c p s
  | .setTarget c p v => Sys2Proof.Machine.execSetTarget c p v s
  | .setAddress c p v => Sys2Proof.Machine.execSetAddress c p v s
  | .setData c p v => Sys2Proof.Machine.execSetData c p v s
  | .setWrite c p b => Sys2Proof.Machine.execSetWrite c p b s
  | .setSuccess c p b => Sys2Proof.Machine.execSetSuccess c p b s
  | .acquireOnce c h => Sys2Proof.Machine.execAcquireOnce c h s
  | .reestablish c h => Sys2Proof.Machine.execReestablish c h s
  | .lock c => Sys2Proof.Machine.execLock c s
  | .unlock c => Sys2Proof.Machine.execUnlock c s
  | .transfer c bytes => Sys2Proof.Machine.execTransfer c bytes s
  | .exchange c bytes => Sys2Proof.Machine.execExchange c bytes s
  | .sendRequest c d t f a v => Sys2Proof.Machine.execSendRequest c d t f a v s

end Sys2Proof.Machine
end

