-- ==== Sys2Proof/Machine/Fetch.lean ====
section
/-!
DEFINITION. What the next step does: which agent steps (R16, R90, R116; log 6), and what it has to do. The block fetches
no instructions (R43): a caller issues its next command (R54), and the transport delivers the next packet of the device.
-/

namespace Sys2Proof.Machine

/-- What the agent that steps has to do, and the state with it taken. -/
inductive Work where
  /-- Nothing: the block waits (R124). -/
  | idle (s : State)
  /-- A held caller is scheduled (R14, R27). -/
  | goOn (c : CallerId) (h : Held) (s : State)
  /-- A command or a packet. -/
  | frame (f : Frame) (s : State)
deriving DecidableEq, Repr

/-- The agent that steps next: the schedule's, or past its end a free one. -/
def nextAgent (s : State) : Agent × State :=
  match s.schedule with
  | a :: rest => (a, { s with schedule := rest })
  | [] =>
    (Config.freeAgent s.transport.drawn, { s with transport := { s.transport with drawn := s.transport.drawn + 1 } })

/-- The next command of caller `c` and the commands without it: a caller's commands in its program order (R40). -/
def takeIssued (c : CallerId) : List Command → Option (Command × List Command)
  | [] => none
  | cmd :: rest =>
    if cmd.caller = c then some (cmd, rest) else (takeIssued c rest).map fun r => (r.1, cmd :: r.2)

/-- What an agent has to do. A held caller goes on with its operation: it issues nothing before it has its result (R16,
R105). -/
def workOf (a : Agent) (s : State) : Work :=
  match a with
  | .caller c =>
    match (s.caller c).held with
    | some h => .goOn c h s
    | none =>
      match takeIssued c s.issued with
      | some (cmd, rest) => .frame (.command cmd) { s with issued := rest }
      | none => .idle s
  | .transport =>
    match s.transport.inbound with
    | [] => .idle s
    | b :: rest => .frame (.wire b.toList) { s with transport := { s.transport with inbound := rest } }

/-- What the next step has to do. -/
def fetch (s : State) : Work := workOf (nextAgent s).1 (nextAgent s).2

/-- A frame the decoder rejects: a command is illegal (R56, R111); 16 bytes whose byte 0 is unassigned arrive all the
same, as the answer of a read, which may be any 16 bytes (R83, U7). -/
def rejectFrame (f : Frame) (s : State) : Step :=
  match f with
  | .command _ => .fault .illegalCommand
  | .wire bytes => .next (deliverPacket (bufferOf bytes) s)

/-- The state in which the next step runs a frame: caller 0 free and scheduled with its command, or the transport
scheduled with its packet. A table command is caller 0's. -/
def placeFrame (f : Frame) (s : State) : State :=
  match f with
  | .command cmd =>
    let s1 :=
      { s with
        schedule := Agent.caller cmd.caller :: s.schedule
        issued := cmd :: s.issued }
    if (s1.caller cmd.caller).held = none then s1 else s1.mapCaller cmd.caller fun k => { k with held := none }
  | .wire bytes =>
    { s with
      schedule := Agent.transport :: s.schedule
      transport := { s.transport with inbound := bufferOf bytes :: s.transport.inbound } }

end Sys2Proof.Machine
end

