-- ==== Sys2Proof/Machine/Step.lean ====
section
/-!
DEFINITION. One step of the machine: one atomic step of one agent (R9, R116).
-/

namespace Sys2Proof.Machine

/-- A frame is decoded and run. -/
def runFrame (f : Frame) (s : State) : Host.Outcome State Fault Refusal :=
  match decode f with
  | .ok i => exec i s
  | .error _ => rejectFrame f s

/-- One step: the agent that is scheduled goes on with the operation in which it is held, or runs its next command or
packet, or has nothing to do. -/
def step (s : State) : Host.Outcome State Fault Refusal :=
  match fetch s with
  | .idle s' => .next s'
  | .goOn c h s' => .next (resume c h s')
  | .frame f s' => runFrame f s'

/-- The state whose next step runs the table's instruction `w` (log 7): placed as caller 0's command, or as the packet
that the transport delivers. -/
def State.withFetchWord (s : State) (nbits w : Nat) : State := placeFrame (tableFrame nbits w) s

end Sys2Proof.Machine
end

