-- ==== Sys2Proof/Safety.lean ====
section
/-!
DEFINITION. What claims about the block are said in: when a run is safe and when it is over, what an operation may change
(its frame), and the invariants of the machine.
-/

namespace Sys2Proof.Machine

/-! ### Runs -/

/-- No number of steps from `s` ends in a model fault (R111). -/
def NeverFaults (s : State) : Prop := ∀ k f, Host.Core.run core k s ≠ .fault f

/-- A run is over when every caller is `Idle` with no command left (R126). -/
def State.Finished (s : State) : Prop :=
  s.issued = [] ∧ ∀ c, (s.caller c).held = none ∧ (s.caller c).xs.phase = .idle

/-- The caller is one of the hardware's `N_CALLERS` (R10). -/
def CallerExists (c : CallerId) : Prop := c < Config.nCallers

/-! ### Frames -/

/-- The two states read alike everywhere: every caller, the session, the inputs and the wire. -/
def State.Alike (s t : State) : Prop :=
  t.session = s.session ∧ t.issued = s.issued ∧ t.schedule = s.schedule ∧ t.transport = s.transport ∧ t.wire = s.wire ∧
    ∀ c, t.caller c = s.caller c

/-- Nothing but caller `c`'s own registers differs: the session, the inputs, the wire and the other callers are as they
were (R24). -/
def State.OnlyCaller (s t : State) (c : CallerId) : Prop :=
  t.session = s.session ∧ t.issued = s.issued ∧ t.schedule = s.schedule ∧ t.transport = s.transport ∧ t.wire = s.wire ∧
    ∀ c', c' ≠ c → t.caller c' = s.caller c'

/-- An operation of caller `c` ends with result `x` and changes nothing else: no packet, no phase, no session state. -/
def State.AnswersOnly (s t : State) (c : CallerId) (x : Result Value) : Prop :=
  s.OnlyCaller t c ∧ t.caller c = { s.caller c with held := none, ret := some x }

/-- An operation of caller `c` ends with result `x`, having written `q` to its register `r`, and changes nothing else:
every other register of the caller, its phase, and everything outside it are as they were. -/
def State.WritesOnly (s t : State) (c : CallerId) (r : PacketReg) (q : Packet) (x : Result Value) : Prop :=
  s.OnlyCaller t c ∧ (t.caller c).held = none ∧ (t.caller c).ret = some x ∧
    (t.caller c).xs.phase = (s.caller c).xs.phase ∧ (t.caller c).xs.respBytes = (s.caller c).xs.respBytes ∧
    (t.caller c).xs.result = (s.caller c).xs.result ∧ (t.caller c).xs.path = (s.caller c).xs.path ∧
    t.packet c r = q ∧ ∀ r', r' ≠ r → t.packet c r' = s.packet c r'

/-- The command of an instruction is caller `c`'s (R54). A packet on the wire is no caller's. -/
def callerOf : Instr → Option CallerId
  | .pkt8x8 _ _ _ _ _ => none
  | .pkt8x16 _ _ _ _ _ => none
  | .pkt8x32 _ _ _ _ _ => none
  | .pkt8x64 _ _ _ _ _ => none
  | .pkt16x64 _ _ _ _ _ => none
  | .pkt32x32 _ _ _ _ _ => none
  | .lookup c _ => some c
  | .descInfo c _ => some c
  | .construct c _ _ _ _ _ _ => some c
  | .encode c _ => some c
  | .decode c _ _ _ => some c
  | .validate c _ => some c
  | .reuse c _ => some c
  | .getTarget c _ => some c
  | .getAddress c _ => some c
  | .getData c _ => some c
  | .isWrite c _ => some c
  | .isSuccess c _ => some c
  | .setTarget c _ _ => some c
  | .setAddress c _ _ => some c
  | .setData c _ _ => some c
  | .setWrite c _ _ => some c
  | .setSuccess c _ _ => some c
  | .acquireOnce c _ => some c
  | .reestablish c _ => some c
  | .lock c => some c
  | .unlock c => some c
  | .transfer c _ => some c
  | .exchange c _ => some c
  | .sendRequest c _ _ _ _ _ => some c

/-- The register that a codec command, accessor or mutator works on; none for the others. -/
def codecReg : Instr → Option PacketReg
  | .construct _ p _ _ _ _ _ => some p
  | .encode _ p => some p
  | .decode _ p _ _ => some p
  | .validate _ p => some p
  | .reuse _ p => some p
  | .getTarget _ p => some p
  | .getAddress _ p => some p
  | .getData _ p => some p
  | .isWrite _ p => some p
  | .isSuccess _ p => some p
  | .setTarget _ p _ => some p
  | .setAddress _ p _ => some p
  | .setData _ p _ => some p
  | .setWrite _ p _ => some p
  | .setSuccess _ p _ => some p
  | .pkt8x8 _ _ _ _ _ => none
  | .pkt8x16 _ _ _ _ _ => none
  | .pkt8x32 _ _ _ _ _ => none
  | .pkt8x64 _ _ _ _ _ => none
  | .pkt16x64 _ _ _ _ _ => none
  | .pkt32x32 _ _ _ _ _ => none
  | .lookup _ _ => none
  | .descInfo _ _ => none
  | .acquireOnce _ _ => none
  | .reestablish _ _ => none
  | .lock _ => none
  | .unlock _ => none
  | .transfer _ _ => none
  | .exchange _ _ => none
  | .sendRequest _ _ _ _ _ _ => none

/-- What the rules say of a `SEND_REQUEST` that nothing stops before its response is in: the operands are in range, the gate
is free, the session is `Ready`, and the transport sends the request and reads `t` (R94). -/
structure SendReady (s : State) (v : Variant) (targetId flags address data : Nat) (ws : List WriteAnswer)
    (t : Buffer) (rs : List ReadAnswer) : Prop where
  addressFits : address < 2 ^ addressWidth v
  dataFits : data < 2 ^ dataWidth v
  targetFits : targetId < 256
  flagsFit : flags < 4
  gateFree : s.session.holder = none
  ready : s.session.state = .ready
  writes : s.transport.writes = .ok :: ws
  reads : s.transport.reads = .ok t :: rs

/-- A response that passes `DECODE` with `v` and `VALIDATE` (R64, R65): the variant's magic, no reserved flag bit, no
nonzero padding. -/
def responseValid (v : Variant) (t : Buffer) : Prop :=
  byteAt t 0 = magicOf v ∧ (byteAt t 1).toNat < 4 ∧ ∀ i, paddingStart v ≤ i → i < 16 → byteAt t i = 0

/-- The 16 bytes of a `SEND_REQUEST`'s request: the fields it was given, as R47 lays them out, with zero padding (R62, R63,
R94). -/
def requestBytes (v : Variant) (targetId flags address data : Nat) : Buffer :=
  wireLayout v (BitVec.ofNat 8 flags) (BitVec.ofNat 8 targetId) address data 0

/-- The packet that `req` holds once the request is built (R94, R96). -/
def requestPacket (v : Variant) (targetId flags address data : Nat) : Packet :=
  { buf := requestBytes v targetId flags address data, desc := some v, status := .constructed }

/-- How a `SEND_REQUEST` of caller `c` stands when it is over and its response was received (R94): the gate is free again and
nothing else of the session has changed; the wire carried the request, then the response, and nothing else; `req` holds the
request; the received bytes are kept; the caller is `Idle` with result `x`, having gone through `path`; the other callers,
the other registers and the inputs, but for the two answers used, are as they were. -/
def SendReceived (s u : State) (c : CallerId) (v : Variant) (targetId flags address data : Nat) (ws : List WriteAnswer)
    (t : Buffer) (rs : List ReadAnswer) (path : List Phase) (x : Result DecodedResponse) : Prop :=
  u.session = s.session ∧ u.issued = s.issued ∧ u.schedule = s.schedule ∧
    u.transport = { s.transport with writes := ws, reads := rs } ∧
    u.wire = s.wire ++ [.write c (requestBytes v targetId flags address data) .ok, .read c (.ok t)] ∧
    (∀ c', c' ≠ c → u.caller c' = s.caller c') ∧
    (∀ n, u.packet c (.p n) = s.packet c (.p n)) ∧
    u.packet c .req = requestPacket v targetId flags address data ∧
    (u.caller c).xs.respBytes = some t ∧ (u.caller c).xs.phase = .idle ∧
    (u.caller c).xs.path = (s.caller c).xs.phase :: path ∧ (u.caller c).xs.result = some x ∧
    (u.caller c).held = none ∧ (u.caller c).ret = some (resultMap .response x)

/-- What a `SEND_REQUEST` that ends before its response is in leaves (R94, R95, R97): the caller is `Idle` with error `e`,
having gone through `path`; its numbered registers, `resp`, the kept response bytes and the other callers are as they
were. -/
def SendStopped (s u : State) (c : CallerId) (path : List Phase) (e : Error) : Prop :=
  u.issued = s.issued ∧ u.schedule = s.schedule ∧ (∀ c', c' ≠ c → u.caller c' = s.caller c') ∧
    (∀ n, u.packet c (.p n) = s.packet c (.p n)) ∧ u.packet c .resp = s.packet c .resp ∧
    (u.caller c).xs.respBytes = (s.caller c).xs.respBytes ∧ (u.caller c).xs.phase = .idle ∧
    (u.caller c).xs.path = (s.caller c).xs.phase :: path ∧ (u.caller c).xs.result = some (.err e) ∧
    (u.caller c).held = none ∧ (u.caller c).ret = some (.err e)

/-! ### How a transfer ends -/

/-- The error of an answer to a write; none for `Ok` (R91). -/
def writeErrorOf : WriteAnswer → Option Error
  | .ok => none
  | .busy => some .endpointBusy
  | .short n => some (.shortWrite n.val)
  | .timeout => some (.timeout .transmit)
  | .disconnected => some .degraded

/-- The error of an answer to a read; none for `Ok` (R91). -/
def readErrorOf : ReadAnswer → Option Error
  | .ok _ => none
  | .busy => some .endpointBusy
  | .short n => some (.shortRead n.val)
  | .timeout => some (.timeout .receive)
  | .disconnected => some .degraded

/-- The session's state after an answer to a write: the residue rule, with the draw `clean`, after `Short` and `Timeout`;
`Degraded` after a disconnect (R84, R91). -/
def stateAfterWrite (st : SessionState) (clean : Bool) : WriteAnswer → SessionState
  | .ok => st
  | .busy => st
  | .short _ => if clean then st else .degraded
  | .timeout => if clean then st else .degraded
  | .disconnected => .degraded

/-- The session's state after an answer to a read: the residue rule after `Short`, `Busy` and `Timeout`; `Degraded` after a
disconnect (R84, R91). -/
def stateAfterRead (st : SessionState) (clean : Bool) : ReadAnswer → SessionState
  | .ok _ => st
  | .busy => if clean then st else .degraded
  | .short _ => if clean then st else .degraded
  | .timeout => if clean then st else .degraded
  | .disconnected => .degraded

/-- The gate when a transfer has ended: `TRANSFER` keeps it, `EXCHANGE` and `SEND_REQUEST` have released it (R91, R92, R94). -/
def gateAfter (holder : Option CallerId) : TransferUser → Option CallerId
  | .raw => holder
  | .exchange => none
  | .request _ _ _ => none

/-- A caller whose transmit has gone out: `SEND_REQUEST` has gone through `Sent` to `AwaitingResponse` (R94, R97, R98). -/
def afterTransmit (k : Caller) : TransferUser → Caller
  | .raw => k
  | .exchange => k
  | .request _ _ _ =>
    { k with xs := { k.xs with phase := .awaitingResponse, path := k.xs.path ++ [.sent, .awaitingResponse] } }

/-- A caller whose transfer has failed: the error is its result, and `SEND_REQUEST` has gone through `Rejected` to `Idle` (R91,
R92, R94, R100). -/
def afterTransferError (k : Caller) (e : Error) : TransferUser → Caller
  | .raw => { k with held := none, ret := some (.err e) }
  | .exchange => { k with held := none, ret := some (.err e) }
  | .request _ _ _ =>
    { k with
      xs := { k.xs with phase := .idle, result := some (.err e), path := k.xs.path ++ [.rejected, .idle] }
      held := none
      ret := some (.err e) }

/-- What `SEND_REQUEST` with descriptor `v`, target id `targetId` and address `address` makes of the received bytes `b`: the
phases it goes through and its result (R94, R98 to R104, R115 stages 6 to 8). -/
def ResponseJudged (v : Variant) (targetId address : Nat) (b : Buffer) (path : List Phase) (x : Result DecodedResponse) :
    Prop :=
  ((∀ w, byteAt b 0 ≠ magicOf w) → path = [.rejected, .idle] ∧ x = .err (.unknownVariant (byteAt b 0).toNat)) ∧
  (∀ w, w ≠ v → byteAt b 0 = magicOf w →
    path = [.rejected, .idle] ∧ x = .err (.magicMismatch (magicOf v) (magicOf w))) ∧
  (byteAt b 0 = magicOf v → 4 ≤ (byteAt b 1).toNat →
    path = [.decoded, .rejected, .idle] ∧ x = .err (.validationError .reservedFlagBits)) ∧
  (byteAt b 0 = magicOf v → (byteAt b 1).toNat < 4 →
    ∀ i, paddingStart v ≤ i → i < 16 → byteAt b i ≠ 0 → (∀ j, paddingStart v ≤ j → j < i → byteAt b j = 0) →
      path = [.decoded, .rejected, .idle] ∧ x = .err (.validationError (.reservedPadding i))) ∧
  (responseValid v b → ((byteAt b 2).toNat ≠ targetId ∨ leValue b 3 (addressBytes v) ≠ address) →
    path = [.decoded, .rejected, .idle] ∧ x = .err (.validationError .echoMismatch)) ∧
  (responseValid v b → (byteAt b 2).toNat = targetId → leValue b 3 (addressBytes v) = address →
    path = [.decoded, .validated, .idle] ∧
      x = .ok
        { targetId := targetId
          address := address
          data := leValue b (3 + addressBytes v) (dataBytes v)
          isWrite := (byteAt b 1).getLsbD 0
          isSuccess := (byteAt b 1).getLsbD 1
          flags := byteAt b 1 })

/-- A caller `k` whose transfer has received `b` is `k'`: the bytes are the result of `TRANSFER` and `EXCHANGE`; `SEND_REQUEST`
has kept them, decoded them into `resp` where they begin with its request's magic, and is over with what it made of them (R91,
R92, R94). -/
def AfterReceive (k k' : Caller) (b : Buffer) : TransferUser → Prop
  | .raw => k' = { k with held := none, ret := some (.ok (.bytes b)) }
  | .exchange => k' = { k with held := none, ret := some (.ok (.bytes b)) }
  | .request v targetId address =>
    ∃ path x, ResponseJudged v targetId address b path x ∧
      k' =
        { k with
          xs :=
            { k.xs with
              phase := .idle
              resp := if byteAt b 0 = magicOf v then { buf := b, desc := some v, status := .decoded } else k.xs.resp
              respBytes := some b
              result := some x
              path := k.xs.path ++ path }
          held := none
          ret := some (resultMap .response x) }

/-- A transfer of caller `c`, which stood as `k` when its RX step began, has ended with the read's answer `a` and, where the
residue rule draws, `clean`: the session and the caller are as R91, R92 and R94 leave them, the other callers as they were. -/
def ReceiveEnded (s t : State) (c : CallerId) (k : Caller) (a : ReadAnswer) (clean : Bool) (u : TransferUser) : Prop :=
  t.session =
      { s.session with state := stateAfterRead s.session.state clean a, holder := gateAfter s.session.holder u } ∧
    (∀ e, readErrorOf a = some e → t.caller c = afterTransferError k e u) ∧
    (∀ b, a = .ok b → AfterReceive k (t.caller c) b u) ∧ ∀ c', c' ≠ c → t.caller c' = s.caller c'

/-- The TX step in which caller `c` transmits `b` has ended with the write's answer `a` and, where the residue rule draws,
`clean` (R91, R92, R94): with `a`'s error; or, where `a` is `Ok`, in the RX step, which an answer of a read that is ready has
ended at once. -/
def TransmitEnded (s t : State) (c : CallerId) (b : Buffer) (a : WriteAnswer) (clean : Bool) (u : TransferUser) : Prop :=
  (∀ e, writeErrorOf a = some e →
    t.wire = s.wire ++ [.write c b a] ∧ (∀ c', c' ≠ c → t.caller c' = s.caller c') ∧
    t.session =
      { s.session with state := stateAfterWrite s.session.state clean a, holder := gateAfter s.session.holder u } ∧
    t.caller c = afterTransferError (s.caller c) e u) ∧
  (a = .ok → s.transport.reads = [] →
    t.wire = s.wire ++ [.write c b .ok] ∧ t.session = s.session ∧ (∀ c', c' ≠ c → t.caller c' = s.caller c') ∧
    t.caller c = { afterTransmit (s.caller c) u with held := some (.atReceive u), ret := none }) ∧
  (a = .ok → ∀ r rest, s.transport.reads = r :: rest →
    t.wire = s.wire ++ [.write c b .ok, .read c r] ∧ ReceiveEnded s t c (afterTransmit (s.caller c) u) r clean u)

/-- Caller `c` has restored the session for handle `h` (R87): the handle there was has been released, and one claim, with the
answer that was ready or else a free one, has bound `h` and made the session `Ready`, or has failed with `EndpointBusy` and left
the session's state as it was, with no handle (R109; log 15). `Transport.release` is taken to complete (log 22). -/
def SessionRestored (s t : State) (c : CallerId) (h : Handle) : Prop :=
  ∃ a,
    (∀ x rest, s.transport.claims = x :: rest → a = x ∧ t.transport = { s.transport with claims := rest }) ∧
    (s.transport.claims = [] → t.transport = { s.transport with drawn := s.transport.drawn + 1 }) ∧
    t.wire = s.wire ++ (s.session.handle.map WireEvent.release).toList ++ [.claim h a] ∧
    t.issued = s.issued ∧ (∀ c', c' ≠ c → t.caller c' = s.caller c') ∧
    (a = .ok →
      t.session = { s.session with state := .ready, handle := some h, claims := s.session.claims + 1 } ∧
        t.caller c = { s.caller c with held := none, ret := some (.ok .unit) }) ∧
    (a ≠ .ok → t.session = { s.session with handle := none } ∧
      t.caller c = { s.caller c with held := none, ret := some (.err .endpointBusy) })

/-- Sixteen bytes are the packet of variant `v` with these fields (R47, R39): magic, flags, target id, then address, data and
padding, each little-endian. -/
def LaidOut (v : Variant) (flags targetId : Byte) (address data padding : Nat) (b : Buffer) : Prop :=
  ∀ i, i < 16 → byteAt b i =
    if i = 0 then (descriptorOf v).magic
    else if i = 1 then flags
    else if i = 2 then targetId
    else if i < 3 + addressBytes v then BitVec.ofNat 8 (address / 256 ^ (i - 3))
    else if i < 3 + addressBytes v + dataBytes v then BitVec.ofNat 8 (data / 256 ^ (i - (3 + addressBytes v)))
    else BitVec.ofNat 8 (padding / 256 ^ (i - (3 + addressBytes v + dataBytes v)))

/-! ### Invariants -/

/-- A packet register is bound exactly when it is `Constructed` or `Decoded` (R21), and byte 0 of a bound packet is its
descriptor's magic (R65: `BadMagic` cannot occur). -/
def packetWf (q : Packet) : Bool :=
  match q.status, q.desc with
  | .empty, none => true
  | .stale, none => true
  | .constructed, some v => byteAt q.buf 0 == magicOf v
  | .decoded, some v => byteAt q.buf 0 == magicOf v
  | _, _ => false

/-- Every packet register of every caller is so. -/
def State.PacketsWf (s : State) : Prop := ∀ c r, packetWf (s.packet c r) = true

/-- The session's registers agree (R26, R28, R86, R87): no binding and no claim before the first; at least one claim after the
first. That a `Ready` session has a handle is no part of it: a second waiter's failed claim can leave one without (R109; log 15),
and `StepKeepsSessionRegisters` says that nothing else does. -/
def State.SessionWf (s : State) : Prop :=
  match s.session.state with
  | .unacquired => s.session.handle = none ∧ s.session.claims = 0
  | .ready => 1 ≤ s.session.claims
  | .degraded => 1 ≤ s.session.claims

/-- A caller in a blocking step of a transfer holds the gate of a `Ready` session; a caller that waits for the gate does
not hold it, and one that waits to restore the session waits for one that has been bound (R87, R88, R91). -/
def State.GateWf (s : State) : Prop :=
  ∀ c h, (s.caller c).held = some h →
    match h with
    | .atLock _ => s.session.holder ≠ some c
    | .atReestablish _ => s.session.holder ≠ some c ∧ s.session.state ≠ .unacquired
    | .atTransmit _ _ => s.session.holder = some c ∧ s.session.state = .ready
    | .atReceive _ => s.session.holder = some c ∧ s.session.state = .ready

/-- The transfer that is open after an event: transmitted, and not yet received. -/
def openAfter (o : Option CallerId) : WireEvent → Option CallerId
  | .claim _ _ => o
  | .release _ => o
  | .write c _ .ok => some c
  | .write _ _ _ => none
  | .read _ _ => none

/-- An event keeps the order of R37 and R41: a transmit and a binding only while no transfer is open, a receive only by the
caller whose transfer is open. -/
def inOrder (o : Option CallerId) : WireEvent → Bool
  | .claim _ _ => o.isNone
  | .release _ => o.isNone
  | .write _ _ _ => o.isNone
  | .read c _ => o == some c

/-- The transfer that is open at the end of a wire stream. -/
def openTransfer (w : List WireEvent) : Option CallerId := w.foldl openAfter none

/-- Every event of a wire stream, begun with transfer `o` open, keeps the order. -/
def wireOrderedFrom (o : Option CallerId) : List WireEvent → Bool
  | [] => true
  | e :: rest => inOrder o e && wireOrderedFrom (openAfter o e) rest

/-- The wire stream never interleaves two transfers, and the open transfer is that of the caller in its RX step (R37, R40,
R41). -/
def State.WireWf (s : State) : Prop :=
  wireOrderedFrom none s.wire = true ∧
    ∀ c, openTransfer s.wire = some c ↔ ∃ u, (s.caller c).held = some (.atReceive u)

/-- The phase that a held operation leaves an exchange in (R30, R96, R98). -/
def phaseOf : Option Held → Phase
  | some (.atLock (.request _ _ _ _)) => .built
  | some (.atTransmit (.request _ _ _) _) => .built
  | some (.atReceive (.request _ _ _)) => .awaitingResponse
  | _ => .idle

/-- The exchange that a held operation carries on was built from the packet in `req`: its descriptor, its target id and its
address, and, where it still has the bytes to send, its bytes (R94). -/
def requestWf (k : Caller) : Prop :=
  match k.held with
  | some (.atLock (.request v t a b)) =>
    boundTo k.xs.req = some v ∧ targetOf k.xs.req = t ∧ addressOf v k.xs.req = a ∧ b = k.xs.req.buf
  | some (.atTransmit (.request v t a) b) =>
    boundTo k.xs.req = some v ∧ targetOf k.xs.req = t ∧ addressOf v k.xs.req = a ∧ b = k.xs.req.buf
  | some (.atReceive (.request v t a)) =>
    boundTo k.xs.req = some v ∧ targetOf k.xs.req = t ∧ addressOf v k.xs.req = a
  | _ => True

/-- Every caller's phase is that of its operation, and what it carries on is its request (R30, R105). -/
def State.ExchangesWf (s : State) : Prop :=
  ∀ c, (s.caller c).xs.phase = phaseOf (s.caller c).held ∧ requestWf (s.caller c)

/-- No caller from `n` on has ever done anything or is about to: the machine is one of `n` callers (R10, R16). -/
def State.CallersBelow (s : State) (n : Nat) : Prop :=
  (∀ c, n ≤ c → s.caller c = .fresh) ∧ (∀ cmd ∈ s.issued, cmd.caller < n) ∧ ∀ c, s.session.holder = some c → c < n

/-- Two packets that differ at most in bytes that nothing may read: those of an unbound packet (R21, R31). -/
def packetsAgree (q q' : Packet) : Prop :=
  q.status = q'.status ∧ q.desc = q'.desc ∧ (boundTo q ≠ none → q.buf = q'.buf)

/-- Two states that differ at most in the bytes of unbound packets. -/
def State.AgreesButStale (s t : State) : Prop :=
  t.session = s.session ∧ t.issued = s.issued ∧ t.schedule = s.schedule ∧ t.transport = s.transport ∧ t.wire = s.wire ∧
    ∀ c, (t.caller c).held = (s.caller c).held ∧ (t.caller c).ret = (s.caller c).ret ∧
      (t.caller c).xs.phase = (s.caller c).xs.phase ∧ (t.caller c).xs.respBytes = (s.caller c).xs.respBytes ∧
      (t.caller c).xs.result = (s.caller c).xs.result ∧ (t.caller c).xs.path = (s.caller c).xs.path ∧
      ∀ r, packetsAgree (s.packet c r) (t.packet c r)

/-- Two answers of the machine that differ at most so. -/
def StepsAgree : Step → Step → Prop
  | .next s, .next t => s.AgreesButStale t
  | .fault f, .fault g => f = g
  | .refused r, .refused q => r = q
  | _, _ => False

/-- The transmits and receives among the events of a wire stream, in their order. -/
def transfersIn (w : List WireEvent) : List WireEvent :=
  w.filter fun e => match e with
    | .claim _ _ => false
    | .release _ => false
    | .write _ _ _ => true
    | .read _ _ => true

/-- In a step from `s` to `t` an operation of caller `c` can transmit that has transmitted nothing before: one held at the gate
or in its TX step, or one whose command, the caller's next, the step takes (R91, R93). -/
def MayTransmit (s t : State) (c : CallerId) : Prop :=
  (∃ u, (s.caller c).held = some (.atLock u)) ∨ (∃ u b, (s.caller c).held = some (.atTransmit u b)) ∨
    ((s.caller c).held = none ∧ ∃ cmd left, takeIssued c s.issued = some (cmd, left) ∧ t.issued = left)

end Sys2Proof.Machine
end

