-- ==== Sys2Proof/Certificates/Slice0/Obligations.lean ====
section
/-!
DEFINITION. The statements for the provers. Each docstring says which rule or section of spec/ it formalises.
-/

open Sys2Proof Sys2Proof.Machine

/-! ### Reset and the descriptor table -/

/-- After reset the session is `Unacquired` with no holder, no handle and no claim; every caller's phase is `Idle`, with no
response kept and no result; every packet register is `Empty` and bound to nothing (10_state.md section 6,
70_reset_and_hazards.md section 1). Of a buffer's bytes at reset it says nothing. -/
def Obligations.ResetLeavesNothingStarted : Prop :=
  State.reset.session = { state := .unacquired, holder := none, handle := none, claims := 0 } ∧
  ∀ c, (State.reset.caller c).xs.phase = .idle ∧ (State.reset.caller c).xs.respBytes = none ∧
    (State.reset.caller c).xs.result = none ∧
    ∀ r, (State.reset.packet c r).desc = none ∧ (State.reset.packet c r).status = .empty

/-- The table is a bijection between the pairs of widths and the magic bytes (R18). -/
def Obligations.DescriptorTableIsBijective : Prop :=
  ∀ v w : Variant,
    (addressWidth v = addressWidth w ∧ dataWidth v = dataWidth w ↔ v = w) ∧ (magicOf v = magicOf w ↔ v = w)

/-- The six rows of the table with their byte counts, in the order of their index (30_encoding.md section 1, 10_state.md
section 2). -/
def Obligations.VariantTableHasSixRows : Prop :=
  VARIANTS.map (fun d => (d.addressBits, d.dataBits, d.magic)) =
    [(8, 8, 0x41), (8, 16, 0x42), (8, 32, 0x43), (8, 64, 0x44), (16, 64, 0x45), (32, 32, 0x4B)] ∧
  allVariants.map (fun v => (addressBytes v, dataBytes v, indexOf v)) =
    [(1, 1, 0), (1, 2, 1), (1, 4, 2), (1, 8, 3), (2, 8, 4), (4, 4, 5)] ∧
  (∀ v, variantAt (indexOf v) = some v) ∧ ∀ d, 6 ≤ d → variantAt d = none

/-- LOOKUP, command 0x01 (R60): the variant whose magic byte is `m`, else `UnknownVariant(m)`; nothing but the caller's
result changes. -/
def Obligations.LookupResolvesMagic : Prop :=
  ∀ (c : CallerId) (m : Nat) (s : State),
    decode (.command ⟨0x01, c, [.num m]⟩) = .ok (.lookup c m) ∧
    (∀ v, (magicOf v).toNat = m →
      ∃ t, exec (.lookup c m) s = .next t ∧ s.AnswersOnly t c (.ok (.descriptor v))) ∧
    ((∀ v, (magicOf v).toNat ≠ m) →
      ∃ t, exec (.lookup c m) s = .next t ∧ s.AnswersOnly t c (.err (.unknownVariant m)))

/-- DESC_INFO, command 0x02 (R61): the name, the widths, the magic byte and the wire length 16 of the descriptor with the
index; an index outside 0 to 5 is the fault `IllegalCommand`. -/
def Obligations.DescInfoReportsWidths : Prop :=
  ∀ (c : CallerId) (s : State),
    (∀ v, decode (.command ⟨0x02, c, [.num (indexOf v)]⟩) = .ok (.descInfo c (indexOf v)) ∧
      ∃ t, exec (.descInfo c (indexOf v)) s = .next t ∧
        s.AnswersOnly t c (.ok (.descInfo
          { name := (descriptorOf v).name
            addressBitWidth := (descriptorOf v).addressBits
            dataBitWidth := (descriptorOf v).dataBits
            magicByte := (descriptorOf v).magic
            wireLength := 16 }))) ∧
    ∀ d, 6 ≤ d → exec (.descInfo c d) s = .fault .illegalCommand

/-! ### The codec -/

/-- CONSTRUCT, command 0x10 (R62), on any register `p<n>` in any status. In range: the packet is `Constructed` and bound, its
16 bytes are magic, flags, target id, little-endian address and data, and zeros, and nothing else changes. Out of range: the
first failing check in the order of R112 is reported and nothing but the result changes. -/
def Obligations.ConstructBuildsPacketOrReports : Prop :=
  ∀ (c : CallerId) (n : Nat) (v : Variant) (t f a d : Nat) (s : State),
    decode (.command ⟨0x10, c, [.packet (.p n), .num (indexOf v), .num t, .num f, .num a, .num d]⟩) =
        .ok (.construct c (.p n) (indexOf v) t f a d) ∧
    (a < 2 ^ addressWidth v → d < 2 ^ dataWidth v → t < 256 → f < 4 →
      ∃ u q, exec (.construct c (.p n) (indexOf v) t f a d) s = .next u ∧
        s.WritesOnly u c (.p n) q (.ok (.packet (.p n))) ∧ q.desc = some v ∧ q.status = .constructed ∧
        ∀ i, i < 16 → (byteAt q.buf i).toNat =
          if i = 0 then (magicOf v).toNat
          else if i = 1 then f
          else if i = 2 then t
          else if i < 3 + addressBytes v then a / 256 ^ (i - 3) % 256
          else if i < 3 + addressBytes v + dataBytes v then d / 256 ^ (i - (3 + addressBytes v)) % 256
          else 0) ∧
    ∀ e, (if 2 ^ addressWidth v ≤ a then some (Error.fieldOverflow .address a (addressWidth v))
        else if 2 ^ dataWidth v ≤ d then some (Error.fieldOverflow .data d (dataWidth v))
        else if 256 ≤ t then some (Error.fieldOverflow .targetId t 8)
        else if 256 ≤ f then some (Error.fieldOverflow .flags f 8)
        else if 4 ≤ f then some (Error.validationError .reservedFlagBits)
        else none) = some e →
      ∃ u, exec (.construct c (.p n) (indexOf v) t f a d) s = .next u ∧ s.AnswersOnly u c (.err e)

/-- ENCODE, command 0x11 (R63): the padding of a bound packet becomes zero, the other bytes stay, and the result is the 16
bytes; an unbound packet is the fault `UseBeforeConstruct`. -/
def Obligations.EncodeZeroesPaddingAndReturnsBytes : Prop :=
  ∀ (c : CallerId) (n : Nat) (s : State),
    decode (.command ⟨0x11, c, [.packet (.p n)]⟩) = .ok (.encode c (.p n)) ∧
    (∀ v, boundTo (s.packet c (.p n)) = some v →
      ∃ u q, exec (.encode c (.p n)) s = .next u ∧ s.WritesOnly u c (.p n) q (.ok (.bytes q.buf)) ∧
        q.desc = (s.packet c (.p n)).desc ∧ q.status = (s.packet c (.p n)).status ∧
        ∀ i, i < 16 → byteAt q.buf i = if 3 + addressBytes v + dataBytes v ≤ i then 0 else s.byte c (.p n) i) ∧
    (boundTo (s.packet c (.p n)) = none → exec (.encode c (.p n)) s = .fault .useBeforeConstruct)

/-- DECODE, command 0x12 (R64), on any register `p<n>` in any status: length, unassigned magic, another variant's magic, in
that order (R113); else the packet holds the bytes, reserved bits and padding included, `Decoded` and bound. An error changes
nothing but the result. -/
def Obligations.DecodeReadsPacketOrReports : Prop :=
  ∀ (c : CallerId) (n : Nat) (v : Variant) (bytes : List Byte) (s : State),
    decode (.command ⟨0x12, c, [.packet (.p n), .num (indexOf v), .bytes bytes]⟩) =
      .ok (.decode c (.p n) (indexOf v) bytes) ∧
    (bytes.length ≠ 16 →
      ∃ u, exec (.decode c (.p n) (indexOf v) bytes) s = .next u ∧
        s.AnswersOnly u c (.err (.lengthMismatch 16 bytes.length))) ∧
    (bytes.length = 16 → (∀ w, bytes.getD 0 0 ≠ magicOf w) →
      ∃ u, exec (.decode c (.p n) (indexOf v) bytes) s = .next u ∧
        s.AnswersOnly u c (.err (.unknownVariant (bytes.getD 0 0).toNat))) ∧
    (bytes.length = 16 → ∀ w, bytes.getD 0 0 = magicOf w → w ≠ v →
      ∃ u, exec (.decode c (.p n) (indexOf v) bytes) s = .next u ∧
        s.AnswersOnly u c (.err (.magicMismatch (magicOf v) (magicOf w)))) ∧
    (bytes.length = 16 → bytes.getD 0 0 = magicOf v →
      ∃ u q, exec (.decode c (.p n) (indexOf v) bytes) s = .next u ∧
        s.WritesOnly u c (.p n) q (.ok (.packet (.p n))) ∧ q.desc = some v ∧ q.status = .decoded ∧
        q.buf.toList = bytes)

/-- VALIDATE, command 0x13 (R65): the first violation in the order of R114 (magic, flags bits 7:2, padding at its lowest
nonzero offset), else `Ok`; bits 0 and 1 of the flags are not checked and the field range cannot fail; nothing but the
result changes. An unbound packet is the fault `UseBeforeConstruct`. -/
def Obligations.ValidateReportsFirstViolation : Prop :=
  ∀ (c : CallerId) (r : PacketReg) (s : State),
    decode (.command ⟨0x13, c, [.packet r]⟩) = .ok (.validate c r) ∧
    (boundTo (s.packet c r) = none → exec (.validate c r) s = .fault .useBeforeConstruct) ∧
    ∀ v, boundTo (s.packet c r) = some v →
      (s.byte c r 0 ≠ magicOf v →
        ∃ u, exec (.validate c r) s = .next u ∧ s.AnswersOnly u c (.err (.validationError .badMagic))) ∧
      (s.byte c r 0 = magicOf v → 4 ≤ (s.byte c r 1).toNat →
        ∃ u, exec (.validate c r) s = .next u ∧ s.AnswersOnly u c (.err (.validationError .reservedFlagBits))) ∧
      (s.byte c r 0 = magicOf v → (s.byte c r 1).toNat < 4 →
        ∀ i, 3 + addressBytes v + dataBytes v ≤ i → i < 16 → s.byte c r i ≠ 0 →
          (∀ j, 3 + addressBytes v + dataBytes v ≤ j → j < i → s.byte c r j = 0) →
          ∃ u, exec (.validate c r) s = .next u ∧ s.AnswersOnly u c (.err (.validationError (.reservedPadding i)))) ∧
      (s.byte c r 0 = magicOf v → (s.byte c r 1).toNat < 4 →
        (∀ i, 3 + addressBytes v + dataBytes v ≤ i → i < 16 → s.byte c r i = 0) →
          ∃ u, exec (.validate c r) s = .next u ∧ s.AnswersOnly u c (.ok .unit))

/-- REUSE, command 0x14 (R66), on any register `p<n>` in any status: unbound and `Stale`, the bytes kept. Any field access in
the state it leaves, ENCODE and VALIDATE too, is the fault `UseBeforeConstruct`. -/
def Obligations.ReuseKeepsBytesAndUnbinds : Prop :=
  ∀ (c : CallerId) (n : Nat) (s : State),
    decode (.command ⟨0x14, c, [.packet (.p n)]⟩) = .ok (.reuse c (.p n)) ∧
    ∃ u q, exec (.reuse c (.p n)) s = .next u ∧ s.WritesOnly u c (.p n) q (.ok (.packet (.p n))) ∧
      q.desc = none ∧ q.status = .stale ∧ q.buf = (s.packet c (.p n)).buf ∧
      exec (.encode c (.p n)) u = .fault .useBeforeConstruct ∧ exec (.validate c (.p n)) u = .fault .useBeforeConstruct ∧
      exec (.getTarget c (.p n)) u = .fault .useBeforeConstruct ∧
      exec (.getAddress c (.p n)) u = .fault .useBeforeConstruct ∧
      exec (.getData c (.p n)) u = .fault .useBeforeConstruct ∧ exec (.isWrite c (.p n)) u = .fault .useBeforeConstruct ∧
      exec (.isSuccess c (.p n)) u = .fault .useBeforeConstruct ∧
      ∀ x, exec (.setTarget c (.p n) x) u = .fault .useBeforeConstruct ∧
        exec (.setAddress c (.p n) x) u = .fault .useBeforeConstruct ∧
        exec (.setData c (.p n) x) u = .fault .useBeforeConstruct ∧
        (x < 2 → exec (.setWrite c (.p n) x) u = .fault .useBeforeConstruct ∧
          exec (.setSuccess c (.p n) x) u = .fault .useBeforeConstruct)

/-- GET_TARGET, GET_ADDRESS, GET_DATA, IS_WRITE, IS_SUCCESS, commands 0x20 to 0x24 (R67 to R71): the field of a bound packet,
multi-byte fields little-endian, the flags' bits 0 and 1; nothing but the result changes; an unbound packet is the fault
`UseBeforeConstruct`. -/
def Obligations.AccessorsReadFields : Prop :=
  ∀ (c : CallerId) (r : PacketReg) (s : State),
    (decode (.command ⟨0x20, c, [.packet r]⟩) = .ok (.getTarget c r) ∧
      decode (.command ⟨0x21, c, [.packet r]⟩) = .ok (.getAddress c r) ∧
      decode (.command ⟨0x22, c, [.packet r]⟩) = .ok (.getData c r) ∧
      decode (.command ⟨0x23, c, [.packet r]⟩) = .ok (.isWrite c r) ∧
      decode (.command ⟨0x24, c, [.packet r]⟩) = .ok (.isSuccess c r)) ∧
    (∀ v, boundTo (s.packet c r) = some v →
      (∃ u, exec (.getTarget c r) s = .next u ∧ s.AnswersOnly u c (.ok (.number (s.byte c r 2).toNat))) ∧
      (∃ u, exec (.getAddress c r) s = .next u ∧
        s.AnswersOnly u c (.ok (.number
          (∑ k ∈ Finset.range (addressBytes v), (s.byte c r (3 + k)).toNat * 256 ^ k)))) ∧
      (∃ u, exec (.getData c r) s = .next u ∧
        s.AnswersOnly u c (.ok (.number
          (∑ k ∈ Finset.range (dataBytes v), (s.byte c r (3 + addressBytes v + k)).toNat * 256 ^ k)))) ∧
      (∃ u, exec (.isWrite c r) s = .next u ∧
        s.AnswersOnly u c (.ok (.bool (decide ((s.byte c r 1).toNat % 2 = 1))))) ∧
      (∃ u, exec (.isSuccess c r) s = .next u ∧
        s.AnswersOnly u c (.ok (.bool (decide ((s.byte c r 1).toNat / 2 % 2 = 1)))))) ∧
    (boundTo (s.packet c r) = none →
      exec (.getTarget c r) s = .fault .useBeforeConstruct ∧ exec (.getAddress c r) s = .fault .useBeforeConstruct ∧
      exec (.getData c r) s = .fault .useBeforeConstruct ∧ exec (.isWrite c r) s = .fault .useBeforeConstruct ∧
      exec (.isSuccess c r) s = .fault .useBeforeConstruct)

/-- SET_TARGET, command 0x30 (R72): byte 2 of a bound packet becomes a value below 256 and no other byte changes; 256 and
above is `FieldOverflow`, with nothing written; an unbound packet is the fault `UseBeforeConstruct`. -/
def Obligations.SetTargetWritesByteTwo : Prop :=
  ∀ (c : CallerId) (n x : Nat) (s : State),
    decode (.command ⟨0x30, c, [.packet (.p n), .num x]⟩) = .ok (.setTarget c (.p n) x) ∧
    (boundTo (s.packet c (.p n)) = none → exec (.setTarget c (.p n) x) s = .fault .useBeforeConstruct) ∧
    ∀ v, boundTo (s.packet c (.p n)) = some v →
      (256 ≤ x → ∃ u, exec (.setTarget c (.p n) x) s = .next u ∧
        s.AnswersOnly u c (.err (.fieldOverflow .targetId x 8))) ∧
      (x < 256 → ∃ u q, exec (.setTarget c (.p n) x) s = .next u ∧
        s.WritesOnly u c (.p n) q (.ok (.packet (.p n))) ∧
        q.desc = (s.packet c (.p n)).desc ∧ q.status = (s.packet c (.p n)).status ∧
        ∀ i, i < 16 → (byteAt q.buf i).toNat = if i = 2 then x else (s.byte c (.p n) i).toNat)

/-- SET_ADDRESS, command 0x31 (R73): the address bytes of a packet bound to `v` become the little-endian bytes of a value
below `2^aw` and no other byte changes; `2^aw` and above is `FieldOverflow`, with nothing written; an unbound packet is the
fault `UseBeforeConstruct`. -/
def Obligations.SetAddressWritesAddressBytes : Prop :=
  ∀ (c : CallerId) (n x : Nat) (s : State),
    decode (.command ⟨0x31, c, [.packet (.p n), .num x]⟩) = .ok (.setAddress c (.p n) x) ∧
    (boundTo (s.packet c (.p n)) = none → exec (.setAddress c (.p n) x) s = .fault .useBeforeConstruct) ∧
    ∀ v, boundTo (s.packet c (.p n)) = some v →
      (2 ^ addressWidth v ≤ x → ∃ u, exec (.setAddress c (.p n) x) s = .next u ∧
        s.AnswersOnly u c (.err (.fieldOverflow .address x (addressWidth v)))) ∧
      (x < 2 ^ addressWidth v → ∃ u q, exec (.setAddress c (.p n) x) s = .next u ∧
        s.WritesOnly u c (.p n) q (.ok (.packet (.p n))) ∧
        q.desc = (s.packet c (.p n)).desc ∧ q.status = (s.packet c (.p n)).status ∧
        ∀ i, i < 16 → (byteAt q.buf i).toNat =
          if 3 ≤ i ∧ i < 3 + addressBytes v then x / 256 ^ (i - 3) % 256 else (s.byte c (.p n) i).toNat)

/-- SET_DATA, command 0x32 (R74): as SET_ADDRESS, for the data bytes and `2^dw`. -/
def Obligations.SetDataWritesDataBytes : Prop :=
  ∀ (c : CallerId) (n x : Nat) (s : State),
    decode (.command ⟨0x32, c, [.packet (.p n), .num x]⟩) = .ok (.setData c (.p n) x) ∧
    (boundTo (s.packet c (.p n)) = none → exec (.setData c (.p n) x) s = .fault .useBeforeConstruct) ∧
    ∀ v, boundTo (s.packet c (.p n)) = some v →
      (2 ^ dataWidth v ≤ x → ∃ u, exec (.setData c (.p n) x) s = .next u ∧
        s.AnswersOnly u c (.err (.fieldOverflow .data x (dataWidth v)))) ∧
      (x < 2 ^ dataWidth v → ∃ u q, exec (.setData c (.p n) x) s = .next u ∧
        s.WritesOnly u c (.p n) q (.ok (.packet (.p n))) ∧
        q.desc = (s.packet c (.p n)).desc ∧ q.status = (s.packet c (.p n)).status ∧
        ∀ i, i < 16 → (byteAt q.buf i).toNat =
          if 3 + addressBytes v ≤ i ∧ i < 3 + addressBytes v + dataBytes v then
            x / 256 ^ (i - (3 + addressBytes v)) % 256
          else (s.byte c (.p n) i).toNat)

/-- SET_WRITE and SET_SUCCESS, commands 0x33 and 0x34 (R75, R76): bit 0, or bit 1, of the flags byte of a bound packet
becomes the Boolean operand; the other seven bits and every other byte stay; an operand other than 0 or 1 is the fault
`IllegalCommand`, an unbound packet the fault `UseBeforeConstruct`; with both defects the command stops with one of the two
faults, which no rule orders. -/
def Obligations.FlagMutatorsWriteOneBit : Prop :=
  ∀ (c : CallerId) (n : Nat) (s : State),
    (∀ b, 2 ≤ b →
      (boundTo (s.packet c (.p n)) ≠ none → exec (.setWrite c (.p n) b) s = .fault .illegalCommand ∧
        exec (.setSuccess c (.p n) b) s = .fault .illegalCommand) ∧
      (boundTo (s.packet c (.p n)) = none →
        (∃ f, exec (.setWrite c (.p n) b) s = .fault f ∧ (f = .illegalCommand ∨ f = .useBeforeConstruct)) ∧
        ∃ f, exec (.setSuccess c (.p n) b) s = .fault f ∧ (f = .illegalCommand ∨ f = .useBeforeConstruct))) ∧
    ∀ b, b < 2 →
      decode (.command ⟨0x33, c, [.packet (.p n), .num b]⟩) = .ok (.setWrite c (.p n) b) ∧
      decode (.command ⟨0x34, c, [.packet (.p n), .num b]⟩) =
        .ok (.setSuccess c (.p n) b) ∧
      (boundTo (s.packet c (.p n)) = none →
        exec (.setWrite c (.p n) b) s = .fault .useBeforeConstruct ∧
        exec (.setSuccess c (.p n) b) s = .fault .useBeforeConstruct) ∧
      (boundTo (s.packet c (.p n)) ≠ none →
        (∃ u q, exec (.setWrite c (.p n) b) s = .next u ∧ s.WritesOnly u c (.p n) q (.ok (.packet (.p n))) ∧
          q.desc = (s.packet c (.p n)).desc ∧ q.status = (s.packet c (.p n)).status ∧
          (∀ i, i < 16 → i ≠ 1 → byteAt q.buf i = s.byte c (.p n) i) ∧
          ∀ k, k < 8 → (byteAt q.buf 1).getLsbD k = if k = 0 then decide (b = 1) else (s.byte c (.p n) 1).getLsbD k) ∧
        (∃ u q, exec (.setSuccess c (.p n) b) s = .next u ∧ s.WritesOnly u c (.p n) q (.ok (.packet (.p n))) ∧
          q.desc = (s.packet c (.p n)).desc ∧ q.status = (s.packet c (.p n)).status ∧
          (∀ i, i < 16 → i ≠ 1 → byteAt q.buf i = s.byte c (.p n) i) ∧
          ∀ k, k < 8 → (byteAt q.buf 1).getLsbD k = if k = 1 then decide (b = 1) else (s.byte c (.p n) 1).getLsbD k))

/-- The round trip (R78): construct, encode, decode in any second register; the accessors give back what was constructed and
the packet validates. -/
def Obligations.ConstructEncodeDecodeRoundTrips : Prop :=
  ∀ (c : CallerId) (n m : Nat) (v : Variant) (t f a d : Nat) (bytes : Buffer) (s s1 s2 : State),
    exec (.construct c (.p n) (indexOf v) t f a d) s = .next s1 → (s1.caller c).ret = some (.ok (.packet (.p n))) →
    exec (.encode c (.p n)) s1 = .next s2 → (s2.caller c).ret = some (.ok (.bytes bytes)) →
    ∃ s3, exec (.decode c (.p m) (indexOf v) bytes.toList) s2 = .next s3 ∧
      (s3.caller c).ret = some (.ok (.packet (.p m))) ∧
      (∃ u, exec (.getTarget c (.p m)) s3 = .next u ∧ (u.caller c).ret = some (.ok (.number t))) ∧
      (∃ u, exec (.getAddress c (.p m)) s3 = .next u ∧ (u.caller c).ret = some (.ok (.number a))) ∧
      (∃ u, exec (.getData c (.p m)) s3 = .next u ∧ (u.caller c).ret = some (.ok (.number d))) ∧
      (∃ u, exec (.isWrite c (.p m)) s3 = .next u ∧ (u.caller c).ret = some (.ok (.bool (decide (f % 2 = 1))))) ∧
      (∃ u, exec (.isSuccess c (.p m)) s3 = .next u ∧ (u.caller c).ret = some (.ok (.bool (decide (f / 2 % 2 = 1))))) ∧
      ∃ u, exec (.validate c (.p m)) s3 = .next u ∧ (u.caller c).ret = some (.ok .unit)

/-- Every successful ENCODE of a `Constructed` packet gives 16 bytes, the first of them its descriptor's magic (R79), in every
state whose packets are as the operations leave them. -/
def Obligations.EncodedBytesBeginWithMagic : Prop :=
  ∀ (c : CallerId) (n : Nat) (v : Variant) (s : State), s.PacketsWf → (s.packet c (.p n)).status = .constructed →
    (s.packet c (.p n)).desc = some v →
    ∃ u bytes, exec (.encode c (.p n)) s = .next u ∧ (u.caller c).ret = some (.ok (.bytes bytes)) ∧
      bytes.toList.length = 16 ∧ byteAt bytes 0 = magicOf v

/-- REUSE then CONSTRUCT leaves what CONSTRUCT alone leaves: no byte of the old packet survives (20_memory.md section 6,
41_codec.md section 1). -/
def Obligations.ReuseThenConstructLeaksNothing : Prop :=
  ∀ (c : CallerId) (n d t f a x : Nat) (s s1 s2 s2' : State),
    exec (.reuse c (.p n)) s = .next s1 → exec (.construct c (.p n) d t f a x) s1 = .next s2 →
    (s2.caller c).ret = some (.ok (.packet (.p n))) → exec (.construct c (.p n) d t f a x) s = .next s2' →
    s2.Alike s2'

/-- An operation of the codec that raises an error leaves every packet register of every caller, the session and the wire as
they were (60_exceptions.md section 2). -/
def Obligations.CodecErrorsCommitNothing : Prop :=
  ∀ (i : Instr) (c : CallerId) (r : PacketReg) (e : Error) (s t : State), callerOf i = some c → codecReg i = some r →
    exec i s = .next t → (t.caller c).ret = some (.err e) → s.AnswersOnly t c (.err e)

/-! ### Faults -/

/-- Every command with an ill-formed operand stops with `IllegalCommand`: a descriptor index outside 0 to 5, a Boolean operand
other than 0 or 1 (30_encoding.md section 5), and, which is the model's reading (log 12), a codec command that would write the
exchange context. That it is `IllegalCommand` also where the packet is unbound, and not `UseBeforeConstruct`, is the model's
choice (log 21): no rule orders the two faults. The step in which a caller's command is reached stops so too: with a Boolean
operand other than 0 or 1, and with a register of the exchange context to write (a descriptor index: `ReservedCommandsFault`). -/
def Obligations.IllFormedCommandsFault : Prop :=
  (∀ (i : Instr) (s : State), ¬ i.WellFormed → exec i s = .fault .illegalCommand) ∧
  ∀ (c : CallerId) (cmd : Command) (agents : List Agent) (left : List Command) (s : State),
    s.schedule = .caller c :: agents → (s.caller c).held = none → takeIssued c s.issued = some (cmd, left) →
    ((∃ p b, 2 ≤ b ∧ (cmd.op = 0x33 ∨ cmd.op = 0x34) ∧ cmd.operands = [.packet p, .num b]) ∨
      ∃ p, (p = .req ∨ p = .resp) ∧
        (((cmd.op = 0x11 ∨ cmd.op = 0x14) ∧ cmd.operands = [.packet p]) ∨
          (∃ x, (0x30 ≤ cmd.op.toNat ∧ cmd.op.toNat ≤ 0x34) ∧ cmd.operands = [.packet p, .num x]) ∨
          (∃ d t f a x, cmd.op = 0x10 ∧ cmd.operands = [.packet p, .num d, .num t, .num f, .num a, .num x]) ∨
          ∃ d b, cmd.op = 0x12 ∧ cmd.operands = [.packet p, .num d, .bytes b])) →
    step s = .fault .illegalCommand

/-- A reserved command code, and a descriptor index outside 0 to 5, is the fault `IllegalCommand` when the caller's command is
reached (R56). -/
def Obligations.ReservedCommandsFault : Prop :=
  ∀ (c : CallerId) (cmd : Command) (agents : List Agent) (left : List Command) (s : State),
    s.schedule = .caller c :: agents → (s.caller c).held = none → takeIssued c s.issued = some (cmd, left) →
    ((cmd.op.toNat = 0x00 ∨ (0x03 ≤ cmd.op.toNat ∧ cmd.op.toNat ≤ 0x0F) ∨ (0x15 ≤ cmd.op.toNat ∧ cmd.op.toNat ≤ 0x1F) ∨
        (0x25 ≤ cmd.op.toNat ∧ cmd.op.toNat ≤ 0x2F) ∨ (0x35 ≤ cmd.op.toNat ∧ cmd.op.toNat ≤ 0x3F) ∨
        (0x46 ≤ cmd.op.toNat ∧ cmd.op.toNat ≤ 0x4F) ∨ 0x51 ≤ cmd.op.toNat) ∨
      ∃ d, 6 ≤ d ∧
        ((cmd.op = 0x02 ∧ cmd.operands = [.num d]) ∨
          (∃ p t f a x, cmd.op = 0x10 ∧ cmd.operands = [.packet p, .num d, .num t, .num f, .num a, .num x]) ∨
          (∃ p b, cmd.op = 0x12 ∧ cmd.operands = [.packet p, .num d, .bytes b]) ∨
          (∃ t f a x, cmd.op = 0x50 ∧ cmd.operands = [.num d, .num t, .num f, .num a, .num x]))) →
    step s = .fault .illegalCommand

/-! ### Frames -/

/-- A command leaves every other caller's registers and exchange context as they were (10_state.md section 3,
60_exceptions.md section 6). -/
def Obligations.CommandsLeaveOtherCallersAlone : Prop :=
  ∀ (i : Instr) (c : CallerId) (s t : State), callerOf i = some c → exec i s = .next t →
    (∀ c', c' ≠ c → t.caller c' = s.caller c') ∧ t.issued = s.issued ∧ t.schedule = s.schedule ∧
    t.transport.inbound = s.transport.inbound

/-- A codec command leaves the session, the wire, the inputs and every register but its own as they were, and VALIDATE and the
accessors leave their own as it was too: a packet is written by CONSTRUCT, ENCODE, DECODE, REUSE and the mutators alone
(20_memory.md section 4, 41_codec.md). -/
def Obligations.CodecCommandsChangeOnlyTheirRegister : Prop :=
  ∀ (i : Instr) (c : CallerId) (r : PacketReg) (s t : State), callerOf i = some c → codecReg i = some r →
    exec i s = .next t →
    s.OnlyCaller t c ∧ (t.caller c).held = none ∧ (t.caller c).xs.phase = (s.caller c).xs.phase ∧
    (t.caller c).xs.respBytes = (s.caller c).xs.respBytes ∧ (t.caller c).xs.result = (s.caller c).xs.result ∧
    (t.caller c).xs.path = (s.caller c).xs.path ∧ (∀ r', r' ≠ r → t.packet c r' = s.packet c r') ∧
    t.packet c .req = s.packet c .req ∧ t.packet c .resp = s.packet c .resp ∧
    (i = .validate c r ∨ i = .getTarget c r ∨ i = .getAddress c r ∨ i = .getData c r ∨ i = .isWrite c r ∨
      i = .isSuccess c r → t.packet c r = s.packet c r)

/-! ### The session -/

/-- ACQUIRE_ONCE, command 0x40 (R86): from `Unacquired` one claim, whatever its answer (the one that is ready, or a free one):
it binds the handle, counts one claim and makes the session `Ready`, or leaves the session as it was with `EndpointBusy`;
from `Ready` and `Degraded` `Ok` with no claim. -/
def Obligations.AcquireOnceBindsOnce : Prop :=
  ∀ (c : CallerId) (h : Handle) (s : State),
    decode (.command ⟨0x40, c, [.handle h]⟩) = .ok (.acquireOnce c h) ∧
    (s.session.state ≠ .unacquired →
      ∃ t, exec (.acquireOnce c h) s = .next t ∧ s.AnswersOnly t c (.ok .unit)) ∧
    (s.session.state = .unacquired →
      ∃ a t, exec (.acquireOnce c h) s = .next t ∧
        (∀ x rest, s.transport.claims = x :: rest → a = x ∧ t.transport = { s.transport with claims := rest }) ∧
        (s.transport.claims = [] → t.transport = { s.transport with drawn := s.transport.drawn + 1 }) ∧
        t.wire = s.wire ++ [.claim h a] ∧ t.issued = s.issued ∧ t.schedule = s.schedule ∧
        (∀ c', c' ≠ c → t.caller c' = s.caller c') ∧
        (a = .ok → t.session = { s.session with handle := some h, claims := s.session.claims + 1, state := .ready } ∧
          t.caller c = { s.caller c with held := none, ret := some (.ok .unit) }) ∧
        (a ≠ .ok → t.session = s.session ∧
          t.caller c = { s.caller c with held := none, ret := some (.err .endpointBusy) }))

/-- REESTABLISH, command 0x41 (42_session.md section 2): in `Degraded` with the gate free the old handle is released, and the
claim's answer, ready or free, either binds the new one and makes the session `Ready` or leaves it `Degraded` with no handle and
`EndpointBusy`; the gate's holder gets `ReentrantLock`; while another holds the gate the caller is held; in `Ready` it does
nothing; in `Unacquired` it does what ACQUIRE_ONCE does. Scheduled while the gate is held, the held caller stays as it is; with
the gate free it releases and claims, in the session's state of that moment. The model's readings: in `Ready` and `Unacquired`
the gate's holder is answered like any caller (log 16); after the hold the session's state is not read again, and a claim that
fails leaves it as it is, `Degraded` or, where another waiter has restored the session, `Ready` (log 15); a held caller scheduled
while the gate is held takes a step in which only the schedule moves (log 19); a release always completes (log 22). -/
def Obligations.ReestablishRestoresDegradedSession : Prop :=
  ∀ (c : CallerId) (h : Handle) (s : State),
    decode (.command ⟨0x41, c, [.handle h]⟩) = .ok (.reestablish c h) ∧
    (s.session.state = .unacquired → exec (.reestablish c h) s = exec (.acquireOnce c h) s) ∧
    (s.session.state = .ready → ∃ t, exec (.reestablish c h) s = .next t ∧ s.AnswersOnly t c (.ok .unit)) ∧
    (s.session.state = .degraded → s.session.holder = some c →
      ∃ t, exec (.reestablish c h) s = .next t ∧ s.AnswersOnly t c (.err .reentrantLock)) ∧
    (s.session.state = .degraded → (∃ c', c' ≠ c ∧ s.session.holder = some c') →
      ∃ t, exec (.reestablish c h) s = .next t ∧ s.OnlyCaller t c ∧
        t.caller c = { s.caller c with held := some (.atReestablish h), ret := none }) ∧
    (s.session.state = .degraded → s.session.holder = none →
      ∃ t, exec (.reestablish c h) s = .next t ∧ SessionRestored s t c h ∧ t.schedule = s.schedule) ∧
    ∀ agents, s.schedule = .caller c :: agents → (s.caller c).held = some (.atReestablish h) →
      (s.session.holder ≠ none → ∃ t, step s = .next t ∧ s.Alike { t with schedule := s.schedule } ∧
        t.schedule = agents) ∧
      (s.session.holder = none → ∃ t, step s = .next t ∧ SessionRestored s t c h ∧ t.schedule = agents)

/-- LOCK, command 0x42 (42_session.md section 3): `ReentrantLock` for the holder, with the gate as it was; a grant where the gate
is free, in every session state; a hold while another caller holds it, which lasts until the gate is free and the waiter is
scheduled. That a waiter scheduled while the gate is held takes a step in which only the schedule moves is the model's choice (log
19). -/
def Obligations.LockGrantsRejectsOrHolds : Prop :=
  ∀ (c : CallerId) (s : State),
    decode (.command ⟨0x42, c, []⟩) = .ok (.lock c) ∧
    (s.session.holder = some c → ∃ t, exec (.lock c) s = .next t ∧ s.AnswersOnly t c (.err .reentrantLock)) ∧
    (s.session.holder = none →
      ∃ t, exec (.lock c) s = .next t ∧ t.session = { s.session with holder := some c } ∧ t.issued = s.issued ∧
        t.schedule = s.schedule ∧ t.transport = s.transport ∧ t.wire = s.wire ∧
        (∀ c', c' ≠ c → t.caller c' = s.caller c') ∧
        t.caller c = { s.caller c with held := none, ret := some (.ok .unit) }) ∧
    ((∃ c', c' ≠ c ∧ s.session.holder = some c') →
      ∃ t, exec (.lock c) s = .next t ∧ s.OnlyCaller t c ∧
        t.caller c = { s.caller c with held := some (.atLock .lock), ret := none }) ∧
    (∀ agents, s.schedule = .caller c :: agents → (s.caller c).held = some (.atLock .lock) →
      ∃ t, step s = .next t ∧ t.issued = s.issued ∧ t.schedule = agents ∧ t.transport = s.transport ∧
        t.wire = s.wire ∧ (∀ c', c' ≠ c → t.caller c' = s.caller c') ∧
        (s.session.holder ≠ none → t.session = s.session ∧ t.caller c = s.caller c) ∧
        (s.session.holder = none → t.session = { s.session with holder := some c } ∧
          t.caller c = { s.caller c with held := none, ret := some (.ok .unit) }))

/-- UNLOCK, command 0x43 (R89): the holder frees the gate and no successor is picked; any other caller is the fault
`NotHolder`. -/
def Obligations.UnlockFreesGate : Prop :=
  ∀ (c : CallerId) (s : State),
    decode (.command ⟨0x43, c, []⟩) = .ok (.unlock c) ∧
    (s.session.holder ≠ some c → exec (.unlock c) s = .fault .notHolder) ∧
    (s.session.holder = some c →
      ∃ t, exec (.unlock c) s = .next t ∧ t.session = { s.session with holder := none } ∧ t.issued = s.issued ∧
        t.schedule = s.schedule ∧ t.transport = s.transport ∧ t.wire = s.wire ∧
        (∀ c', c' ≠ c → t.caller c' = s.caller c') ∧
        t.caller c = { s.caller c with held := none, ret := some (.ok .unit) })

/-- TRANSFER, command 0x44, before its TX step (42_session.md section 4): a caller that does not hold the gate is the fault
`NotHolder`; then the session's state is checked, then the length; the gate stays held and nothing is carried. -/
def Obligations.TransferChecksBeforeSending : Prop :=
  ∀ (c : CallerId) (bytes : List Byte) (s : State),
    decode (.command ⟨0x44, c, [.bytes bytes]⟩) = .ok (.transfer c bytes) ∧
    (s.session.holder ≠ some c → exec (.transfer c bytes) s = .fault .notHolder) ∧
    (s.session.holder = some c → s.session.state = .unacquired →
      ∃ t, exec (.transfer c bytes) s = .next t ∧ s.AnswersOnly t c (.err .endpointBusy)) ∧
    (s.session.holder = some c → s.session.state = .degraded →
      ∃ t, exec (.transfer c bytes) s = .next t ∧ s.AnswersOnly t c (.err .degraded)) ∧
    (s.session.holder = some c → s.session.state = .ready → bytes.length ≠ 16 →
      ∃ t, exec (.transfer c bytes) s = .next t ∧ s.AnswersOnly t c (.err (.lengthMismatch 16 bytes.length)))

/-- TRANSFER by the holder of a `Ready` session, with its answers ready, carries the request and then the response, returns the
16 bytes, and keeps the gate (42_session.md section 4). -/
def Obligations.TransferCarriesRequestThenResponse : Prop :=
  ∀ (c : CallerId) (b r : Buffer) (ws : List WriteAnswer) (rs : List ReadAnswer) (s : State),
    s.session.holder = some c → s.session.state = .ready → s.transport.writes = .ok :: ws →
    s.transport.reads = .ok r :: rs →
    ∃ t, exec (.transfer c b.toList) s = .next t ∧ t.session = s.session ∧ t.issued = s.issued ∧
      t.schedule = s.schedule ∧ t.transport = { s.transport with writes := ws, reads := rs } ∧
      t.wire = s.wire ++ [.write c b .ok, .read c (.ok r)] ∧ (∀ c', c' ≠ c → t.caller c' = s.caller c') ∧
      t.caller c = { s.caller c with held := none, ret := some (.ok (.bytes r)) }

/-- A failed transmit (42_session.md sections 1 and 4): each answer's error; the residue rule after `Short` and `Timeout`;
`Degraded` after a disconnect; the state as it was after `Busy`. The gate stays held and nothing is received. -/
def Obligations.FailedTransmitMapsToError : Prop :=
  ∀ (c : CallerId) (b : Buffer) (w : WriteAnswer) (ws : List WriteAnswer) (clean : Bool) (cs : List Bool) (s : State),
    s.session.holder = some c → s.session.state = .ready → s.transport.writes = w :: ws →
    s.transport.cleans = clean :: cs → w ≠ .ok →
    ∃ t, exec (.transfer c b.toList) s = .next t ∧ t.wire = s.wire ++ [.write c b w] ∧
      t.session = { s.session with
        state := match w with
          | .ok => .ready
          | .busy => .ready
          | .short _ => if clean then .ready else .degraded
          | .timeout => if clean then .ready else .degraded
          | .disconnected => .degraded } ∧
      t.caller c = { s.caller c with
        held := none
        ret := some (.err (match w with
          | .ok => .endpointBusy
          | .busy => .endpointBusy
          | .short n => .shortWrite n.val
          | .timeout => .timeout .transmit
          | .disconnected => .degraded)) } ∧
      (∀ c', c' ≠ c → t.caller c' = s.caller c') ∧ t.issued = s.issued ∧ t.schedule = s.schedule ∧
      t.transport.reads = s.transport.reads

/-- A failed receive after a whole transmit (42_session.md sections 1 and 4): each answer's error; the residue rule after
`Short`, `Busy` and `Timeout`; `Degraded` after a disconnect. The gate stays held. -/
def Obligations.FailedReceiveMapsToError : Prop :=
  ∀ (c : CallerId) (b : Buffer) (ws : List WriteAnswer) (r : ReadAnswer) (rs : List ReadAnswer) (clean : Bool)
    (cs : List Bool) (s : State),
    s.session.holder = some c → s.session.state = .ready → s.transport.writes = .ok :: ws →
    s.transport.reads = r :: rs → s.transport.cleans = clean :: cs → (∀ x, r ≠ .ok x) →
    ∃ t, exec (.transfer c b.toList) s = .next t ∧ t.wire = s.wire ++ [.write c b .ok, .read c r] ∧
      t.session = { s.session with
        state := match r with
          | .ok _ => .ready
          | .disconnected => .degraded
          | _ => if clean then .ready else .degraded } ∧
      t.caller c = { s.caller c with
        held := none
        ret := some (.err (match r with
          | .ok _ => .endpointBusy
          | .busy => .endpointBusy
          | .short n => .shortRead n.val
          | .timeout => .timeout .receive
          | .disconnected => .degraded)) } ∧
      (∀ c', c' ≠ c → t.caller c' = s.caller c') ∧ t.issued = s.issued ∧ t.schedule = s.schedule

/-- A transfer of TRANSFER, EXCHANGE or SEND_REQUEST blocks in each of its two steps until the transport answers (00_scope.md
section 3, 42_session.md section 4, 43_exchange.md; log 5). With no answer to the write it is held in the TX step, with the gate
and, for SEND_REQUEST, in `Built`. In the TX step any answer `a`, the one that is ready or a free one, ends it: with its error,
the gate released but for TRANSFER; or, where it is `Ok`, in the RX step, `AwaitingResponse` for SEND_REQUEST, which an answer
that is ready ends at once. In the RX step any answer ends the transfer, with the gate released but for TRANSFER. -/
def Obligations.TransferBlocksUntilAnswered : Prop :=
  ∀ (c : CallerId) (b : Buffer) (s : State),
    (s.session.holder = some c → s.session.state = .ready → s.transport.writes = [] →
      ∃ t, exec (.transfer c b.toList) s = .next t ∧ s.OnlyCaller t c ∧
        t.caller c = { s.caller c with held := some (.atTransmit .raw b), ret := none }) ∧
    (s.session.holder = none → s.session.state = .ready → s.transport.writes = [] →
      (∃ t, exec (.exchange c b.toList) s = .next t ∧
        State.OnlyCaller { s with session := { s.session with holder := some c } } t c ∧
        t.caller c = { s.caller c with held := some (.atTransmit .exchange b), ret := none }) ∧
      ∀ v tid f a d, a < 2 ^ addressWidth v → d < 2 ^ dataWidth v → tid < 256 → f < 4 →
        ∃ t, exec (.sendRequest c (indexOf v) tid f a d) s = .next t ∧
          State.OnlyCaller { s with session := { s.session with holder := some c } } t c ∧
          t.caller c =
            { s.caller c with
              xs :=
                { (s.caller c).xs with
                  phase := .built
                  req := requestPacket v tid f a d
                  path := [(s.caller c).xs.phase, .built] }
              held := some (.atTransmit (.request v tid a) (requestBytes v tid f a d))
              ret := none }) ∧
    ∀ (u : TransferUser) (agents : List Agent), s.schedule = .caller c :: agents →
      ((s.caller c).held = some (.atTransmit u b) →
        ∃ t a clean, step s = .next t ∧ t.issued = s.issued ∧ t.schedule = agents ∧
          (∀ x rest, s.transport.writes = x :: rest → a = x) ∧ (∀ x rest, s.transport.cleans = x :: rest → clean = x) ∧
          TransmitEnded s t c b a clean u) ∧
      ((s.caller c).held = some (.atReceive u) →
        ∃ t a clean, step s = .next t ∧ t.issued = s.issued ∧ t.schedule = agents ∧
          (∀ x rest, s.transport.reads = x :: rest → a = x) ∧ (∀ x rest, s.transport.cleans = x :: rest → clean = x) ∧
          t.wire = s.wire ++ [.read c a] ∧ ReceiveEnded s t c (s.caller c) a clean u)

/-- EXCHANGE, command 0x45, is LOCK, then TRANSFER, then UNLOCK, with TRANSFER's result (30_encoding.md section 6, 42_session.md
section 4): where the three complete one after the other, the exchange ends in the state they end in, with the transfer's
result; where LOCK fails, it returns that error and transfers and unlocks nothing. While another caller holds the gate the
exchange is held at its LOCK with nothing sent; scheduled with the gate free it goes on as an EXCHANGE of the same bytes does that
finds the gate free; scheduled while the gate is held it stays as it is, in a step that moves only the schedule (the model's
choice, log 19). -/
def Obligations.ExchangeIsLockTransferUnlock : Prop :=
  ∀ (c : CallerId) (bytes : List Byte) (s : State),
    decode (.command ⟨0x45, c, [.bytes bytes]⟩) = .ok (.exchange c bytes) ∧
    (s.session.holder = some c →
      ∃ t, exec (.exchange c bytes) s = .next t ∧ s.AnswersOnly t c (.err .reentrantLock)) ∧
    ((∃ c', c' ≠ c ∧ s.session.holder = some c') →
      ∃ t, exec (.exchange c bytes) s = .next t ∧ s.OnlyCaller t c ∧
        t.caller c = { s.caller c with held := some (.atLock (.exchange bytes)), ret := none }) ∧
    (∀ agents, s.schedule = .caller c :: agents → (s.caller c).held = some (.atLock (.exchange bytes)) →
      (s.session.holder ≠ none → step s = .next { s with schedule := agents }) ∧
      (s.session.holder = none → step s = exec (.exchange c bytes) { s with schedule := agents })) ∧
    ∀ s1 s2 s3 x, s.session.holder = none → exec (.lock c) s = .next s1 → exec (.transfer c bytes) s1 = .next s2 →
      (s2.caller c).ret = some x → exec (.unlock c) s2 = .next s3 →
      ∃ t, exec (.exchange c bytes) s = .next t ∧
        t.Alike (s3.mapCaller c fun k => { k with ret := some x })

/-- EXCHANGE with the gate free, the session `Ready` and its answers ready returns the response and leaves the gate free
(42_session.md section 4). -/
def Obligations.ExchangeReturnsResponseAndFreesGate : Prop :=
  ∀ (c : CallerId) (b r : Buffer) (ws : List WriteAnswer) (rs : List ReadAnswer) (s : State),
    s.session.holder = none → s.session.state = .ready → s.transport.writes = .ok :: ws →
    s.transport.reads = .ok r :: rs →
    ∃ t, exec (.exchange c b.toList) s = .next t ∧ t.session = s.session ∧ t.issued = s.issued ∧
      t.schedule = s.schedule ∧ t.transport = { s.transport with writes := ws, reads := rs } ∧
      t.wire = s.wire ++ [.write c b .ok, .read c (.ok r)] ∧ (∀ c', c' ≠ c → t.caller c' = s.caller c') ∧
      t.caller c = { s.caller c with held := none, ret := some (.ok (.bytes r)) }

/-- In `Degraded` every TRANSFER by the holder, and every EXCHANGE and every constructible SEND_REQUEST that gets the gate,
fails with `Degraded` without touching the transport, and the session stays `Degraded` (60_exceptions.md section 2); so does the
EXCHANGE and the SEND_REQUEST of a caller that waited at the gate and is scheduled with the gate free. -/
def Obligations.DegradedSessionFailsFast : Prop :=
  ∀ (c : CallerId) (s : State), s.session.state = .degraded →
    (∀ bytes, s.session.holder = some c →
      ∃ t, exec (.transfer c bytes) s = .next t ∧ s.AnswersOnly t c (.err .degraded)) ∧
    (∀ bytes, s.session.holder = none →
      ∃ t, exec (.exchange c bytes) s = .next t ∧ s.AnswersOnly t c (.err .degraded)) ∧
    (∀ v tid f a d, s.session.holder = none → a < 2 ^ addressWidth v → d < 2 ^ dataWidth v → tid < 256 → f < 4 →
      ∃ t, exec (.sendRequest c (indexOf v) tid f a d) s = .next t ∧ t.session = s.session ∧ t.wire = s.wire ∧
        t.transport = s.transport ∧ SendStopped s t c [.built, .rejected, .idle] .degraded) ∧
    ∀ agents, s.schedule = .caller c :: agents → s.session.holder = none →
      (∀ bytes, (s.caller c).held = some (.atLock (.exchange bytes)) →
        ∃ t, step s = .next t ∧ State.AnswersOnly { s with schedule := agents } t c (.err .degraded)) ∧
      ∀ v tid a b, (s.caller c).held = some (.atLock (.request v tid a b)) →
        ∃ t, step s = .next t ∧ State.OnlyCaller { s with schedule := agents } t c ∧
          t.caller c = afterTransferError (s.caller c) .degraded (.request v tid a)

/-! ### The exchange sequencer -/

/-- SEND_REQUEST, command 0x50, whose response is valid and echoes the request (43_exchange.md): the caller receives the typed
response with its six fields, having gone through `Built`, `Sent`, `AwaitingResponse`, `Decoded`, `Validated`. -/
def Obligations.SendRequestReturnsTypedResponse : Prop :=
  ∀ (c : CallerId) (v : Variant) (tid f a d : Nat) (ws : List WriteAnswer) (t : Buffer) (rs : List ReadAnswer) (s : State),
    decode (.command ⟨0x50, c, [.num (indexOf v), .num tid, .num f, .num a, .num d]⟩) =
      .ok (.sendRequest c (indexOf v) tid f a d) ∧
    (SendReady s v tid f a d ws t rs → responseValid v t → (byteAt t 2).toNat = tid → leValue t 3 (addressBytes v) = a →
      ∃ u, exec (.sendRequest c (indexOf v) tid f a d) s = .next u ∧
        SendReceived s u c v tid f a d ws t rs [.built, .sent, .awaitingResponse, .decoded, .validated, .idle]
          (.ok
            { targetId := tid
              address := a
              data := leValue t (3 + addressBytes v) (dataBytes v)
              isWrite := (byteAt t 1).getLsbD 0
              isSuccess := (byteAt t 1).getLsbD 1
              flags := byteAt t 1 }) ∧
        u.packet c .resp = { buf := t, desc := some v, status := .decoded })

/-- A response with `S` = 0 that passes `VALIDATE` and the echo check gives `Validated` and `Ok` with `is_success = false`: it is
data, not an error (R104). -/
def Obligations.FailureFlagIsData : Prop :=
  ∀ (c : CallerId) (v : Variant) (tid f a d : Nat) (ws : List WriteAnswer) (t : Buffer) (rs : List ReadAnswer) (s : State),
    SendReady s v tid f a d ws t rs → responseValid v t → (byteAt t 2).toNat = tid →
    leValue t 3 (addressBytes v) = a → (byteAt t 1).getLsbD 1 = false →
    ∃ u r, exec (.sendRequest c (indexOf v) tid f a d) s = .next u ∧ r.isSuccess = false ∧
      (u.caller c).xs.result = some (.ok r) ∧ (u.caller c).ret = some (.ok (.response r)) ∧
      .validated ∈ (u.caller c).xs.path

/-- The echo check (R101): a valid response whose target id or address is not the request's is
`ValidationError(EchoMismatch)`; a response that differs from the request in the write flag or in the data alone is no error.
VALIDATE itself, on the same packet, finds nothing. -/
def Obligations.EchoCheckComparesTargetAndAddress : Prop :=
  ∀ (c : CallerId) (v : Variant) (tid f a d : Nat) (ws : List WriteAnswer) (t : Buffer) (rs : List ReadAnswer) (s : State),
    SendReady s v tid f a d ws t rs → responseValid v t →
    violationOf v { buf := t, desc := some v, status := .decoded } = none ∧
    (((byteAt t 2).toNat ≠ tid ∨ leValue t 3 (addressBytes v) ≠ a) →
      ∃ u, exec (.sendRequest c (indexOf v) tid f a d) s = .next u ∧
        SendReceived s u c v tid f a d ws t rs [.built, .sent, .awaitingResponse, .decoded, .rejected, .idle]
          (.err (.validationError .echoMismatch)) ∧
        u.packet c .resp = { buf := t, desc := some v, status := .decoded }) ∧
    ((byteAt t 2).toNat = tid → leValue t 3 (addressBytes v) = a →
      ∃ u r, exec (.sendRequest c (indexOf v) tid f a d) s = .next u ∧ (u.caller c).ret = some (.ok (.response r)))

/-- A response that is not of the request's variant, or not valid, rejects the exchange (43_exchange.md, 60_exceptions.md section
3): an unassigned byte 0 gives `UnknownVariant`, another variant's magic `MagicMismatch` (R102), with `resp` as it was; a
reserved flag bit or a nonzero padding byte gives its `ValidationError`, with `resp` decoded. The gate is free. -/
def Obligations.BadResponseRejectsExchange : Prop :=
  ∀ (c : CallerId) (v : Variant) (tid f a d : Nat) (ws : List WriteAnswer) (t : Buffer) (rs : List ReadAnswer) (s : State),
    SendReady s v tid f a d ws t rs →
    ((∀ w, byteAt t 0 ≠ magicOf w) →
      ∃ u, exec (.sendRequest c (indexOf v) tid f a d) s = .next u ∧ u.packet c .resp = s.packet c .resp ∧
        SendReceived s u c v tid f a d ws t rs [.built, .sent, .awaitingResponse, .rejected, .idle]
          (.err (.unknownVariant (byteAt t 0).toNat))) ∧
    (∀ w, w ≠ v → byteAt t 0 = magicOf w →
      ∃ u, exec (.sendRequest c (indexOf v) tid f a d) s = .next u ∧ u.packet c .resp = s.packet c .resp ∧
        SendReceived s u c v tid f a d ws t rs [.built, .sent, .awaitingResponse, .rejected, .idle]
          (.err (.magicMismatch (magicOf v) (magicOf w)))) ∧
    (byteAt t 0 = magicOf v → 4 ≤ (byteAt t 1).toNat →
      ∃ u, exec (.sendRequest c (indexOf v) tid f a d) s = .next u ∧
        u.packet c .resp = { buf := t, desc := some v, status := .decoded } ∧
        SendReceived s u c v tid f a d ws t rs [.built, .sent, .awaitingResponse, .decoded, .rejected, .idle]
          (.err (.validationError .reservedFlagBits))) ∧
    (byteAt t 0 = magicOf v → (byteAt t 1).toNat < 4 →
      ∀ i, paddingStart v ≤ i → i < 16 → byteAt t i ≠ 0 → (∀ j, paddingStart v ≤ j → j < i → byteAt t j = 0) →
      ∃ u, exec (.sendRequest c (indexOf v) tid f a d) s = .next u ∧
        u.packet c .resp = { buf := t, desc := some v, status := .decoded } ∧
        SendReceived s u c v tid f a d ws t rs [.built, .sent, .awaitingResponse, .decoded, .rejected, .idle]
          (.err (.validationError (.reservedPadding i))))

/-- The response is decoded with the request's descriptor (R102): bytes that begin with its magic become a packet bound to it
in `resp`; a response of another variant is `MagicMismatch`, even if it is well formed for its own variant. -/
def Obligations.ResponseOfAnotherVariantIsMismatch : Prop :=
  ∀ (c : CallerId) (v w : Variant) (tid f a d : Nat) (ws : List WriteAnswer) (t : Buffer) (rs : List ReadAnswer) (s : State),
    SendReady s v tid f a d ws t rs →
    (byteAt t 0 = magicOf v →
      ∃ u, exec (.sendRequest c (indexOf v) tid f a d) s = .next u ∧
        u.packet c .resp = { buf := t, desc := some v, status := .decoded }) ∧
    (responseValid w t → w ≠ v →
      ∃ u, exec (.sendRequest c (indexOf v) tid f a d) s = .next u ∧
        (u.caller c).xs.result = some (.err (.magicMismatch (magicOf v) (magicOf w))) ∧
        (u.caller c).ret = some (.err (.magicMismatch (magicOf v) (magicOf w))))

/-- If construction fails, the exchange never reaches `Built`: it goes straight to `Rejected` with the construction error, the
gate is not touched and nothing is sent (R95). -/
def Obligations.ConstructionErrorRejectsUnsent : Prop :=
  ∀ (c : CallerId) (v : Variant) (tid f a d : Nat) (e : Error) (s : State),
    (if 2 ^ addressWidth v ≤ a then some (Error.fieldOverflow .address a (addressWidth v))
      else if 2 ^ dataWidth v ≤ d then some (Error.fieldOverflow .data d (dataWidth v))
      else if 256 ≤ tid then some (Error.fieldOverflow .targetId tid 8)
      else if 256 ≤ f then some (Error.fieldOverflow .flags f 8)
      else if 4 ≤ f then some (Error.validationError .reservedFlagBits)
      else none) = some e →
    ∃ u, exec (.sendRequest c (indexOf v) tid f a d) s = .next u ∧ u.session = s.session ∧ u.wire = s.wire ∧
      u.transport = s.transport ∧ u.packet c .req = s.packet c .req ∧ SendStopped s u c [.rejected, .idle] e

/-- A SEND_REQUEST that stops between `Built` and `Decoded` (43_exchange.md, 60_exceptions.md section 3): `ReentrantLock`, with
the gate still held, where the caller holds it; `EndpointBusy` on an `Unacquired` session; the transmit's error, and after a
whole transmit the receive's, by the residue rule, with the gate free (42_session.md section 1). `req` holds the request that was
given, which is what has been sent; `resp` and the kept response bytes are as they were. -/
def Obligations.SendRequestStopsAtGateOrTransfer : Prop :=
  ∀ (c : CallerId) (v : Variant) (tid f a d : Nat) (s : State),
    a < 2 ^ addressWidth v → d < 2 ^ dataWidth v → tid < 256 → f < 4 →
    (s.session.holder = some c →
      ∃ u, exec (.sendRequest c (indexOf v) tid f a d) s = .next u ∧ u.session = s.session ∧ u.wire = s.wire ∧
        u.transport = s.transport ∧ u.packet c .req = requestPacket v tid f a d ∧
        SendStopped s u c [.built, .rejected, .idle] .reentrantLock) ∧
    (s.session.holder = none → s.session.state = .unacquired →
      ∃ u, exec (.sendRequest c (indexOf v) tid f a d) s = .next u ∧ u.session = s.session ∧ u.wire = s.wire ∧
        u.transport = s.transport ∧ u.packet c .req = requestPacket v tid f a d ∧
        SendStopped s u c [.built, .rejected, .idle] .endpointBusy) ∧
    (s.session.holder = none → s.session.state = .ready → ∀ w ws clean cs e, writeErrorOf w = some e →
      s.transport.writes = w :: ws → s.transport.cleans = clean :: cs →
      ∃ u, exec (.sendRequest c (indexOf v) tid f a d) s = .next u ∧
        u.session = { s.session with state := stateAfterWrite .ready clean w } ∧
        u.wire = s.wire ++ [.write c (requestBytes v tid f a d) w] ∧ u.packet c .req = requestPacket v tid f a d ∧
        SendStopped s u c [.built, .rejected, .idle] e) ∧
    (s.session.holder = none → s.session.state = .ready → ∀ ws r rs clean cs e, readErrorOf r = some e →
      s.transport.writes = .ok :: ws → s.transport.reads = r :: rs → s.transport.cleans = clean :: cs →
      ∃ u, exec (.sendRequest c (indexOf v) tid f a d) s = .next u ∧
        u.session = { s.session with state := stateAfterRead .ready clean r } ∧
        u.wire = s.wire ++ [.write c (requestBytes v tid f a d) .ok, .read c r] ∧
        u.packet c .req = requestPacket v tid f a d ∧
        SendStopped s u c [.built, .sent, .awaitingResponse, .rejected, .idle] e)

/-- A caller that finds the gate held waits in `Built` (43_exchange.md): nothing is sent, no result is there and the request it
was given stands in `req`. Scheduled while the gate is held it stays as it is, in a step that moves only the schedule (the model's
choice, log 19). Scheduled with the gate free it goes on: in an `Unacquired` session it is rejected with `EndpointBusy`, nothing
sent and the gate free (60_exceptions.md section 3; in a `Degraded` one: `DegradedSessionFailsFast`); in a `Ready` one with no
answer to the write ready it holds the gate and is held in its TX step, still in `Built`; an answer that is ready ends that TX
step; and with a whole write and a read ready it has sent that request, received the response and is `Idle` again, with what it
makes of the response as its result and the gate free. -/
def Obligations.SendRequestWaitsInBuilt : Prop :=
  ∀ (c : CallerId) (v : Variant) (tid f a d : Nat) (s : State),
    a < 2 ^ addressWidth v → d < 2 ^ dataWidth v → tid < 256 → f < 4 → (∃ c', c' ≠ c ∧ s.session.holder = some c') →
    ∃ u, exec (.sendRequest c (indexOf v) tid f a d) s = .next u ∧ s.OnlyCaller u c ∧
      (u.caller c).xs.phase = .built ∧
      (u.caller c).held = some (.atLock (.request v tid a (requestBytes v tid f a d))) ∧
      (u.caller c).ret = none ∧ u.packet c .req = requestPacket v tid f a d ∧
      ∀ agents w, w.callers = u.callers → w.schedule = .caller c :: agents →
        (w.session.holder ≠ none → ∃ w', step w = .next w' ∧
          State.OnlyCaller { w with schedule := agents } w' c ∧ w'.caller c = u.caller c) ∧
        (w.session.holder = none → w.session.state = .unacquired → ∃ w', step w = .next w' ∧
          State.OnlyCaller { w with schedule := agents } w' c ∧
          w'.caller c = afterTransferError (u.caller c) .endpointBusy (.request v tid a)) ∧
        (w.session.holder = none → w.session.state = .ready → w.transport.writes = [] → ∃ w', step w = .next w' ∧
          State.OnlyCaller { w with schedule := agents, session := { w.session with holder := some c } } w' c ∧
          w'.caller c =
            { u.caller c with held := some (.atTransmit (.request v tid a) (requestBytes v tid f a d)), ret := none }) ∧
        (w.session.holder = none → w.session.state = .ready → ∀ x ws, w.transport.writes = x :: ws →
          ∃ w' clean, step w = .next w' ∧ w'.issued = w.issued ∧ w'.schedule = agents ∧
            (∀ y rest, w.transport.cleans = y :: rest → clean = y) ∧
            TransmitEnded { w with session := { w.session with holder := some c } } w' c (requestBytes v tid f a d) x clean
              (.request v tid a)) ∧
        (w.session.holder = none → w.session.state = .ready → ∀ ws x rs, w.transport.writes = .ok :: ws →
          w.transport.reads = .ok x :: rs → ∃ w' path y, step w = .next w' ∧
            w'.wire = w.wire ++ [.write c (requestBytes v tid f a d) .ok, .read c (.ok x)] ∧ w'.session = w.session ∧
            ResponseJudged v tid a x path y ∧ (w'.caller c).xs.result = some y ∧
            (w'.caller c).ret = some (resultMap .response y) ∧ w'.packet c .req = requestPacket v tid f a d ∧
            (w'.caller c).held = none ∧ (w'.caller c).xs.phase = .idle ∧ (w'.caller c).xs.respBytes = some x)

/-! ### Packets on the wire -/

/-- A packet of each variant that arrives while no caller is in its RX step becomes the answer of a later read, and nothing else
changes; its 16 bytes are its fields as the layout places them (30_encoding.md section 2; that it arrives so is the model's
reading of a wire row, log 9). -/
def Obligations.ArrivingPacketAwaitsItsRead : Prop :=
  ∀ (f t : Byte) (s : State), (∀ c u, (s.caller c).held ≠ some (.atReceive u)) →
    (∀ (a : BitVec 8) (d : BitVec 8) (p : BitVec 88), ∃ b, LaidOut .v8x8 f t a.toNat d.toNat p.toNat b ∧
      exec (.pkt8x8 f t a d p) s =
        .next { s with transport := { s.transport with reads := s.transport.reads ++ [.ok b] } }) ∧
    (∀ (a : BitVec 8) (d : BitVec 16) (p : BitVec 80), ∃ b, LaidOut .v8x16 f t a.toNat d.toNat p.toNat b ∧
      exec (.pkt8x16 f t a d p) s =
        .next { s with transport := { s.transport with reads := s.transport.reads ++ [.ok b] } }) ∧
    (∀ (a : BitVec 8) (d : BitVec 32) (p : BitVec 64), ∃ b, LaidOut .v8x32 f t a.toNat d.toNat p.toNat b ∧
      exec (.pkt8x32 f t a d p) s =
        .next { s with transport := { s.transport with reads := s.transport.reads ++ [.ok b] } }) ∧
    (∀ (a : BitVec 8) (d : BitVec 64) (p : BitVec 32), ∃ b, LaidOut .v8x64 f t a.toNat d.toNat p.toNat b ∧
      exec (.pkt8x64 f t a d p) s =
        .next { s with transport := { s.transport with reads := s.transport.reads ++ [.ok b] } }) ∧
    (∀ (a : BitVec 16) (d : BitVec 64) (p : BitVec 24), ∃ b, LaidOut .v16x64 f t a.toNat d.toNat p.toNat b ∧
      exec (.pkt16x64 f t a d p) s =
        .next { s with transport := { s.transport with reads := s.transport.reads ++ [.ok b] } }) ∧
    (∀ (a : BitVec 32) (d : BitVec 32) (p : BitVec 40), ∃ b, LaidOut .v32x32 f t a.toNat d.toNat p.toNat b ∧
      exec (.pkt32x32 f t a d p) s =
        .next { s with transport := { s.transport with reads := s.transport.reads ++ [.ok b] } })

/-- A packet of any variant that arrives while the gate's holder is in the RX step of a TRANSFER, an EXCHANGE or a SEND_REQUEST,
with no answer before it, ends that step with its 16 bytes, and the gate is released but for TRANSFER (20_memory.md section 2,
42_session.md section 4, 43_exchange.md; log 9). -/
def Obligations.ArrivingPacketEndsReceive : Prop :=
  ∀ (c : CallerId) (u : TransferUser) (s : State) (i : Instr) (b : Buffer), s.session.holder = some c →
    (s.caller c).held = some (.atReceive u) → s.transport.reads = [] → encode i = .wire b.toList →
    ∃ t, exec i s = .next t ∧ t.wire = s.wire ++ [.read c (.ok b)] ∧ t.transport = s.transport ∧
      t.issued = s.issued ∧ t.schedule = s.schedule ∧
      t.session = { s.session with holder := gateAfter s.session.holder u } ∧
      AfterReceive (s.caller c) (t.caller c) b u ∧ ∀ c', c' ≠ c → t.caller c' = s.caller c'

/-! ### Steps, decoding, encoding -/

/-- A step runs the decoded instruction (30_encoding.md section 5; log 6): where a caller that is not held is scheduled, its next
command is taken and, where it decodes to `i`, the step is exec of `i`; where the transport is scheduled, likewise the next
packet. -/
def Obligations.StepRunsDecodedInstruction : Prop :=
  ∀ (s : State) (agents : List Agent) (i : Instr),
    (∀ c cmd left, s.schedule = .caller c :: agents → (s.caller c).held = none →
      takeIssued c s.issued = some (cmd, left) → decode (.command cmd) = .ok i →
      step s = exec i { s with schedule := agents, issued := left }) ∧
    ∀ b rest, s.schedule = .transport :: agents → s.transport.inbound = b :: rest → decode (.wire b.toList) = .ok i →
      step s = exec i { s with schedule := agents, transport := { s.transport with inbound := rest } }

/-- With no command issued, no packet arriving and no caller held the block waits (70_reset_and_hazards.md section 1). That its
step is then a next state in which at most the schedule and the count of free values have moved is the model's choice (log 19). -/
def Obligations.StepWaitsForCommands : Prop :=
  ∀ s : State, s.issued = [] → s.transport.inbound = [] → (∀ c, (s.caller c).held = none) →
    ∃ agents n, step s = .next { s with schedule := agents, transport := { s.transport with drawn := n } }

/-- Four written words decode to the instructions they stand for, and 16 bytes with the unassigned first byte 0x99 decode to
none (30_encoding.md; a sanity statement). -/
def Obligations.WrittenWordsDecode : Prop :=
  decode (.command ⟨0x10, 0, [.packet (.p 0), .num 4, .num 7, .num 1, .num 0x1234,
    .num 0x0123456789ABCDEF]⟩) = .ok (.construct 0 (.p 0) 4 7 1 0x1234 0x0123456789ABCDEF) ∧
  decode (.command ⟨0x22, 0, [.packet (.p 1)]⟩) = .ok (.getData 0 (.p 1)) ∧
  decode (.command ⟨0x42, 1, []⟩) = .ok (.lock 1) ∧
  decode (.wire [0x45, 0x01, 0x07, 0x34, 0x12, 0xEF, 0xCD, 0xAB, 0x89, 0x67, 0x45, 0x23, 0x01, 0x00, 0x00, 0x00]) =
    .ok (.pkt16x64 0x01 0x07 0x1234 0x0123456789ABCDEF 0) ∧
  decode (.wire (0x99 :: List.replicate 15 0)) = .error (.unassignedMagic 0x99)

/-- Decode and encode agree: every well-formed instruction, with every operand at every value, is what its encoding decodes to
(30_encoding.md). -/
def Obligations.DecodeInvertsEncode : Prop :=
  ∀ i : Instr, i.WellFormed → decode (encode i) = .ok i

/-- Encode inverts decode on the wire: 16 bytes that decode to an instruction are its encoding, so that no bit of a packet is
dropped (30_encoding.md section 2). -/
def Obligations.EncodeInvertsWireDecode : Prop :=
  ∀ (b : Buffer) (i : Instr), decode (.wire b.toList) = .ok i → encode i = .wire b.toList

/-- Byte 0 alone selects the variant (30_encoding.md section 3): 16 bytes whose first is one of the six magic bytes decode to the
packet of its variant, with the fields at that variant's offsets (20_memory.md section 5); any other byte 0 decodes to none. -/
def Obligations.ByteZeroSelectsVariant : Prop :=
  ∀ b : Buffer,
    (byteAt b 0 = 0x41 → decode (.wire b.toList) = .ok (.pkt8x8 (byteAt b 1) (byteAt b 2)
      (.ofNat 8 (leValue b 3 1)) (.ofNat 8 (leValue b 4 1)) (.ofNat 88 (leValue b 5 11)))) ∧
    (byteAt b 0 = 0x42 → decode (.wire b.toList) = .ok (.pkt8x16 (byteAt b 1) (byteAt b 2)
      (.ofNat 8 (leValue b 3 1)) (.ofNat 16 (leValue b 4 2)) (.ofNat 80 (leValue b 6 10)))) ∧
    (byteAt b 0 = 0x43 → decode (.wire b.toList) = .ok (.pkt8x32 (byteAt b 1) (byteAt b 2)
      (.ofNat 8 (leValue b 3 1)) (.ofNat 32 (leValue b 4 4)) (.ofNat 64 (leValue b 8 8)))) ∧
    (byteAt b 0 = 0x44 → decode (.wire b.toList) = .ok (.pkt8x64 (byteAt b 1) (byteAt b 2)
      (.ofNat 8 (leValue b 3 1)) (.ofNat 64 (leValue b 4 8)) (.ofNat 32 (leValue b 12 4)))) ∧
    (byteAt b 0 = 0x45 → decode (.wire b.toList) = .ok (.pkt16x64 (byteAt b 1) (byteAt b 2)
      (.ofNat 16 (leValue b 3 2)) (.ofNat 64 (leValue b 5 8)) (.ofNat 24 (leValue b 13 3)))) ∧
    (byteAt b 0 = 0x4B → decode (.wire b.toList) = .ok (.pkt32x32 (byteAt b 1) (byteAt b 2)
      (.ofNat 32 (leValue b 3 4)) (.ofNat 32 (leValue b 7 4)) (.ofNat 40 (leValue b 11 5)))) ∧
    (byteAt b 0 ∉ [0x41, 0x42, 0x43, 0x44, 0x45, 0x4B] →
      decode (.wire b.toList) = .error (.unassignedMagic (byteAt b 0)))

/-! ### Invariants -/

/-- Every invariant below holds after reset. -/
def Obligations.InvariantsHoldAtReset : Prop :=
  State.reset.PacketsWf ∧ State.reset.SessionWf ∧ State.reset.GateWf ∧ State.reset.WireWf ∧ State.reset.ExchangesWf ∧
    State.reset.wf = true ∧ ∀ n, State.reset.CallersBelow n

/-- Every step keeps the packets as their status says (10_state.md section 3): bound exactly when `Constructed` or `Decoded`, and
then with their descriptor's magic in byte 0, so that `BadMagic` cannot occur. -/
def Obligations.StepKeepsPacketsBound : Prop :=
  ∀ s t : State, s.PacketsWf → step s = .next t → t.PacketsWf

/-- Every step keeps the session's registers in agreement (10_state.md section 4), and the count of claims never falls. A `Ready` session keeps its handle, and one that becomes `Ready` has one, but in one case (log
15): a REESTABLISH that waited while another restored the session releases the handle and its own claim fails. -/
def Obligations.StepKeepsSessionRegisters : Prop :=
  ∀ s t : State, s.SessionWf → s.GateWf → step s = .next t →
    t.SessionWf ∧ s.session.claims ≤ t.session.claims ∧
    (t.session.state = .ready → t.session.handle = none →
      s.session.state = .ready ∧
        (s.session.handle = none ∨
          ∃ c h a, (s.caller c).held = some (.atReestablish h) ∧ a ≠ .ok ∧
            t.wire = s.wire ++ (s.session.handle.map WireEvent.release).toList ++ [.claim h a]))

/-- Mutual exclusion (20_memory.md sections 4 and 6): every step keeps the gate's invariant and the order of the wire, so that
two transfers never interleave and the second's transmit begins only after the first's receive has ended. -/
def Obligations.StepNeverInterleavesTransfers : Prop :=
  ∀ s t : State, s.GateWf → s.WireWf → step s = .next t → t.GateWf ∧ t.WireWf

/-- Every step keeps every caller's phase that of its operation, and what a held exchange carries on its own request
(10_state.md section 5, 43_exchange.md). -/
def Obligations.StepKeepsExchangePhases : Prop :=
  ∀ s t : State, s.ExchangesWf → step s = .next t → t.ExchangesWf

/-- Every step keeps the callers and their registers in canonical form (the model's representation, log 3). -/
def Obligations.StepKeepsCanonicalForm : Prop :=
  ∀ s t : State, s.wf = true → step s = .next t → t.wf = true

/-- A machine of `n` callers stays one: no step brings a caller from `n` on into being (00_scope.md section 4; log 10). -/
def Obligations.StepKeepsCallersBelow : Prop :=
  ∀ (n : Nat) (s t : State), s.CallersBelow n → step s = .next t → t.CallersBelow n

/-- No rule reads the bytes of an unbound packet (10_state.md section 6, 20_memory.md section 6): two states that differ in such
bytes alone answer every instruction, and every step, alike, and go on differing in such bytes alone. -/
def Obligations.StaleBytesAreNeverRead : Prop :=
  ∀ s s' : State, s.AgreesButStale s' →
    (∀ i, StepsAgree (exec i s) (exec i s')) ∧ StepsAgree (step s) (step s')

/-- No operation repeats a write or a read by itself (42_session.md section 4). A step adds to the wire at its end only, and no
transfers but these: one transmit, of an operation that has made none; one receive, of an operation in its RX step; or a whole
transmit and then its receive. A failed transmit, and any receive, leaves the caller held nowhere, its operation over. A caller
comes into its RX step only by a whole transmit of its own and leaves it only to be held nowhere; one held nowhere comes to be
held only by its next command. So a second transmit takes another command. -/
def Obligations.NoOperationRepeatsTransfer : Prop :=
  ∀ s t : State, step s = .next t →
    ∃ w, t.wire = s.wire ++ w ∧
      (transfersIn w = [] ∨
        (∃ c b a, transfersIn w = [.write c b a] ∧ MayTransmit s t c ∧
          (a = .ok → ∃ u, (t.caller c).held = some (.atReceive u)) ∧
          (a ≠ .ok → (t.caller c).held = none ∧ (t.caller c).ret ≠ none)) ∨
        (∃ c a, transfersIn w = [.read c a] ∧ (∃ u, (s.caller c).held = some (.atReceive u)) ∧
          (t.caller c).held = none ∧ (t.caller c).ret ≠ none) ∨
        ∃ c b a, transfersIn w = [.write c b .ok, .read c a] ∧ MayTransmit s t c ∧ (t.caller c).held = none ∧
          (t.caller c).ret ≠ none) ∧
      ∀ c u,
        ((t.caller c).held = some (.atReceive u) →
          (s.caller c).held = some (.atReceive u) ∨ ∃ b, transfersIn w = [.write c b .ok]) ∧
        ((s.caller c).held = some (.atReceive u) →
          (t.caller c).held = some (.atReceive u) ∨ (t.caller c).held = none) ∧
        ((s.caller c).held = none → (t.caller c).held = none ∨
          ∃ cmd left, takeIssued c s.issued = some (cmd, left) ∧ t.issued = left)
end

