-- ==== Sys2Proof/Laws/Bytes.lean ====
section
/-!
SUPPORT. The laws of buffers: one byte after each write, little-endian values after a packing (R13), and the layout of a
packet byte by byte (R47).
-/

namespace Sys2Proof.Machine

theorem byteAt_of_lt {buf : Buffer} {i : Nat} (h : i < 16) : byteAt buf i = buf[i] := by
  simp [byteAt, h]

theorem byteAt_of_ge {buf : Buffer} {i : Nat} (h : 16 ≤ i) : byteAt buf i = 0 := by
  have : ¬ i < Config.wireLength := Nat.not_lt.mpr h
  simp [byteAt, this]

/-- Buffers that agree at every offset are equal. -/
theorem buffer_ext {a b : Buffer} (h : ∀ i, i < 16 → byteAt a i = byteAt b i) : a = b := by
  apply Vector.ext
  intro i hi
  have := h i hi
  rwa [byteAt_of_lt hi, byteAt_of_lt hi] at this

@[simp] theorem byteAt_zeroBuffer (i : Nat) : byteAt zeroBuffer i = 0 := by
  by_cases h : i < 16
  · rw [byteAt_of_lt h]
    simp [zeroBuffer]
  · exact byteAt_of_ge (by omega)

theorem byteAt_putByte (buf : Buffer) (i : Nat) (v : Byte) (j : Nat) :
    byteAt (putByte buf i v) j = if j = i ∧ j < 16 then v else byteAt buf j := by
  by_cases h : j < 16
  · rw [byteAt_of_lt h, byteAt_of_lt h]
    simp [putByte, h]
  · rw [byteAt_of_ge (by omega), byteAt_of_ge (by omega)]
    simp [h]

theorem byteAt_memWrite (buf : Buffer) (off n v j : Nat) :
    byteAt (memWrite buf off n v) j = if off ≤ j ∧ j < off + n ∧ j < 16 then leByte v (j - off) else byteAt buf j := by
  by_cases h : j < 16
  · rw [byteAt_of_lt h, byteAt_of_lt h]
    simp [memWrite, h]
  · rw [byteAt_of_ge (by omega), byteAt_of_ge (by omega)]
    simp [h]

theorem byteAt_zeroFrom (buf : Buffer) (off j : Nat) :
    byteAt (zeroFrom buf off) j = if off ≤ j then 0 else byteAt buf j := by
  by_cases h : j < 16
  · rw [byteAt_of_lt h, byteAt_of_lt h]
    simp [zeroFrom]
  · rw [byteAt_of_ge (by omega), byteAt_of_ge (by omega)]
    simp

theorem byteAt_bufferOf (bytes : List Byte) (j : Nat) :
    byteAt (bufferOf bytes) j = if j < 16 then bytes.getD j 0 else 0 := by
  by_cases h : j < 16
  · rw [byteAt_of_lt h]
    simp [bufferOf, h]
  · rw [byteAt_of_ge (by omega)]
    simp [h]

/-- Reading a buffer's bytes back gives the buffer. -/
@[simp] theorem bufferOf_toList (buf : Buffer) : bufferOf buf.toList = buf := by
  apply buffer_ext
  intro i hi
  rw [byteAt_bufferOf, if_pos hi, byteAt_of_lt hi]
  simp [List.getD_eq_getElem?_getD, hi]

@[simp] theorem toList_length (buf : Buffer) : buf.toList.length = 16 := by simp

theorem toNat_leByte (v k : Nat) : (leByte v k).toNat = v / 256 ^ k % 256 := by
  simp [leByte]

@[simp] theorem leByte_zero (k : Nat) : leByte 0 k = 0 := by simp [leByte]

/-- Unpacking reads only the bytes of its range. -/
theorem leValue_congr {a b : Buffer} {off n : Nat} (h : ∀ j, off ≤ j → j < off + n → byteAt a j = byteAt b j) :
    leValue a off n = leValue b off n := by
  induction n generalizing off with
  | zero => rfl
  | succ n ih =>
    simp only [leValue]
    rw [h off (Nat.le_refl _) (by omega), ih fun j h1 h2 => h j (by omega) (by omega)]

/-- `n` bytes hold at most `256^n - 1` (R65). -/
theorem leValue_lt (buf : Buffer) (off n : Nat) : leValue buf off n < 256 ^ n := by
  induction n generalizing off with
  | zero => simp [leValue]
  | succ n ih =>
    simp only [leValue, Nat.pow_succ]
    have h1 := (byteAt buf off).isLt
    have h2 := ih (off + 1)
    have h3 : 2 ^ 8 = 256 := rfl
    omega

theorem leValue_of_leBytes {buf : Buffer} {off n v : Nat}
    (h : ∀ j, j < n → byteAt buf (off + j) = leByte v j) : leValue buf off n = v % 256 ^ n := by
  induction n generalizing off v with
  | zero => simp [leValue, Nat.mod_one]
  | succ n ih =>
    have h0 := h 0 (by omega)
    have hs : leValue buf (off + 1) n = v / 256 % 256 ^ n := by
      apply ih
      intro j hj
      have := h (j + 1) (by omega)
      rw [show off + 1 + j = off + (j + 1) by omega, this]
      simp [leByte, Nat.pow_succ, Nat.div_div_eq_div_mul, Nat.mul_comm]
    simp only [leValue, hs]
    have h1 : byteAt buf off = leByte v 0 := by simpa using h0
    rw [h1, toNat_leByte, Nat.pow_zero, Nat.div_one, Nat.pow_succ, Nat.mul_comm (256 ^ n) 256, Nat.mod_mul]

/-- `LE(LEBytes(v, n), 0, n) = v` for every `v < 256^n`, at any place that fits (R13). -/
theorem leValue_memWrite {buf : Buffer} {off n v : Nat} (hv : v < 256 ^ n) (hn : off + n ≤ 16) :
    leValue (memWrite buf off n v) off n = v := by
  rw [leValue_of_leBytes (v := v), Nat.mod_eq_of_lt hv]
  intro j hj
  rw [byteAt_memWrite, if_pos (by omega), Nat.add_sub_cancel_left]

/-- Unpacking outside a packing is as before. -/
theorem leValue_memWrite_of_disjoint {buf : Buffer} {off n v off' n' : Nat}
    (h : off' + n' ≤ off ∨ off + n ≤ off') : leValue (memWrite buf off n v) off' n' = leValue buf off' n' := by
  apply leValue_congr
  intro j h1 h2
  rw [byteAt_memWrite, if_neg (by omega)]

theorem leValue_zeroFrom_of_le {buf : Buffer} {p off n : Nat} (h : off + n ≤ p) :
    leValue (zeroFrom buf p) off n = leValue buf off n := by
  apply leValue_congr
  intro j h1 h2
  rw [byteAt_zeroFrom, if_neg (by omega)]

/-! ### The layout -/

/-- Address, data and padding fit in the packet (R10, R39). -/
theorem paddingStart_le (v : Variant) : paddingStart v ≤ 13 := by cases v <;> decide

theorem dataStart_le (v : Variant) : 4 ≤ dataStart v ∧ dataStart v ≤ paddingStart v := by cases v <;> decide

theorem dataStart_eq (v : Variant) : dataStart v = 3 + addressBytes v := rfl

theorem paddingStart_eq (v : Variant) : paddingStart v = dataStart v + dataBytes v := rfl

theorem addressWidth_eq (v : Variant) : 2 ^ addressWidth v = 256 ^ addressBytes v := by cases v <;> decide

theorem dataWidth_eq (v : Variant) : 2 ^ dataWidth v = 256 ^ dataBytes v := by cases v <;> decide

/-- The bytes of a packet (R47). -/
theorem byteAt_wireLayout (v : Variant) (f t : Byte) (a d p i : Nat) (hi : i < 16) :
    byteAt (wireLayout v f t a d p) i =
      if i = 0 then magicOf v
      else if i = 1 then f
      else if i = 2 then t
      else if i < dataStart v then leByte a (i - 3)
      else if i < paddingStart v then leByte d (i - dataStart v)
      else leByte p (i - paddingStart v) := by
  have h1 := dataStart_le v
  have h2 := paddingStart_le v
  have h3 := dataStart_eq v
  have h4 := paddingStart_eq v
  have hl : Config.wireLength = 16 := rfl
  simp only [wireLayout, byteAt_memWrite, byteAt_putByte, byteAt_zeroBuffer, hl]
  generalize magicOf v = m
  generalize dataStart v = A at *
  generalize paddingStart v = P at *
  generalize addressBytes v = x at *
  generalize dataBytes v = y at *
  subst h3 h4
  split_ifs <;> first | rfl | omega

/-- A constructed packet is the layout with zero padding (R47, R50, R62). -/
theorem constructed_buf (v : Variant) (t f a d : Nat) :
    (constructed v t f a d).buf = wireLayout v (BitVec.ofNat 8 f) (BitVec.ofNat 8 t) a d 0 := by
  apply buffer_ext
  intro i hi
  have h1 := dataStart_le v
  have h2 := paddingStart_le v
  have h3 := dataStart_eq v
  have h4 := paddingStart_eq v
  rw [byteAt_wireLayout _ _ _ _ _ _ _ hi]
  simp only [constructed, byteAt_memWrite, byteAt_putByte, byteAt_zeroBuffer, leByte_zero]
  generalize magicOf v = m
  generalize dataStart v = A at *
  generalize paddingStart v = P at *
  generalize addressBytes v = x at *
  generalize dataBytes v = y at *
  subst h3 h4
  split_ifs <;> first | rfl | omega

theorem leValue_wireLayout_address (v : Variant) (f t : Byte) (a d p : Nat) (ha : a < 2 ^ addressWidth v) :
    leValue (wireLayout v f t a d p) 3 (addressBytes v) = a := by
  have h1 := dataStart_le v
  have h2 := paddingStart_le v
  have h3 := dataStart_eq v
  rw [leValue_of_leBytes (v := a), ← addressWidth_eq, Nat.mod_eq_of_lt ha]
  intro j hj
  rw [byteAt_wireLayout _ _ _ _ _ _ _ (by omega), if_neg (by omega), if_neg (by omega), if_neg (by omega),
    if_pos (by omega), Nat.add_sub_cancel_left]

theorem leValue_wireLayout_data (v : Variant) (f t : Byte) (a d p : Nat) (hd : d < 2 ^ dataWidth v) :
    leValue (wireLayout v f t a d p) (dataStart v) (dataBytes v) = d := by
  have h1 := dataStart_le v
  have h2 := paddingStart_le v
  have h4 := paddingStart_eq v
  rw [leValue_of_leBytes (v := d), ← dataWidth_eq, Nat.mod_eq_of_lt hd]
  intro j hj
  rw [byteAt_wireLayout _ _ _ _ _ _ _ (by omega), if_neg (by omega), if_neg (by omega), if_neg (by omega),
    if_neg (by omega), if_pos (by omega), Nat.add_sub_cancel_left]

theorem leValue_wireLayout_padding (v : Variant) (f t : Byte) (a d p : Nat) (hp : p < 256 ^ (16 - paddingStart v)) :
    leValue (wireLayout v f t a d p) (paddingStart v) (16 - paddingStart v) = p := by
  have h1 := dataStart_le v
  have h2 := paddingStart_le v
  rw [leValue_of_leBytes (v := p), Nat.mod_eq_of_lt hp]
  intro j hj
  rw [byteAt_wireLayout _ _ _ _ _ _ _ (by omega), if_neg (by omega), if_neg (by omega), if_neg (by omega),
    if_neg (by omega), if_neg (by omega), Nat.add_sub_cancel_left]

/-- Packing what was unpacked gives the bytes back (R13). -/
theorem leByte_leValue (buf : Buffer) (off n j : Nat) (h : j < n) : leByte (leValue buf off n) j = byteAt buf (off + j) := by
  induction n generalizing off j with
  | zero => omega
  | succ n ih =>
    apply BitVec.eq_of_toNat_eq
    have hb := (byteAt buf off).isLt
    cases j with
    | zero =>
      rw [toNat_leByte]
      simp only [leValue, pow_zero, Nat.div_one, Nat.add_zero]
      omega
    | succ j =>
      rw [show off + (j + 1) = off + 1 + j by omega, ← ih (off + 1) j (by omega), toNat_leByte, toNat_leByte, pow_succ,
        Nat.mul_comm (256 ^ j) 256, ← Nat.div_div_eq_div_mul]
      simp only [leValue]
      rw [show ((byteAt buf off).toNat + 256 * leValue buf (off + 1) n) / 256 = leValue buf (off + 1) n by omega]

/-- Laying out the fields of 16 bytes gives the bytes back: no bit of a packet belongs to no field (R47). -/
theorem wireLayout_fields (v : Variant) (buf : Buffer) (h : byteAt buf 0 = magicOf v) :
    wireLayout v (byteAt buf 1) (byteAt buf 2) (leValue buf 3 (addressBytes v)) (leValue buf (dataStart v) (dataBytes v))
      (leValue buf (paddingStart v) (16 - paddingStart v)) = buf := by
  have h1 := dataStart_le v
  have h2 := paddingStart_le v
  have h3 := dataStart_eq v
  have h4 := paddingStart_eq v
  apply buffer_ext
  intro i hi
  rw [byteAt_wireLayout _ _ _ _ _ _ _ hi]
  by_cases e0 : i = 0
  · simp [e0, h]
  by_cases e1 : i = 1
  · simp [e1]
  by_cases e2 : i = 2
  · simp [e2]
  simp only [e0, e1, e2, if_false]
  split
  · rw [leByte_leValue _ _ _ _ (by omega), Nat.add_sub_of_le (by omega)]
  · split
    · rw [leByte_leValue _ _ _ _ (by omega), Nat.add_sub_of_le (by omega)]
    · rw [leByte_leValue _ _ _ _ (by omega), Nat.add_sub_of_le (by omega)]

/-- The descriptor of a variant's own magic byte is that variant: the table is a bijection (R18). -/
theorem variantOfMagic_magicOf (v : Variant) : variantOfMagic (magicOf v).toNat = some v := by cases v <;> decide

end Sys2Proof.Machine
end

