-- ==== Sys2Proof/Laws/Store.lean ====
section
/-!
SUPPORT. The laws of data by number: a read after a write, and every write keeps the canonical form.
-/

namespace Sys2Proof.Machine

variable {α : Type} (unlisted : α)

theorem storeGet_insert (m : List (Nat × α)) (a : Nat) (v : α) (b : Nat) :
    storeGet unlisted (storeInsert a v m) b = if b = a then v else storeGet unlisted m b := by
  induction m with
  | nil => simp [storeInsert, storeGet]
  | cons kw rest ih =>
    obtain ⟨k, w⟩ := kw
    simp only [storeInsert]
    by_cases h1 : a < k
    · simp only [h1, if_true, storeGet]
    · by_cases h2 : a = k
      · subst h2
        by_cases hb : b = a <;> simp [storeGet, hb]
      · simp only [h1, h2, if_false, storeGet, ih]
        by_cases hb : b = k
        · subst hb
          simp [Ne.symm h2]
        · simp [hb]

theorem storeGet_erase (m : List (Nat × α)) (a b : Nat) :
    storeGet unlisted (storeErase a m) b = if b = a then unlisted else storeGet unlisted m b := by
  induction m with
  | nil => simp [storeErase, storeGet]
  | cons kw rest ih =>
    obtain ⟨k, w⟩ := kw
    simp only [storeErase]
    by_cases h2 : a = k
    · subst h2
      simp only [if_true, ih, storeGet]
      split <;> rfl
    · simp only [h2, if_false, storeGet, ih]
      by_cases hb : b = k
      · subst hb
        simp [Ne.symm h2]
      · simp [hb]

/-- Reading after a write: the value written, and every other number as before. -/
theorem storeGet_set [DecidableEq α] (m : List (Nat × α)) (a : Nat) (v : α) (b : Nat) :
    storeGet unlisted (storeSet unlisted m a v) b = if b = a then v else storeGet unlisted m b := by
  unfold storeSet
  split
  · next h => rw [storeGet_erase, h]
  · rw [storeGet_insert]

/-- What a number reads as is the unlisted value or that of an entry. -/
theorem storeGet_mem (m : List (Nat × α)) (a : Nat) :
    storeGet unlisted m a = unlisted ∨ ∃ k, (k, storeGet unlisted m a) ∈ m := by
  induction m with
  | nil => exact .inl rfl
  | cons kw rest ih =>
    obtain ⟨k, w⟩ := kw
    simp only [storeGet]
    split
    · exact .inr ⟨k, List.mem_cons_self⟩
    · rcases ih with h | ⟨k', h⟩
      · exact .inl h
      · exact .inr ⟨k', List.mem_cons_of_mem _ h⟩

theorem storeWfFrom_weaken [DecidableEq α] {m : List (Nat × α)} {lo lo' : Nat} (hl : lo' ≤ lo)
    (h : storeWfFrom unlisted lo m = true) : storeWfFrom unlisted lo' m = true := by
  cases m with
  | nil => rfl
  | cons kw rest =>
    obtain ⟨k, v⟩ := kw
    simp only [storeWfFrom, Bool.and_eq_true, decide_eq_true_eq] at h ⊢
    exact ⟨⟨by omega, h.1.2⟩, h.2⟩

theorem storeWfFrom_insert [DecidableEq α] (m : List (Nat × α)) (lo a : Nat) (v : α) (hv : v ≠ unlisted) (ha : lo ≤ a)
    (h : storeWfFrom unlisted lo m = true) : storeWfFrom unlisted lo (storeInsert a v m) = true := by
  induction m generalizing lo with
  | nil => simp [storeInsert, storeWfFrom, hv, ha]
  | cons kw rest ih =>
    obtain ⟨k, w⟩ := kw
    simp only [storeWfFrom, Bool.and_eq_true, decide_eq_true_eq] at h
    simp only [storeInsert]
    by_cases h1 : a < k
    · simp only [h1, if_true, storeWfFrom, Bool.and_eq_true, decide_eq_true_eq]
      exact ⟨⟨ha, hv⟩, ⟨⟨by omega, h.1.2⟩, h.2⟩⟩
    · by_cases h2 : a = k
      · subst h2
        simp only [lt_irrefl, if_true, if_false, storeWfFrom, Bool.and_eq_true, decide_eq_true_eq]
        exact ⟨⟨ha, hv⟩, h.2⟩
      · simp only [h1, h2, if_false, storeWfFrom, Bool.and_eq_true, decide_eq_true_eq]
        exact ⟨h.1, ih (k + 1) (by omega) h.2⟩

theorem storeWfFrom_erase [DecidableEq α] (m : List (Nat × α)) (lo a : Nat)
    (h : storeWfFrom unlisted lo m = true) : storeWfFrom unlisted lo (storeErase a m) = true := by
  induction m generalizing lo with
  | nil => rfl
  | cons kw rest ih =>
    obtain ⟨k, w⟩ := kw
    simp only [storeWfFrom, Bool.and_eq_true, decide_eq_true_eq] at h
    simp only [storeErase]
    by_cases h2 : a = k
    · simp only [h2, if_true]
      subst h2
      exact storeWfFrom_weaken unlisted (by omega) (ih (a + 1) h.2)
    · simp only [h2, if_false, storeWfFrom, Bool.and_eq_true, decide_eq_true_eq]
      exact ⟨h.1, ih (k + 1) h.2⟩

/-- Every write keeps the canonical form. -/
theorem storeWf_set [DecidableEq α] (m : List (Nat × α)) (a : Nat) (v : α) (h : storeWf unlisted m = true) :
    storeWf unlisted (storeSet unlisted m a v) = true := by
  unfold storeSet storeWf at *
  split
  · exact storeWfFrom_erase unlisted m 0 a h
  · next hv => exact storeWfFrom_insert unlisted m 0 a v hv (Nat.zero_le a) h

theorem mem_storeErase {m : List (Nat × α)} {a : Nat} {kv : Nat × α} (h : kv ∈ storeErase a m) : kv ∈ m := by
  induction m with
  | nil => simp [storeErase] at h
  | cons kw rest ih =>
    obtain ⟨k, w⟩ := kw
    simp only [storeErase] at h
    by_cases h2 : a = k
    · simp only [h2, if_true] at h
      subst h2
      exact List.mem_cons_of_mem _ (ih h)
    · simp only [h2, if_false, List.mem_cons] at h
      rcases h with h | h
      · exact h ▸ List.mem_cons_self
      · exact List.mem_cons_of_mem _ (ih h)

theorem mem_storeInsert {m : List (Nat × α)} {a : Nat} {v : α} {kv : Nat × α} (h : kv ∈ storeInsert a v m) :
    kv = (a, v) ∨ kv ∈ m := by
  induction m with
  | nil => simpa [storeInsert] using h
  | cons kw rest ih =>
    obtain ⟨k, w⟩ := kw
    simp only [storeInsert] at h
    split at h
    · simpa using h
    · split at h
      · rcases List.mem_cons.1 h with h | h
        · exact .inl h
        · exact .inr (List.mem_cons_of_mem _ h)
      · rcases List.mem_cons.1 h with h | h
        · exact .inr (h ▸ List.mem_cons_self)
        · rcases ih h with h | h
          · exact .inl h
          · exact .inr (List.mem_cons_of_mem _ h)

/-- An entry after a write is the one written or one that was there. -/
theorem mem_storeSet [DecidableEq α] {m : List (Nat × α)} {a : Nat} {v : α} {kv : Nat × α}
    (h : kv ∈ storeSet unlisted m a v) : kv = (a, v) ∨ kv ∈ m := by
  unfold storeSet at h
  split at h
  · exact .inr (mem_storeErase h)
  · exact mem_storeInsert h

/-- A number below the list's first reads as unlisted. -/
theorem storeGet_lt [DecidableEq α] {m : List (Nat × α)} {lo a : Nat} (h : storeWfFrom unlisted lo m = true)
    (ha : a < lo) : storeGet unlisted m a = unlisted := by
  induction m generalizing lo with
  | nil => rfl
  | cons kw rest ih =>
    obtain ⟨k, w⟩ := kw
    simp only [storeWfFrom, Bool.and_eq_true, decide_eq_true_eq] at h
    have hk : a ≠ k := by omega
    simp only [storeGet, hk, if_false]
    exact ih h.2 (by omega)

theorem storeWfFrom_ext [DecidableEq α] {m n : List (Nat × α)} {lo lo' : Nat} (hm : storeWfFrom unlisted lo m = true)
    (hn : storeWfFrom unlisted lo' n = true) (h : ∀ a, storeGet unlisted m a = storeGet unlisted n a) : m = n := by
  induction m generalizing lo lo' n with
  | nil =>
    cases n with
    | nil => rfl
    | cons kw rest =>
      obtain ⟨k, w⟩ := kw
      simp only [storeWfFrom, Bool.and_eq_true, decide_eq_true_eq] at hn
      have := h k
      simp only [storeGet, if_true] at this
      exact absurd this.symm hn.1.2
  | cons kw rest ih =>
    obtain ⟨k, w⟩ := kw
    simp only [storeWfFrom, Bool.and_eq_true, decide_eq_true_eq] at hm
    cases n with
    | nil =>
      have := h k
      simp only [storeGet, if_true] at this
      exact absurd this hm.1.2
    | cons kx rest' =>
      obtain ⟨k', w'⟩ := kx
      simp only [storeWfFrom, Bool.and_eq_true, decide_eq_true_eq] at hn
      have hk : k = k' := by
        rcases Nat.lt_trichotomy k k' with hlt | heq | hgt
        · have := h k
          simp only [storeGet, if_true, Nat.ne_of_lt hlt, if_false] at this
          exact absurd (this.trans (storeGet_lt unlisted hn.2 (by omega))) hm.1.2
        · exact heq
        · have := h k'
          simp only [storeGet, if_true, Nat.ne_of_lt hgt, if_false] at this
          exact absurd (this.symm.trans (storeGet_lt unlisted hm.2 (by omega))) hn.1.2
      subst hk
      have hw : w = w' := by
        have := h k
        simpa [storeGet] using this
      subst hw
      congr 1
      refine ih hm.2 hn.2 fun a => ?_
      have := h a
      by_cases ha : a = k
      · subst ha
        rw [storeGet_lt unlisted hm.2 (by omega), storeGet_lt unlisted hn.2 (by omega)]
      · simpa [storeGet, ha] using this

/-- Equal data where every number reads the same: the canonical form is one. -/
theorem storeWf_ext [DecidableEq α] {m n : List (Nat × α)} (hm : storeWf unlisted m = true)
    (hn : storeWf unlisted n = true) (h : ∀ a, storeGet unlisted m a = storeGet unlisted n a) : m = n :=
  storeWfFrom_ext unlisted hm hn h

end Sys2Proof.Machine
end

