-- ==== Sys2Proof/Laws/State.lean ====
section
/-!
SUPPORT. One lemma per field per update of the state, so that no proof unfolds a record update. All are true by rfl but
for reading a caller or a packet register after a write, which are the store's read after write.
-/

namespace Sys2Proof.Machine

/-! ### A caller -/

@[simp] theorem Caller.finish_xs_phase (k : Caller) (x : Result Value) : (k.finish x).xs.phase = k.xs.phase := rfl
@[simp] theorem Caller.finish_xs_req (k : Caller) (x : Result Value) : (k.finish x).xs.req = k.xs.req := rfl
@[simp] theorem Caller.finish_xs_resp (k : Caller) (x : Result Value) : (k.finish x).xs.resp = k.xs.resp := rfl
@[simp] theorem Caller.finish_xs_respBytes (k : Caller) (x : Result Value) : (k.finish x).xs.respBytes = k.xs.respBytes := rfl
@[simp] theorem Caller.finish_xs_result (k : Caller) (x : Result Value) : (k.finish x).xs.result = k.xs.result := rfl
@[simp] theorem Caller.finish_xs_path (k : Caller) (x : Result Value) : (k.finish x).xs.path = k.xs.path := rfl
@[simp] theorem Caller.finish_regs (k : Caller) (x : Result Value) : (k.finish x).regs = k.regs := rfl
@[simp] theorem Caller.finish_held (k : Caller) (x : Result Value) : (k.finish x).held = none := rfl
@[simp] theorem Caller.finish_ret (k : Caller) (x : Result Value) : (k.finish x).ret = some x := rfl
@[simp] theorem Caller.finish_packet (k : Caller) (x : Result Value) (r : PacketReg) : (k.finish x).packet r = k.packet r := by
  cases r <;> rfl

@[simp] theorem Caller.hold_xs_phase (k : Caller) (h : Held) : (k.hold h).xs.phase = k.xs.phase := rfl
@[simp] theorem Caller.hold_xs_req (k : Caller) (h : Held) : (k.hold h).xs.req = k.xs.req := rfl
@[simp] theorem Caller.hold_xs_resp (k : Caller) (h : Held) : (k.hold h).xs.resp = k.xs.resp := rfl
@[simp] theorem Caller.hold_xs_respBytes (k : Caller) (h : Held) : (k.hold h).xs.respBytes = k.xs.respBytes := rfl
@[simp] theorem Caller.hold_xs_result (k : Caller) (h : Held) : (k.hold h).xs.result = k.xs.result := rfl
@[simp] theorem Caller.hold_xs_path (k : Caller) (h : Held) : (k.hold h).xs.path = k.xs.path := rfl
@[simp] theorem Caller.hold_regs (k : Caller) (h : Held) : (k.hold h).regs = k.regs := rfl
@[simp] theorem Caller.hold_held (k : Caller) (h : Held) : (k.hold h).held = some h := rfl
@[simp] theorem Caller.hold_ret (k : Caller) (h : Held) : (k.hold h).ret = none := rfl
@[simp] theorem Caller.hold_packet (k : Caller) (h : Held) (r : PacketReg) : (k.hold h).packet r = k.packet r := by
  cases r <;> rfl

@[simp] theorem Caller.enter_xs_phase (k : Caller) (ph : Phase) : (k.enter ph).xs.phase = ph := rfl
@[simp] theorem Caller.enter_xs_req (k : Caller) (ph : Phase) : (k.enter ph).xs.req = k.xs.req := rfl
@[simp] theorem Caller.enter_xs_resp (k : Caller) (ph : Phase) : (k.enter ph).xs.resp = k.xs.resp := rfl
@[simp] theorem Caller.enter_xs_respBytes (k : Caller) (ph : Phase) : (k.enter ph).xs.respBytes = k.xs.respBytes := rfl
@[simp] theorem Caller.enter_xs_result (k : Caller) (ph : Phase) : (k.enter ph).xs.result = k.xs.result := rfl
@[simp] theorem Caller.enter_xs_path (k : Caller) (ph : Phase) : (k.enter ph).xs.path = k.xs.path ++ [ph] := rfl
@[simp] theorem Caller.enter_regs (k : Caller) (ph : Phase) : (k.enter ph).regs = k.regs := rfl
@[simp] theorem Caller.enter_held (k : Caller) (ph : Phase) : (k.enter ph).held = k.held := rfl
@[simp] theorem Caller.enter_ret (k : Caller) (ph : Phase) : (k.enter ph).ret = k.ret := rfl
@[simp] theorem Caller.enter_packet (k : Caller) (ph : Phase) (r : PacketReg) : (k.enter ph).packet r = k.packet r := by
  cases r <;> rfl

@[simp] theorem Caller.beginExchange_xs_phase (k : Caller) : (k.beginExchange).xs.phase = k.xs.phase := rfl
@[simp] theorem Caller.beginExchange_xs_req (k : Caller) : (k.beginExchange).xs.req = k.xs.req := rfl
@[simp] theorem Caller.beginExchange_xs_resp (k : Caller) : (k.beginExchange).xs.resp = k.xs.resp := rfl
@[simp] theorem Caller.beginExchange_xs_respBytes (k : Caller) : (k.beginExchange).xs.respBytes = k.xs.respBytes := rfl
@[simp] theorem Caller.beginExchange_xs_result (k : Caller) : (k.beginExchange).xs.result = k.xs.result := rfl
@[simp] theorem Caller.beginExchange_xs_path (k : Caller) : (k.beginExchange).xs.path = [k.xs.phase] := rfl
@[simp] theorem Caller.beginExchange_regs (k : Caller) : (k.beginExchange).regs = k.regs := rfl
@[simp] theorem Caller.beginExchange_held (k : Caller) : (k.beginExchange).held = k.held := rfl
@[simp] theorem Caller.beginExchange_ret (k : Caller) : (k.beginExchange).ret = k.ret := rfl
@[simp] theorem Caller.beginExchange_packet (k : Caller) (r : PacketReg) : (k.beginExchange).packet r = k.packet r := by
  cases r <;> rfl

@[simp] theorem Caller.settle_xs_phase (k : Caller) (ph : Phase) (x : Result DecodedResponse) : (k.settle ph x).xs.phase = .idle := rfl
@[simp] theorem Caller.settle_xs_req (k : Caller) (ph : Phase) (x : Result DecodedResponse) : (k.settle ph x).xs.req = k.xs.req := rfl
@[simp] theorem Caller.settle_xs_resp (k : Caller) (ph : Phase) (x : Result DecodedResponse) : (k.settle ph x).xs.resp = k.xs.resp := rfl
@[simp] theorem Caller.settle_xs_respBytes (k : Caller) (ph : Phase) (x : Result DecodedResponse) : (k.settle ph x).xs.respBytes = k.xs.respBytes := rfl
@[simp] theorem Caller.settle_xs_result (k : Caller) (ph : Phase) (x : Result DecodedResponse) : (k.settle ph x).xs.result = some x := rfl
@[simp] theorem Caller.settle_xs_path (k : Caller) (ph : Phase) (x : Result DecodedResponse) : (k.settle ph x).xs.path = k.xs.path ++ [ph] ++ [.idle] := rfl
@[simp] theorem Caller.settle_regs (k : Caller) (ph : Phase) (x : Result DecodedResponse) : (k.settle ph x).regs = k.regs := rfl
@[simp] theorem Caller.settle_held (k : Caller) (ph : Phase) (x : Result DecodedResponse) : (k.settle ph x).held = none := rfl
@[simp] theorem Caller.settle_ret (k : Caller) (ph : Phase) (x : Result DecodedResponse) : (k.settle ph x).ret = some (resultMap .response x) := rfl
@[simp] theorem Caller.settle_packet (k : Caller) (ph : Phase) (x : Result DecodedResponse) (r : PacketReg) : (k.settle ph x).packet r = k.packet r := by
  cases r <;> rfl

theorem Caller.setPacket_packet (k : Caller) (r : PacketReg) (q : Packet) (r' : PacketReg) :
    (k.setPacket r q).packet r' = if r' = r then q else k.packet r' := by
  cases r <;> cases r' <;> simp [Caller.setPacket, Caller.packet, storeGet_set]

@[simp] theorem Caller.setPacket_packet_self (k : Caller) (r : PacketReg) (q : Packet) :
    (k.setPacket r q).packet r = q := by
  simp [Caller.setPacket_packet]

@[simp] theorem Caller.setPacket_xs_phase (k : Caller) (r : PacketReg) (q : Packet) :
    (k.setPacket r q).xs.phase = k.xs.phase := by
  cases r <;> rfl
@[simp] theorem Caller.setPacket_xs_respBytes (k : Caller) (r : PacketReg) (q : Packet) :
    (k.setPacket r q).xs.respBytes = k.xs.respBytes := by
  cases r <;> rfl
@[simp] theorem Caller.setPacket_xs_result (k : Caller) (r : PacketReg) (q : Packet) :
    (k.setPacket r q).xs.result = k.xs.result := by
  cases r <;> rfl
@[simp] theorem Caller.setPacket_xs_path (k : Caller) (r : PacketReg) (q : Packet) :
    (k.setPacket r q).xs.path = k.xs.path := by
  cases r <;> rfl
@[simp] theorem Caller.setPacket_held (k : Caller) (r : PacketReg) (q : Packet) :
    (k.setPacket r q).held = k.held := by
  cases r <;> rfl
@[simp] theorem Caller.setPacket_ret (k : Caller) (r : PacketReg) (q : Packet) :
    (k.setPacket r q).ret = k.ret := by
  cases r <;> rfl

/-! ### The state -/

theorem State.caller_mapCaller (s : State) (c : CallerId) (f : Caller → Caller) (c' : CallerId) :
    (s.mapCaller c f).caller c' = if c' = c then f (s.caller c) else s.caller c' := by
  simp only [State.caller, State.mapCaller, storeGet_set]

@[simp] theorem State.caller_mapCaller_self (s : State) (c : CallerId) (f : Caller → Caller) :
    (s.mapCaller c f).caller c = f (s.caller c) := by
  simp [State.caller_mapCaller]

theorem State.caller_mapCaller_other (s : State) {c c' : CallerId} (f : Caller → Caller) (h : c' ≠ c) :
    (s.mapCaller c f).caller c' = s.caller c' := by
  simp [State.caller_mapCaller, h]

@[simp] theorem State.mapCaller_session (s : State) (c : CallerId) (f : Caller → Caller) : (s.mapCaller c f).session = s.session := rfl
@[simp] theorem State.mapCaller_issued (s : State) (c : CallerId) (f : Caller → Caller) : (s.mapCaller c f).issued = s.issued := rfl
@[simp] theorem State.mapCaller_schedule (s : State) (c : CallerId) (f : Caller → Caller) : (s.mapCaller c f).schedule = s.schedule := rfl
@[simp] theorem State.mapCaller_transport (s : State) (c : CallerId) (f : Caller → Caller) : (s.mapCaller c f).transport = s.transport := rfl
@[simp] theorem State.mapCaller_wire (s : State) (c : CallerId) (f : Caller → Caller) : (s.mapCaller c f).wire = s.wire := rfl

@[simp] theorem State.setPacket_session (s : State) (c : CallerId) (r : PacketReg) (q : Packet) : (s.setPacket c r q).session = s.session := rfl
@[simp] theorem State.setPacket_issued (s : State) (c : CallerId) (r : PacketReg) (q : Packet) : (s.setPacket c r q).issued = s.issued := rfl
@[simp] theorem State.setPacket_schedule (s : State) (c : CallerId) (r : PacketReg) (q : Packet) : (s.setPacket c r q).schedule = s.schedule := rfl
@[simp] theorem State.setPacket_transport (s : State) (c : CallerId) (r : PacketReg) (q : Packet) : (s.setPacket c r q).transport = s.transport := rfl
@[simp] theorem State.setPacket_wire (s : State) (c : CallerId) (r : PacketReg) (q : Packet) : (s.setPacket c r q).wire = s.wire := rfl

@[simp] theorem State.succeed_session (s : State) (c : CallerId) (v : Value) : (s.succeed c v).session = s.session := rfl
@[simp] theorem State.succeed_issued (s : State) (c : CallerId) (v : Value) : (s.succeed c v).issued = s.issued := rfl
@[simp] theorem State.succeed_schedule (s : State) (c : CallerId) (v : Value) : (s.succeed c v).schedule = s.schedule := rfl
@[simp] theorem State.succeed_transport (s : State) (c : CallerId) (v : Value) : (s.succeed c v).transport = s.transport := rfl
@[simp] theorem State.succeed_wire (s : State) (c : CallerId) (v : Value) : (s.succeed c v).wire = s.wire := rfl

@[simp] theorem State.raise_session (s : State) (c : CallerId) (e : Error) : (s.raise c e).session = s.session := rfl
@[simp] theorem State.raise_issued (s : State) (c : CallerId) (e : Error) : (s.raise c e).issued = s.issued := rfl
@[simp] theorem State.raise_schedule (s : State) (c : CallerId) (e : Error) : (s.raise c e).schedule = s.schedule := rfl
@[simp] theorem State.raise_transport (s : State) (c : CallerId) (e : Error) : (s.raise c e).transport = s.transport := rfl
@[simp] theorem State.raise_wire (s : State) (c : CallerId) (e : Error) : (s.raise c e).wire = s.wire := rfl

@[simp] theorem State.hold_session (s : State) (c : CallerId) (h : Held) : (s.hold c h).session = s.session := rfl
@[simp] theorem State.hold_issued (s : State) (c : CallerId) (h : Held) : (s.hold c h).issued = s.issued := rfl
@[simp] theorem State.hold_schedule (s : State) (c : CallerId) (h : Held) : (s.hold c h).schedule = s.schedule := rfl
@[simp] theorem State.hold_transport (s : State) (c : CallerId) (h : Held) : (s.hold c h).transport = s.transport := rfl
@[simp] theorem State.hold_wire (s : State) (c : CallerId) (h : Held) : (s.hold c h).wire = s.wire := rfl

@[simp] theorem State.setHolder_session (s : State) (x : Option CallerId) : (s.setHolder x).session = { s.session with holder := x } := rfl
@[simp] theorem State.setHolder_callers (s : State) (x : Option CallerId) : (s.setHolder x).callers = s.callers := rfl
@[simp] theorem State.setHolder_issued (s : State) (x : Option CallerId) : (s.setHolder x).issued = s.issued := rfl
@[simp] theorem State.setHolder_schedule (s : State) (x : Option CallerId) : (s.setHolder x).schedule = s.schedule := rfl
@[simp] theorem State.setHolder_transport (s : State) (x : Option CallerId) : (s.setHolder x).transport = s.transport := rfl
@[simp] theorem State.setHolder_wire (s : State) (x : Option CallerId) : (s.setHolder x).wire = s.wire := rfl
@[simp] theorem State.setHolder_caller (s : State) (x : Option CallerId) (c' : CallerId) :
    (s.setHolder x).caller c' = s.caller c' := rfl

@[simp] theorem State.degrade_session (s : State) : (s.degrade).session = { s.session with state := .degraded } := rfl
@[simp] theorem State.degrade_callers (s : State) : (s.degrade).callers = s.callers := rfl
@[simp] theorem State.degrade_issued (s : State) : (s.degrade).issued = s.issued := rfl
@[simp] theorem State.degrade_schedule (s : State) : (s.degrade).schedule = s.schedule := rfl
@[simp] theorem State.degrade_transport (s : State) : (s.degrade).transport = s.transport := rfl
@[simp] theorem State.degrade_wire (s : State) : (s.degrade).wire = s.wire := rfl
@[simp] theorem State.degrade_caller (s : State) (c' : CallerId) :
    (s.degrade).caller c' = s.caller c' := rfl

@[simp] theorem State.unbind_session (s : State) : (s.unbind).session = { s.session with handle := none } := rfl
@[simp] theorem State.unbind_callers (s : State) : (s.unbind).callers = s.callers := rfl
@[simp] theorem State.unbind_issued (s : State) : (s.unbind).issued = s.issued := rfl
@[simp] theorem State.unbind_schedule (s : State) : (s.unbind).schedule = s.schedule := rfl
@[simp] theorem State.unbind_transport (s : State) : (s.unbind).transport = s.transport := rfl
@[simp] theorem State.unbind_wire (s : State) : (s.unbind).wire = s.wire := rfl
@[simp] theorem State.unbind_caller (s : State) (c' : CallerId) :
    (s.unbind).caller c' = s.caller c' := rfl

@[simp] theorem State.bind_session (s : State) (h : Handle) : (s.bind h).session = { s.session with handle := some h, claims := s.session.claims + 1, state := .ready } := rfl
@[simp] theorem State.bind_callers (s : State) (h : Handle) : (s.bind h).callers = s.callers := rfl
@[simp] theorem State.bind_issued (s : State) (h : Handle) : (s.bind h).issued = s.issued := rfl
@[simp] theorem State.bind_schedule (s : State) (h : Handle) : (s.bind h).schedule = s.schedule := rfl
@[simp] theorem State.bind_transport (s : State) (h : Handle) : (s.bind h).transport = s.transport := rfl
@[simp] theorem State.bind_wire (s : State) (h : Handle) : (s.bind h).wire = s.wire := rfl
@[simp] theorem State.bind_caller (s : State) (h : Handle) (c' : CallerId) :
    (s.bind h).caller c' = s.caller c' := rfl

@[simp] theorem State.record_session (s : State) (e : WireEvent) : (s.record e).session = s.session := rfl
@[simp] theorem State.record_callers (s : State) (e : WireEvent) : (s.record e).callers = s.callers := rfl
@[simp] theorem State.record_issued (s : State) (e : WireEvent) : (s.record e).issued = s.issued := rfl
@[simp] theorem State.record_schedule (s : State) (e : WireEvent) : (s.record e).schedule = s.schedule := rfl
@[simp] theorem State.record_transport (s : State) (e : WireEvent) : (s.record e).transport = s.transport := rfl
@[simp] theorem State.record_wire (s : State) (e : WireEvent) : (s.record e).wire = s.wire ++ [e] := rfl
@[simp] theorem State.record_caller (s : State) (e : WireEvent) (c' : CallerId) :
    (s.record e).caller c' = s.caller c' := rfl

/-- A caller is the same in every state that has the same callers. -/
@[simp] theorem State.caller_mk (s : State) (ses : Session) (i : List Command) (sch : List Agent) (tr : Transport)
    (w : List WireEvent) (c : CallerId) : State.caller ⟨ses, s.callers, i, sch, tr, w⟩ c = s.caller c := rfl

@[simp] theorem State.packet_mk (s : State) (ses : Session) (i : List Command) (sch : List Agent) (tr : Transport)
    (w : List WireEvent) (c : CallerId) (r : PacketReg) :
    State.packet ⟨ses, s.callers, i, sch, tr, w⟩ c r = s.packet c r := rfl

@[simp] theorem State.caller_setPacket_self (s : State) (c : CallerId) (r : PacketReg) (q : Packet) :
    (s.setPacket c r q).caller c = (s.caller c).setPacket r q := by
  simp [State.setPacket]

@[simp] theorem State.caller_succeed_self (s : State) (c : CallerId) (v : Value) :
    (s.succeed c v).caller c = (s.caller c).finish (.ok v) := by
  simp [State.succeed]

@[simp] theorem State.caller_raise_self (s : State) (c : CallerId) (e : Error) :
    (s.raise c e).caller c = (s.caller c).finish (.err e) := by
  simp [State.raise]

@[simp] theorem State.caller_hold_self (s : State) (c : CallerId) (h : Held) :
    (s.hold c h).caller c = (s.caller c).hold h := by
  simp [State.hold]

/-- A result is delivered with its code (R106, R108). -/
@[simp] theorem Caller.finish_delivered (k : Caller) (x : Result Value) : (k.finish x).delivered = some (x.code, x) := rfl
@[simp] theorem Caller.hold_delivered (k : Caller) (h : Held) : (k.hold h).delivered = none := rfl
@[simp] theorem Result.code_ok {α : Type} (v : α) : (Result.ok v).code = 0 := rfl
@[simp] theorem Result.code_err {α : Type} (e : Error) : (Result.err e : Result α).code = e.code := rfl

/-- An error is delivered to its caller with its code (R108). -/
theorem State.raise_delivered (s : State) (c : CallerId) (e : Error) :
    ((s.raise c e).caller c).delivered = some (e.code, .err e) := by
  simp

/-- A packet register after a write: the packet written, every other register as before. -/
theorem State.packet_setPacket (s : State) (c : CallerId) (r : PacketReg) (q : Packet) (c' : CallerId) (r' : PacketReg) :
    (s.setPacket c r q).packet c' r' = if c' = c ∧ r' = r then q else s.packet c' r' := by
  by_cases hc : c' = c
  · subst hc
    simp [State.packet, Caller.setPacket_packet]
  · simp [State.packet, State.setPacket, State.caller_mapCaller, hc]

@[simp] theorem State.packet_succeed (s : State) (c : CallerId) (v : Value) (c' : CallerId) (r : PacketReg) :
    (s.succeed c v).packet c' r = s.packet c' r := by
  by_cases hc : c' = c
  · subst hc
    simp [State.packet]
  · simp [State.packet, State.succeed, State.caller_mapCaller, hc]

@[simp] theorem State.packet_raise (s : State) (c : CallerId) (e : Error) (c' : CallerId) (r : PacketReg) :
    (s.raise c e).packet c' r = s.packet c' r := by
  by_cases hc : c' = c
  · subst hc
    simp [State.packet]
  · simp [State.packet, State.raise, State.caller_mapCaller, hc]

@[simp] theorem State.packet_hold (s : State) (c : CallerId) (h : Held) (c' : CallerId) (r : PacketReg) :
    (s.hold c h).packet c' r = s.packet c' r := by
  by_cases hc : c' = c
  · subst hc
    simp [State.packet]
  · simp [State.packet, State.hold, State.caller_mapCaller, hc]

end Sys2Proof.Machine
end

