-- ==== Sys2Proof/Laws/Codec.lean ====
section
/-!
SUPPORT. What the packet operations can do, said once each: the table's lookups, the flags, the checks of CONSTRUCT, DECODE and
VALIDATE, and that every packet an operation writes is as its status says.
-/

namespace Sys2Proof.Machine

/-! ### The table -/

theorem magicOf_injective {v w : Variant} (h : magicOf v = magicOf w) : v = w := by
  revert h
  cases v <;> cases w <;> decide

/-- `LOOKUP` finds exactly the variant with the magic byte (R60). -/
theorem variantOfMagic_eq_some {m : Nat} {v : Variant} : variantOfMagic m = some v ↔ (magicOf v).toNat = m := by
  constructor
  · intro h
    have := List.find?_some h
    simpa using this
  · intro h
    subst h
    exact variantOfMagic_magicOf v

/-- `LOOKUP` finds nothing where no variant has the magic byte (R51, R60). -/
theorem variantOfMagic_eq_none {m : Nat} : variantOfMagic m = none ↔ ∀ v, (magicOf v).toNat ≠ m := by
  constructor
  · intro h v hv
    rw [variantOfMagic_eq_some.2 hv] at h
    cases h
  · intro h
    cases hx : variantOfMagic m with
    | none => rfl
    | some v => exact absurd (variantOfMagic_eq_some.1 hx) (h v)

/-! ### The flags -/

/-- Bits 7:2 are zero exactly in the four values of R58's symbols. -/
theorem reservedFlags_eq_zero (f : Byte) : reservedFlags f = 0 ↔ f.toNat < 4 := by
  revert f
  decide

theorem writeFlag_eq (f : Byte) : writeFlag f = decide (f.toNat % 2 = 1) := by
  revert f
  decide

theorem successFlag_eq (f : Byte) : successFlag f = decide (f.toNat / 2 % 2 = 1) := by
  revert f
  decide

/-- `SET_WRITE` changes bit 0 alone (R75). -/
theorem withWriteFlag_bit (f : Byte) (b : Bool) (k : Fin 8) :
    (withWriteFlag f b).getLsbD k = if k.val = 0 then b else f.getLsbD k := by
  cases b <;> revert f k <;> decide

/-- `SET_SUCCESS` changes bit 1 alone (R76). -/
theorem withSuccessFlag_bit (f : Byte) (b : Bool) (k : Fin 8) :
    (withSuccessFlag f b).getLsbD k = if k.val = 1 then b else f.getLsbD k := by
  cases b <;> revert f k <;> decide

/-! ### CONSTRUCT, DECODE, VALIDATE -/

/-- The checks of `CONSTRUCT` on numbers (R62, R112). -/
theorem constructError_eq (v : Variant) (t f a d : Nat) :
    constructError v t f a d =
      if 2 ^ addressWidth v ≤ a then some (.fieldOverflow .address a (addressWidth v))
      else if 2 ^ dataWidth v ≤ d then some (.fieldOverflow .data d (dataWidth v))
      else if 256 ≤ t then some (.fieldOverflow .targetId t 8)
      else if 256 ≤ f then some (.fieldOverflow .flags f 8)
      else if 4 ≤ f then some (.validationError .reservedFlagBits)
      else none := by
  unfold constructError
  have h8 : 2 ^ 8 = 256 := rfl
  rw [h8]
  split_ifs with h1 h2 h3 h4 h5 h6 <;> try rfl
  · exact absurd ((reservedFlags_eq_zero _).2 (by rw [BitVec.toNat_ofNat]; omega)) h5
  · rw [not_not, reservedFlags_eq_zero, BitVec.toNat_ofNat] at h5
    omega

theorem byteAt_bufferOf_zero (bytes : List Byte) : byteAt (bufferOf bytes) 0 = bytes.getD 0 0 := by
  rw [byteAt_bufferOf]
  rfl

theorem toList_bufferOf {bytes : List Byte} (h : bytes.length = 16) : (bufferOf bytes).toList = bytes := by
  apply List.ext_getElem
  · simp [h]
  · intro i h1 h2
    simp [bufferOf, h2]

/-- `DECODE` of 16 bytes with the descriptor's magic (R64). -/
theorem decodePacket_of_magic {v : Variant} {bytes : List Byte} (h : bytes.length = 16) (hm : bytes.getD 0 0 = magicOf v) :
    decodePacket v bytes = .ok { buf := bufferOf bytes, desc := some v, status := .decoded } := by
  unfold decodePacket
  rw [byteAt_bufferOf_zero, hm, variantOfMagic_magicOf]
  simp [h]

/-- `DECODE` of 16 bytes with another variant's magic (R64). -/
theorem decodePacket_of_other {v w : Variant} {bytes : List Byte} (h : bytes.length = 16) (hm : bytes.getD 0 0 = magicOf w)
    (hne : w ≠ v) : decodePacket v bytes = .err (.magicMismatch (magicOf v) (magicOf w)) := by
  have hn : magicOf w ≠ magicOf v := fun e => hne (magicOf_injective e)
  unfold decodePacket
  rw [byteAt_bufferOf_zero, hm, variantOfMagic_magicOf]
  simp [h, hn]

/-- A packet that `DECODE` answers with. -/
theorem decodePacket_eq_ok {v : Variant} {bytes : List Byte} {q : Packet} (h : decodePacket v bytes = .ok q) :
    byteAt (bufferOf bytes) 0 = magicOf v ∧ q = { buf := bufferOf bytes, desc := some v, status := .decoded } := by
  unfold decodePacket at h
  split_ifs at h with h1 h2 h3
  exact ⟨not_not.1 h3, (Result.ok.inj h).symm⟩

theorem firstNonzeroFrom_eq_none {buf : Buffer} {off : Nat} :
    firstNonzeroFrom buf off = none ↔ ∀ i, off ≤ i → i < 16 → byteAt buf i = 0 := by
  unfold firstNonzeroFrom
  rw [List.find?_eq_none]
  simp only [List.mem_range, decide_eq_true_eq, not_and, not_not]
  exact ⟨fun h i a b => h i b a, fun h i a b => h i b a⟩

theorem firstNonzeroFrom_eq_some {buf : Buffer} {off i : Nat} (h1 : off ≤ i) (h2 : i < 16) (h3 : byteAt buf i ≠ 0)
    (h4 : ∀ j, off ≤ j → j < i → byteAt buf j = 0) : firstNonzeroFrom buf off = some i := by
  unfold firstNonzeroFrom
  rw [List.find?_range_eq_some]
  refine ⟨by simpa [h1] using h3, by simpa using h2, fun j hj => ?_⟩
  simp only [Bool.not_eq_true', decide_eq_false_iff_not, not_and, not_not]
  exact fun h => h4 j h hj

/-- The field-range check of `VALIDATE` cannot fail (R65). -/
theorem addressOf_lt (v : Variant) (q : Packet) : addressOf v q < 2 ^ addressWidth v := by
  rw [addressWidth_eq]
  exact leValue_lt _ _ _

theorem dataOf_lt (v : Variant) (q : Packet) : dataOf v q < 2 ^ dataWidth v := by
  rw [dataWidth_eq]
  exact leValue_lt _ _ _

/-- The checks of `VALIDATE` that can fail (R65, R114). -/
theorem violationOf_eq (v : Variant) (q : Packet) :
    violationOf v q =
      if byteAt q.buf 0 ≠ magicOf v then some .badMagic
      else if 4 ≤ (byteAt q.buf 1).toNat then some .reservedFlagBits
      else (firstNonzeroFrom q.buf (paddingStart v)).map .reservedPadding := by
  have ha := addressOf_lt v q
  have hd := dataOf_lt v q
  have hf : reservedFlags (flagsOf q) = 0 ↔ (byteAt q.buf 1).toNat < 4 := reservedFlags_eq_zero _
  unfold violationOf
  by_cases h : byteAt q.buf 0 ≠ magicOf v
  · rw [if_pos h, if_pos h]
  · rw [if_neg h, if_neg h]
    by_cases h2 : reservedFlags (flagsOf q) = 0
    · rw [if_neg (not_not.2 h2), if_neg (Nat.not_le.2 (hf.1 h2))]
      cases firstNonzeroFrom q.buf (paddingStart v)
      · simp only [Option.map_none]
        rw [if_neg (by omega)]
      · rfl
    · rw [if_pos h2, if_pos (Nat.not_lt.1 fun h3 => h2 (hf.2 h3))]

/-! ### Every packet written is as its status says (R21, R65) -/

theorem boundTo_eq_some {q : Packet} {v : Variant} (h : boundTo q = some v) :
    q.desc = some v ∧ (q.status = .constructed ∨ q.status = .decoded) := by
  unfold boundTo at h
  split at h
  · cases h
  · cases h
  · next hs => exact ⟨h, .inl hs⟩
  · next hs => exact ⟨h, .inr hs⟩

/-- A packet with other bytes is as its status says where the packet is and byte 0 is the same. -/
theorem packetWf_withBuf {b b' : Buffer} {d : Option Variant} {st : PacketStatus} (hb : byteAt b' 0 = byteAt b 0)
    (h : packetWf ⟨b, d, st⟩ = true) : packetWf ⟨b', d, st⟩ = true := by
  simp only [packetWf, hb] at h ⊢
  exact h

theorem packetWf_bound {b : Buffer} {v : Variant} {st : PacketStatus} (hs : st = .constructed ∨ st = .decoded)
    (hb : byteAt b 0 = magicOf v) : packetWf ⟨b, some v, st⟩ = true := by
  rcases hs with rfl | rfl <;> simp [packetWf, hb]

theorem packetWf_fresh : packetWf Packet.fresh = true := rfl

theorem packetWf_stale (b : Buffer) : packetWf ⟨b, none, .stale⟩ = true := rfl

theorem packetWf_reused (q : Packet) : packetWf (reusedPacket q) = true := packetWf_stale q.buf

theorem packetWf_constructed (v : Variant) (t f a d : Nat) : packetWf (constructed v t f a d) = true := by
  have h : byteAt (constructed v t f a d).buf 0 = magicOf v := by
    rw [constructed_buf, byteAt_wireLayout _ _ _ _ _ _ _ (by omega)]
    rfl
  exact packetWf_bound (.inl rfl) h

theorem packetWf_encoded {v : Variant} {q : Packet} (h : packetWf q = true) : packetWf (encodedPacket v q) = true := by
  have h1 := dataStart_le v
  exact packetWf_withBuf (by rw [byteAt_zeroFrom, if_neg (by omega)]) h

theorem packetWf_decodePacket {v : Variant} {bytes : List Byte} {q : Packet} (h : decodePacket v bytes = .ok q) :
    packetWf q = true := by
  obtain ⟨hm, rfl⟩ := decodePacket_eq_ok h
  exact packetWf_bound (.inr rfl) hm

theorem packetWf_flagsSet {q : Packet} (f : Byte) (h : packetWf q = true) : packetWf (flagsSet q f) = true :=
  packetWf_withBuf (by rw [byteAt_putByte, if_neg (by omega)]) h

theorem packetWf_targetSet {q q' : Packet} {x : Nat} (hx : targetSet q x = .ok q') (h : packetWf q = true) :
    packetWf q' = true := by
  unfold targetSet at hx
  split_ifs at hx
  rw [← Result.ok.inj hx]
  exact packetWf_withBuf (by rw [byteAt_putByte, if_neg (by omega)]) h

theorem packetWf_addressSet {v : Variant} {q q' : Packet} {x : Nat} (hx : addressSet v q x = .ok q')
    (h : packetWf q = true) : packetWf q' = true := by
  unfold addressSet at hx
  split_ifs at hx
  rw [← Result.ok.inj hx]
  exact packetWf_withBuf (by rw [byteAt_memWrite, if_neg (by omega)]) h

theorem packetWf_dataSet {v : Variant} {q q' : Packet} {x : Nat} (hx : dataSet v q x = .ok q') (h : packetWf q = true) :
    packetWf q' = true := by
  have h1 := dataStart_le v
  unfold dataSet at hx
  split_ifs at hx
  rw [← Result.ok.inj hx]
  exact packetWf_withBuf (by rw [byteAt_memWrite, if_neg (by omega)]) h

theorem packetWf_constructPacket {v : Variant} {t f a d : Nat} {q : Packet} (h : constructPacket v t f a d = .ok q) :
    packetWf q = true := by
  unfold constructPacket at h
  split at h
  · cases h
  · obtain rfl := Result.ok.inj h
    exact packetWf_constructed v t f a d

end Sys2Proof.Machine
end

