-- ==== Sys2Proof/Laws/Ops.lean ====
section
/-!
SUPPORT. What each shared operation can do, said once: operand forms, results, draws, the gate, the transfer, the sequencer.
Proofs cite these and unfold nothing.
-/

namespace Sys2Proof.Machine

/-! ### Operand forms -/

theorem variantAt_indexOf (v : Variant) : variantAt (indexOf v) = some v := by cases v <;> rfl

theorem variantAt_of_ge {d : Nat} (h : 6 ≤ d) : variantAt d = none := by
  simp only [variantAt, allVariants]
  exact List.getElem?_eq_none (by simpa using h)

/-- A descriptor operand names a variant exactly when its index is one of 0 to 5 (R56). -/
theorem variantAt_eq_some {d : Nat} {v : Variant} (h : variantAt d = some v) : d = indexOf v := by
  match d, h with
  | 0, h => simp [variantAt, allVariants] at h; subst h; rfl
  | 1, h => simp [variantAt, allVariants] at h; subst h; rfl
  | 2, h => simp [variantAt, allVariants] at h; subst h; rfl
  | 3, h => simp [variantAt, allVariants] at h; subst h; rfl
  | 4, h => simp [variantAt, allVariants] at h; subst h; rfl
  | 5, h => simp [variantAt, allVariants] at h; subst h; rfl
  | d + 6, h => rw [variantAt_of_ge (by omega)] at h; cases h

@[simp] theorem withVariant_indexOf (v : Variant) (f : Variant → Step) : withVariant (indexOf v) f = f v := by
  simp [withVariant, variantAt_indexOf]

theorem withVariant_of_ge {d : Nat} (h : 6 ≤ d) (f : Variant → Step) : withVariant d f = .fault .illegalCommand := by
  simp [withVariant, variantAt_of_ge h]

@[simp] theorem withWritten_p (n : Nat) (f : Step) : withWritten (.p n) f = f := rfl

@[simp] theorem withWritten_req (f : Step) : withWritten .req f = .fault .illegalCommand := rfl

@[simp] theorem withWritten_resp (f : Step) : withWritten .resp f = .fault .illegalCommand := rfl

@[simp] theorem withBoolean_zero (f : Bool → Step) : withBoolean 0 f = f false := rfl

@[simp] theorem withBoolean_one (f : Bool → Step) : withBoolean 1 f = f true := rfl

theorem withBoolean_of_ge {b : Nat} (h : 2 ≤ b) (f : Bool → Step) : withBoolean b f = .fault .illegalCommand := by
  match b, h with
  | b + 2, _ => rfl

theorem withBoolean_of_lt {b : Nat} (h : b < 2) (f : Bool → Step) : withBoolean b f = f (decide (b = 1)) := by
  match b, h with
  | 0, _ => rfl
  | 1, _ => rfl

theorem withBound_some {s : State} {c : CallerId} {r : PacketReg} {v : Variant} (h : boundTo (s.packet c r) = some v)
    (f : Variant → Packet → State) : withBound s c r f = .next (f v (s.packet c r)) := by
  simp [withBound, h]

theorem withBound_none {s : State} {c : CallerId} {r : PacketReg} (h : boundTo (s.packet c r) = none)
    (f : Variant → Packet → State) : withBound s c r f = .fault .useBeforeConstruct := by
  simp [withBound, h]

/-- What each operand form can answer with a next state. -/
theorem withVariant_next {d : Nat} {f : Variant → Step} {t : State} (h : withVariant d f = .next t) :
    ∃ v, variantAt d = some v ∧ f v = .next t := by
  unfold withVariant at h
  split at h
  · next v hv => exact ⟨v, hv, h⟩
  · cases h

theorem withWritten_next {r : PacketReg} {f : Step} {t : State} (h : withWritten r f = .next t) :
    ∃ n, r = .p n ∧ f = .next t := by
  cases r with
  | p n => exact ⟨n, rfl, h⟩
  | req => cases h
  | resp => cases h

theorem withBoolean_next {b : Nat} {f : Bool → Step} {t : State} (h : withBoolean b f = .next t) :
    ∃ x, f x = .next t := by
  unfold withBoolean at h
  split at h
  · exact ⟨_, h⟩
  · cases h

theorem withBound_next {s : State} {c : CallerId} {r : PacketReg} {f : Variant → Packet → State} {t : State}
    (h : withBound s c r f = .next t) : ∃ v, boundTo (s.packet c r) = some v ∧ t = f v (s.packet c r) := by
  unfold withBound at h
  split at h
  · next v hv => exact ⟨v, hv, by cases h; rfl⟩
  · cases h

/-! ### Results -/

theorem State.onlyCaller_mapCaller (s : State) (c : CallerId) (f : Caller → Caller) : s.OnlyCaller (s.mapCaller c f) c :=
  ⟨rfl, rfl, rfl, rfl, rfl, fun _ h => State.caller_mapCaller_other s f h⟩

theorem State.succeed_answersOnly (s : State) (c : CallerId) (v : Value) : s.AnswersOnly (s.succeed c v) c (.ok v) :=
  ⟨State.onlyCaller_mapCaller s c _, by simp [Caller.finish]⟩

theorem State.raise_answersOnly (s : State) (c : CallerId) (e : Error) : s.AnswersOnly (s.raise c e) c (.err e) :=
  ⟨State.onlyCaller_mapCaller s c _, by simp [Caller.finish]⟩

theorem State.hold_onlyCaller (s : State) (c : CallerId) (h : Held) :
    s.OnlyCaller (s.hold c h) c ∧ (s.hold c h).caller c = { s.caller c with held := some h, ret := none } :=
  ⟨State.onlyCaller_mapCaller s c _, by simp [Caller.hold]⟩

/-- Writing a register and returning a value writes that register and nothing else. -/
theorem State.setPacket_succeed_writesOnly (s : State) (c : CallerId) (r : PacketReg) (q : Packet) (v : Value) :
    s.WritesOnly ((s.setPacket c r q).succeed c v) c r q (.ok v) := by
  refine ⟨⟨rfl, rfl, rfl, rfl, rfl, fun c' h => ?_⟩, ?_, ?_, ?_, ?_, ?_, ?_, ?_, fun r' h => ?_⟩
  · simp [State.succeed, State.setPacket, State.caller_mapCaller, h]
  · simp
  · simp
  · simp
  · simp
  · simp
  · simp
  · simp [State.packet_setPacket]
  · simp [State.packet_setPacket, h]

theorem State.commit_ok (s : State) (c : CallerId) (r : PacketReg) (q : Packet) :
    s.WritesOnly (s.commit c r (.ok q)) c r q (.ok (.packet r)) :=
  State.setPacket_succeed_writesOnly s c r q (.packet r)

theorem State.commit_err (s : State) (c : CallerId) (r : PacketReg) (e : Error) :
    s.AnswersOnly (s.commit c r (.err e)) c (.err e) :=
  State.raise_answersOnly s c e

/-! ### Draws -/

/-- A draw of `claims` takes the answer that is ready. -/
theorem drawClaim_ready {s : State} {a rest} (h : s.transport.claims = a :: rest) :
    drawClaim s = (a, { s with transport := { s.transport with claims := rest } }) := by
  simp only [drawClaim, h]

/-- A draw of `claims` changes the transport's answers and nothing else. -/
theorem drawClaim_state (s : State) :
    ∃ tr, (drawClaim s).2 = { s with transport := tr } ∧ tr.inbound = s.transport.inbound := by
  unfold drawClaim
  split
  · exact ⟨_, rfl, rfl⟩
  · exact ⟨_, rfl, rfl⟩

@[simp] theorem drawClaim_session (s : State) : (drawClaim s).2.session = s.session := by
  obtain ⟨tr, h, _⟩ := drawClaim_state s
  rw [h]
@[simp] theorem drawClaim_callers (s : State) : (drawClaim s).2.callers = s.callers := by
  obtain ⟨tr, h, _⟩ := drawClaim_state s
  rw [h]
@[simp] theorem drawClaim_issued (s : State) : (drawClaim s).2.issued = s.issued := by
  obtain ⟨tr, h, _⟩ := drawClaim_state s
  rw [h]
@[simp] theorem drawClaim_schedule (s : State) : (drawClaim s).2.schedule = s.schedule := by
  obtain ⟨tr, h, _⟩ := drawClaim_state s
  rw [h]
@[simp] theorem drawClaim_wire (s : State) : (drawClaim s).2.wire = s.wire := by
  obtain ⟨tr, h, _⟩ := drawClaim_state s
  rw [h]
@[simp] theorem drawClaim_inbound (s : State) : (drawClaim s).2.transport.inbound = s.transport.inbound := by
  obtain ⟨tr, h, hi⟩ := drawClaim_state s
  rw [h]
  exact hi
@[simp] theorem drawClaim_caller (s : State) (c : CallerId) : (drawClaim s).2.caller c = s.caller c := by
  simp only [State.caller, drawClaim_callers]

/-- A draw of `writes` takes the answer that is ready. -/
theorem drawWrite_ready {s : State} {a rest} (h : s.transport.writes = a :: rest) :
    drawWrite s = (a, { s with transport := { s.transport with writes := rest } }) := by
  simp only [drawWrite, h]

/-- A draw of `writes` changes the transport's answers and nothing else. -/
theorem drawWrite_state (s : State) :
    ∃ tr, (drawWrite s).2 = { s with transport := tr } ∧ tr.inbound = s.transport.inbound := by
  unfold drawWrite
  split
  · exact ⟨_, rfl, rfl⟩
  · exact ⟨_, rfl, rfl⟩

@[simp] theorem drawWrite_session (s : State) : (drawWrite s).2.session = s.session := by
  obtain ⟨tr, h, _⟩ := drawWrite_state s
  rw [h]
@[simp] theorem drawWrite_callers (s : State) : (drawWrite s).2.callers = s.callers := by
  obtain ⟨tr, h, _⟩ := drawWrite_state s
  rw [h]
@[simp] theorem drawWrite_issued (s : State) : (drawWrite s).2.issued = s.issued := by
  obtain ⟨tr, h, _⟩ := drawWrite_state s
  rw [h]
@[simp] theorem drawWrite_schedule (s : State) : (drawWrite s).2.schedule = s.schedule := by
  obtain ⟨tr, h, _⟩ := drawWrite_state s
  rw [h]
@[simp] theorem drawWrite_wire (s : State) : (drawWrite s).2.wire = s.wire := by
  obtain ⟨tr, h, _⟩ := drawWrite_state s
  rw [h]
@[simp] theorem drawWrite_inbound (s : State) : (drawWrite s).2.transport.inbound = s.transport.inbound := by
  obtain ⟨tr, h, hi⟩ := drawWrite_state s
  rw [h]
  exact hi
@[simp] theorem drawWrite_caller (s : State) (c : CallerId) : (drawWrite s).2.caller c = s.caller c := by
  simp only [State.caller, drawWrite_callers]

/-- A draw of `reads` takes the answer that is ready. -/
theorem drawRead_ready {s : State} {a rest} (h : s.transport.reads = a :: rest) :
    drawRead s = (a, { s with transport := { s.transport with reads := rest } }) := by
  simp only [drawRead, h]

/-- A draw of `reads` changes the transport's answers and nothing else. -/
theorem drawRead_state (s : State) :
    ∃ tr, (drawRead s).2 = { s with transport := tr } ∧ tr.inbound = s.transport.inbound := by
  unfold drawRead
  split
  · exact ⟨_, rfl, rfl⟩
  · exact ⟨_, rfl, rfl⟩

@[simp] theorem drawRead_session (s : State) : (drawRead s).2.session = s.session := by
  obtain ⟨tr, h, _⟩ := drawRead_state s
  rw [h]
@[simp] theorem drawRead_callers (s : State) : (drawRead s).2.callers = s.callers := by
  obtain ⟨tr, h, _⟩ := drawRead_state s
  rw [h]
@[simp] theorem drawRead_issued (s : State) : (drawRead s).2.issued = s.issued := by
  obtain ⟨tr, h, _⟩ := drawRead_state s
  rw [h]
@[simp] theorem drawRead_schedule (s : State) : (drawRead s).2.schedule = s.schedule := by
  obtain ⟨tr, h, _⟩ := drawRead_state s
  rw [h]
@[simp] theorem drawRead_wire (s : State) : (drawRead s).2.wire = s.wire := by
  obtain ⟨tr, h, _⟩ := drawRead_state s
  rw [h]
@[simp] theorem drawRead_inbound (s : State) : (drawRead s).2.transport.inbound = s.transport.inbound := by
  obtain ⟨tr, h, hi⟩ := drawRead_state s
  rw [h]
  exact hi
@[simp] theorem drawRead_caller (s : State) (c : CallerId) : (drawRead s).2.caller c = s.caller c := by
  simp only [State.caller, drawRead_callers]

/-- A draw of `cleans` takes the answer that is ready. -/
theorem drawClean_ready {s : State} {a rest} (h : s.transport.cleans = a :: rest) :
    drawClean s = (a, { s with transport := { s.transport with cleans := rest } }) := by
  simp only [drawClean, h]

/-- A draw of `cleans` changes the transport's answers and nothing else. -/
theorem drawClean_state (s : State) :
    ∃ tr, (drawClean s).2 = { s with transport := tr } ∧ tr.inbound = s.transport.inbound := by
  unfold drawClean
  split
  · exact ⟨_, rfl, rfl⟩
  · exact ⟨_, rfl, rfl⟩

@[simp] theorem drawClean_session (s : State) : (drawClean s).2.session = s.session := by
  obtain ⟨tr, h, _⟩ := drawClean_state s
  rw [h]
@[simp] theorem drawClean_callers (s : State) : (drawClean s).2.callers = s.callers := by
  obtain ⟨tr, h, _⟩ := drawClean_state s
  rw [h]
@[simp] theorem drawClean_issued (s : State) : (drawClean s).2.issued = s.issued := by
  obtain ⟨tr, h, _⟩ := drawClean_state s
  rw [h]
@[simp] theorem drawClean_schedule (s : State) : (drawClean s).2.schedule = s.schedule := by
  obtain ⟨tr, h, _⟩ := drawClean_state s
  rw [h]
@[simp] theorem drawClean_wire (s : State) : (drawClean s).2.wire = s.wire := by
  obtain ⟨tr, h, _⟩ := drawClean_state s
  rw [h]
@[simp] theorem drawClean_inbound (s : State) : (drawClean s).2.transport.inbound = s.transport.inbound := by
  obtain ⟨tr, h, hi⟩ := drawClean_state s
  rw [h]
  exact hi
@[simp] theorem drawClean_caller (s : State) (c : CallerId) : (drawClean s).2.caller c = s.caller c := by
  simp only [State.caller, drawClean_callers]

/-- The residue rule with its answer ready (R84). -/
theorem applyResidue_ready {s : State} {clean : Bool} {rest : List Bool} (h : s.transport.cleans = clean :: rest) :
    applyResidue s =
      if clean then { s with transport := { s.transport with cleans := rest } }
      else State.degrade { s with transport := { s.transport with cleans := rest } } := by
  simp only [applyResidue, drawClean_ready h]

/-- The residue rule draws one answer, and leaves the session as it is or makes it `Degraded` (R84). -/
theorem applyResidue_state (s : State) :
    applyResidue s = (drawClean s).2 ∨ applyResidue s = (drawClean s).2.degrade := by
  unfold applyResidue
  split
  · exact .inl rfl
  · exact .inr rfl

@[simp] theorem applyResidue_callers (s : State) : (applyResidue s).callers = s.callers := by
  rcases applyResidue_state s with h | h <;> simp [h]
@[simp] theorem applyResidue_issued (s : State) : (applyResidue s).issued = s.issued := by
  rcases applyResidue_state s with h | h <;> simp [h]
@[simp] theorem applyResidue_schedule (s : State) : (applyResidue s).schedule = s.schedule := by
  rcases applyResidue_state s with h | h <;> simp [h]
@[simp] theorem applyResidue_wire (s : State) : (applyResidue s).wire = s.wire := by
  rcases applyResidue_state s with h | h <;> simp [h]
@[simp] theorem applyResidue_inbound (s : State) : (applyResidue s).transport.inbound = s.transport.inbound := by
  rcases applyResidue_state s with h | h <;> simp [h]
@[simp] theorem applyResidue_holder (s : State) : (applyResidue s).session.holder = s.session.holder := by
  rcases applyResidue_state s with h | h <;> simp [h]
@[simp] theorem applyResidue_handle (s : State) : (applyResidue s).session.handle = s.session.handle := by
  rcases applyResidue_state s with h | h <;> simp [h]
@[simp] theorem applyResidue_claims (s : State) : (applyResidue s).session.claims = s.session.claims := by
  rcases applyResidue_state s with h | h <;> simp [h]
@[simp] theorem applyResidue_caller (s : State) (c : CallerId) : (applyResidue s).caller c = s.caller c := by
  simp only [State.caller, applyResidue_callers]

/-! ### Binding the endpoint -/

/-- A claim draws one answer, whatever it is, and records it: `Ok` binds the handle, any other leaves the session as it is and is
`EndpointBusy` (R81, R86, R87). -/
theorem claimFor_cases (c : CallerId) (h : Handle) (s : State) :
    ((drawClaim s).1 = .ok ∧ claimFor c h s = (((drawClaim s).2.record (.claim h .ok)).bind h).succeed c .unit) ∨
      ((drawClaim s).1 ≠ .ok ∧
        claimFor c h s = ((drawClaim s).2.record (.claim h (drawClaim s).1)).raise c .endpointBusy) := by
  unfold claimFor
  split
  · next e => exact .inl ⟨e, rfl⟩
  · next e => exact .inr ⟨by simp [e], by rw [e]⟩
  · next e => exact .inr ⟨by simp [e], by rw [e]⟩

/-- What releasing the handle does: nothing where there is none, else one `Transport.release` and no handle (R87). -/
theorem releaseHandle_cases (s : State) :
    (s.session.handle = none ∧ releaseHandle s = s) ∨
      ∃ h, s.session.handle = some h ∧ releaseHandle s = (s.record (.release h)).unbind := by
  unfold releaseHandle
  split
  · next h e => exact .inr ⟨h, e, rfl⟩
  · next e => exact .inl ⟨e, rfl⟩

@[simp] theorem releaseHandle_session (s : State) : (releaseHandle s).session = { s.session with handle := none } := by
  obtain ⟨h, e⟩ | ⟨_, _, e⟩ := releaseHandle_cases s
  · rw [e, ← h]
  · rw [e]
    rfl
@[simp] theorem releaseHandle_callers (s : State) : (releaseHandle s).callers = s.callers := by
  obtain ⟨_, e⟩ | ⟨_, _, e⟩ := releaseHandle_cases s <;> simp [e]
@[simp] theorem releaseHandle_issued (s : State) : (releaseHandle s).issued = s.issued := by
  obtain ⟨_, e⟩ | ⟨_, _, e⟩ := releaseHandle_cases s <;> simp [e]
@[simp] theorem releaseHandle_schedule (s : State) : (releaseHandle s).schedule = s.schedule := by
  obtain ⟨_, e⟩ | ⟨_, _, e⟩ := releaseHandle_cases s <;> simp [e]
@[simp] theorem releaseHandle_transport (s : State) : (releaseHandle s).transport = s.transport := by
  obtain ⟨_, e⟩ | ⟨_, _, e⟩ := releaseHandle_cases s <;> simp [e]
@[simp] theorem releaseHandle_caller (s : State) (c : CallerId) : (releaseHandle s).caller c = s.caller c := by
  simp only [State.caller, releaseHandle_callers]
@[simp] theorem releaseHandle_wire (s : State) :
    (releaseHandle s).wire = s.wire ++ (match s.session.handle with | some h => [.release h] | none => []) := by
  obtain ⟨h, e⟩ | ⟨_, h, e⟩ := releaseHandle_cases s <;> simp [e, h]

/-- Restoring the session (R87, R109): a claim that is answered `Ok` binds the handle and makes the session `Ready`; any other
leaves the session as it was but for the handle, which has been released. -/
theorem restoreSession_session (c : CallerId) (h : Handle) (s : State) :
    (restoreSession c h s).session =
      if (drawClaim (releaseHandle s)).1 = .ok then
        { s.session with state := .ready, handle := some h, claims := s.session.claims + 1 }
      else { s.session with handle := none } := by
  unfold restoreSession
  rcases claimFor_cases c h (releaseHandle s) with ⟨ha, e⟩ | ⟨ha, e⟩ <;> rw [e]
  · rw [if_pos ha]
    simp
  · rw [if_neg ha]
    simp

/-! ### The transfer's steps, with the answer ready -/

/-- A transfer of 16 bytes in a `Ready` session begins its TX step (R91). -/
theorem startTransfer_ready {u : TransferUser} {c : CallerId} {b : Buffer} {s : State} (h : s.session.state = .ready) :
    startTransfer u c b.toList s = beginTransmit u c b s := by
  have hl : ¬ b.toList.length ≠ Config.wireLength := by simp
  simp only [startTransfer, h, if_neg hl, bufferOf_toList]

theorem beginTransmit_ready {u : TransferUser} {c : CallerId} {b : Buffer} {s : State} {a : WriteAnswer}
    {rest : List WriteAnswer} (h : s.transport.writes = a :: rest) :
    beginTransmit u c b s = transmitStep u c b a { s with transport := { s.transport with writes := rest } } := by
  simp only [beginTransmit, h, transmitDrawn, drawWrite]

theorem beginTransmit_blocks {u : TransferUser} {c : CallerId} {b : Buffer} {s : State} (h : s.transport.writes = []) :
    beginTransmit u c b s = s.hold c (.atTransmit u b) := by
  simp only [beginTransmit, h]

theorem beginReceive_ready {u : TransferUser} {c : CallerId} {s : State} {a : ReadAnswer} {rest : List ReadAnswer}
    (h : s.transport.reads = a :: rest) :
    beginReceive u c s = receiveStep u c a { s with transport := { s.transport with reads := rest } } := by
  simp only [beginReceive, h, receiveDrawn, drawRead]

theorem beginReceive_blocks {u : TransferUser} {c : CallerId} {s : State} (h : s.transport.reads = []) :
    beginReceive u c s = s.hold c (.atReceive u) := by
  simp only [beginReceive, h]

/-! ### The gate, and a waiter that goes on -/

/-- A free gate is granted (R88). -/
theorem takeGate_free {u : GateUser} {c : CallerId} {s : State} (h : s.session.holder = none) :
    takeGate u c s = grantGate u c s := by
  simp [takeGate, h]

/-- A gate that another caller holds holds the caller (R88). -/
theorem takeGate_held {u : GateUser} {c c' : CallerId} {s : State} (h : s.session.holder = some c') (hne : c' ≠ c) :
    takeGate u c s = s.hold c (.atLock u) := by
  simp [takeGate, h, hne]

/-- A waiter at a free gate goes on with the grant (R88, R90). -/
theorem resume_atLock_free {u : GateUser} {c : CallerId} {s : State} (h : s.session.holder = none) :
    resume c (.atLock u) s = grantGate u c s := by
  simp [resume, h]

/-- A caller waiting at a held gate waits on (R88). -/
theorem resume_atLock_held {u : GateUser} {c : CallerId} {s : State} (h : s.session.holder ≠ none) :
    resume c (.atLock u) s = s := by
  simp [resume, h]

/-- A transfer in a `Degraded` session fails at once (R91, R110). -/
theorem startTransfer_degraded {u : TransferUser} {c : CallerId} {bytes : List Byte} {s : State}
    (h : s.session.state = .degraded) : startTransfer u c bytes s = endTransfer u c (.err .degraded) s := by
  simp only [startTransfer, h]

/-- A transfer in an `Unacquired` session fails at once (R91). -/
theorem startTransfer_unacquired {u : TransferUser} {c : CallerId} {bytes : List Byte} {s : State}
    (h : s.session.state = .unacquired) : startTransfer u c bytes s = endTransfer u c (.err .endpointBusy) s := by
  simp only [startTransfer, h]

/-! ### What a step does -/

/-- A scheduled caller that is held goes on with its operation. -/
theorem step_goOn {s : State} {c : CallerId} {h : Held} {agents : List Agent} (hs : s.schedule = .caller c :: agents)
    (hh : (s.caller c).held = some h) : step s = .next (resume c h { s with schedule := agents }) := by
  have hh' : (State.caller { s with schedule := agents } c).held = some h := hh
  simp only [step, fetch, nextAgent, hs, workOf, hh']

/-- A scheduled caller that is not held runs its next command. -/
theorem step_command {s : State} {c : CallerId} {agents : List Agent} {cmd : Command} {left : List Command}
    (hs : s.schedule = .caller c :: agents) (hh : (s.caller c).held = none)
    (ht : takeIssued c s.issued = some (cmd, left)) :
    step s = runFrame (.command cmd) { s with schedule := agents, issued := left } := by
  have hh' : (State.caller { s with schedule := agents } c).held = none := hh
  simp only [step, fetch, nextAgent, hs, workOf, hh', ht]

/-- The scheduled transport delivers its next packet. -/
theorem step_packet {s : State} {agents : List Agent} {b : Buffer} {rest : List Buffer}
    (hs : s.schedule = .transport :: agents) (hi : s.transport.inbound = b :: rest) :
    step s =
      runFrame (.wire b.toList) { s with schedule := agents, transport := { s.transport with inbound := rest } } := by
  simp only [step, fetch, nextAgent, hs, workOf, hi]

end Sys2Proof.Machine
end

