-- ==== Sys2Proof/Laws/Moves.lean ====
section
/-!
SUPPORT. What an operation of a caller can do, said once: it is a chain of small moves, each of which touches the caller itself,
the session's registers, the transport's answers or the end of the wire. A property that every move keeps is kept by every
instruction, so that its proof looks at eight moves and unfolds no instruction.
-/

namespace Sys2Proof.Machine

/-- A change of a caller that keeps its packets as their status says and its registers in canonical form. -/
structure OwnUpdate (k k' : Caller) : Prop where
  packets : (∀ r, packetWf (k.packet r) = true) → ∀ r, packetWf (k'.packet r) = true
  canonical : Memory.wf k.regs = true → Memory.wf k'.regs = true

/-- One small move of an operation of caller `c`. -/
inductive Move (c : CallerId) : State → State → Prop
  | own (s : State) (f : Caller → Caller) (h : OwnUpdate (s.caller c) (f (s.caller c))) : Move c s (s.mapCaller c f)
  | takeGate (s : State) : Move c s (s.setHolder (some c))
  | freeGate (s : State) : Move c s (s.setHolder none)
  | degrade (s : State) : Move c s s.degrade
  | unbind (s : State) : Move c s s.unbind
  | bind (s : State) (h : Handle) : Move c s (s.bind h)
  | record (s : State) (e : WireEvent) : Move c s (s.record e)
  | answers (s : State) (tr : Transport) (h : tr.inbound = s.transport.inbound) : Move c s { s with transport := tr }

/-- A chain of moves of caller `c`. -/
abbrev Moves (c : CallerId) : State → State → Prop := Relation.ReflTransGen (Move c)

/-- A property that every move keeps is kept by a chain of moves. -/
theorem Moves.keeps {c : CallerId} {P : State → Prop} (hp : ∀ s t, Move c s t → P s → P t) {s t : State}
    (h : Moves c s t) (hs : P s) : P t := by
  induction h with
  | refl => exact hs
  | tail _ hm ih => exact hp _ _ hm ih

/-! ### Changes of a caller -/

theorem OwnUpdate.of_same {k k' : Caller} (hr : k'.regs = k.regs) (hp : ∀ r, k'.packet r = k.packet r) :
    OwnUpdate k k' :=
  ⟨fun h r => by rw [hp]; exact h r, fun h => by rw [hr]; exact h⟩

theorem OwnUpdate.trans {a b d : Caller} (h : OwnUpdate a b) (h' : OwnUpdate b d) : OwnUpdate a d :=
  ⟨fun x => h'.packets (h.packets x), fun x => h'.canonical (h.canonical x)⟩

theorem OwnUpdate.finish (k : Caller) (r : Result Value) : OwnUpdate k (k.finish r) := .of_same (by simp) (by simp)

theorem OwnUpdate.hold (k : Caller) (h : Held) : OwnUpdate k (k.hold h) := .of_same (by simp) (by simp)

theorem OwnUpdate.enter (k : Caller) (ph : Phase) : OwnUpdate k (k.enter ph) := .of_same (by simp) (by simp)

theorem OwnUpdate.beginExchange (k : Caller) : OwnUpdate k k.beginExchange := .of_same (by simp) (by simp)

theorem OwnUpdate.settle (k : Caller) (ph : Phase) (x : Result DecodedResponse) : OwnUpdate k (k.settle ph x) :=
  .of_same (by simp) (by simp)

theorem OwnUpdate.keepResponse (k : Caller) (t : Option Buffer) :
    OwnUpdate k { k with xs := { k.xs with respBytes := t } } :=
  .of_same rfl fun r => by cases r <;> rfl

/-- Writing a packet keeps a register file in canonical form. -/
theorem Caller.setPacket_canonical (k : Caller) (r : PacketReg) (q : Packet) (h : Memory.wf k.regs = true) :
    Memory.wf (k.setPacket r q).regs = true := by
  cases r with
  | p n => exact storeWf_set Packet.fresh k.regs n q h
  | req => exact h
  | resp => exact h

theorem OwnUpdate.setPacket (k : Caller) (r : PacketReg) {q : Packet}
    (h : packetWf (k.packet r) = true → packetWf q = true) : OwnUpdate k (k.setPacket r q) := by
  refine ⟨fun hk r' => ?_, k.setPacket_canonical r q⟩
  rw [Caller.setPacket_packet]
  split
  · exact h (hk r)
  · exact hk r'

/-! ### Results -/

theorem moves_succeed (s : State) (c : CallerId) (v : Value) : Moves c s (s.succeed c v) :=
  .single (.own s _ (.finish _ _))

theorem moves_raise (s : State) (c : CallerId) (e : Error) : Moves c s (s.raise c e) :=
  .single (.own s _ (.finish _ _))

theorem moves_hold (s : State) (c : CallerId) (h : Held) : Moves c s (s.hold c h) :=
  .single (.own s _ (.hold _ _))

theorem moves_setPacket (s : State) (c : CallerId) (r : PacketReg) {q : Packet}
    (h : packetWf (s.packet c r) = true → packetWf q = true) : Moves c s (s.setPacket c r q) :=
  .single (.own s _ (.setPacket _ _ h))

theorem moves_commit (s : State) (c : CallerId) (r : PacketReg) (x : Result Packet)
    (h : ∀ q, x = .ok q → packetWf (s.packet c r) = true → packetWf q = true) : Moves c s (s.commit c r x) := by
  cases x with
  | ok q => exact (moves_setPacket s c r (h q rfl)).trans (moves_succeed _ c _)
  | err e => exact moves_raise s c e

/-! ### Draws -/

theorem moves_of_answers {c : CallerId} {s t : State} {tr : Transport} (h : t = { s with transport := tr })
    (hi : tr.inbound = s.transport.inbound) : Moves c s t := by
  rw [h]
  exact .single (.answers s tr hi)

theorem moves_drawClaim (c : CallerId) (s : State) : Moves c s (drawClaim s).2 := by
  obtain ⟨tr, h, hi⟩ := drawClaim_state s
  exact moves_of_answers h hi

theorem moves_drawWrite (c : CallerId) (s : State) : Moves c s (drawWrite s).2 := by
  obtain ⟨tr, h, hi⟩ := drawWrite_state s
  exact moves_of_answers h hi

theorem moves_drawRead (c : CallerId) (s : State) : Moves c s (drawRead s).2 := by
  obtain ⟨tr, h, hi⟩ := drawRead_state s
  exact moves_of_answers h hi

theorem moves_drawClean (c : CallerId) (s : State) : Moves c s (drawClean s).2 := by
  obtain ⟨tr, h, hi⟩ := drawClean_state s
  exact moves_of_answers h hi

theorem moves_applyResidue (c : CallerId) (s : State) : Moves c s (applyResidue s) := by
  rcases applyResidue_state s with h | h
  · rw [h]
    exact moves_drawClean c s
  · rw [h]
    exact (moves_drawClean c s).tail (.degrade _)

/-! ### The session -/

theorem moves_claimFor (c : CallerId) (h : Handle) (s : State) : Moves c s (claimFor c h s) := by
  have hd := moves_drawClaim c s
  unfold claimFor
  split
  · exact ((hd.tail (.record _ _)).tail (.bind _ h)).trans (moves_succeed _ c _)
  · exact (hd.tail (.record _ _)).trans (moves_raise _ c _)
  · exact (hd.tail (.record _ _)).trans (moves_raise _ c _)

theorem moves_releaseHandle (c : CallerId) (s : State) : Moves c s (releaseHandle s) := by
  unfold releaseHandle
  split
  · exact (Relation.ReflTransGen.single (.record s _)).tail (.unbind _)
  · exact .refl

theorem moves_acquireSession (c : CallerId) (h : Handle) (s : State) : Moves c s (acquireSession c h s) := by
  unfold acquireSession
  split
  · exact moves_claimFor c h s
  · exact moves_succeed s c _
  · exact moves_succeed s c _

theorem moves_restoreSession (c : CallerId) (h : Handle) (s : State) : Moves c s (restoreSession c h s) :=
  (moves_releaseHandle c s).trans (moves_claimFor c h _)

theorem moves_reestablishSession (c : CallerId) (h : Handle) (s : State) : Moves c s (reestablishSession c h s) := by
  unfold reestablishSession
  split
  · exact moves_acquireSession c h s
  · exact moves_succeed s c _
  · split
    · exact moves_raise s c _
    · split
      · exact moves_restoreSession c h s
      · exact moves_hold s c _

/-! ### The transfer and the exchange -/

theorem moves_rejectExchange (c : CallerId) (e : Error) (s : State) : Moves c s (rejectExchange c e s) :=
  .single (.own s _ (.settle _ _ _))

theorem moves_acceptExchange (c : CallerId) (r : DecodedResponse) (s : State) : Moves c s (acceptExchange c r s) :=
  .single (.own s _ (.settle _ _ _))

theorem moves_judgeResponse (c : CallerId) (v : Variant) (t a : Nat) (q : Packet) (s : State) :
    Moves c s (judgeResponse c v t a q s) := by
  unfold judgeResponse
  split
  · exact moves_rejectExchange c _ s
  · split
    · exact moves_rejectExchange c _ s
    · exact moves_acceptExchange c _ s

theorem moves_receiveResponse (c : CallerId) (v : Variant) (t a : Nat) (b : Buffer) (s : State) :
    Moves c s (receiveResponse c v t a b s) := by
  have h1 : Moves c s (s.mapCaller c fun k => { k with xs := { k.xs with respBytes := some b } }) :=
    .single (.own s _ (.keepResponse _ _))
  unfold receiveResponse
  dsimp only
  split
  · exact h1.trans (moves_rejectExchange c _ _)
  · next q hq =>
    have h2 := h1.trans (moves_setPacket _ c .resp fun _ => packetWf_decodePacket hq)
    exact (h2.tail (.own _ _ (.enter _ _))).trans (moves_judgeResponse c v t a q _)

theorem moves_endTransfer (u : TransferUser) (c : CallerId) (r : Result Buffer) (s : State) :
    Moves c s (endTransfer u c r s) := by
  have hf : Moves c s (s.setHolder none) := .single (.freeGate s)
  cases u with
  | raw => exact .single (.own s (fun k => k.finish (resultMap .bytes r)) (.finish _ _))
  | exchange => exact hf.tail (.own _ (fun k => k.finish (resultMap .bytes r)) (.finish _ _))
  | request v t a =>
    cases r with
    | ok b => exact hf.trans (moves_receiveResponse c v t a b _)
    | err e => exact hf.trans (moves_rejectExchange c e _)

theorem moves_receiveStep (u : TransferUser) (c : CallerId) (a : ReadAnswer) (s : State) :
    Moves c s (receiveStep u c a s) := by
  have hr : Moves c s (s.record (.read c a)) := .single (.record s _)
  cases a with
  | ok t => exact hr.trans (moves_endTransfer u c _ _)
  | short n => exact (hr.trans (moves_applyResidue c _)).trans (moves_endTransfer u c _ _)
  | busy => exact (hr.trans (moves_applyResidue c _)).trans (moves_endTransfer u c _ _)
  | timeout => exact (hr.trans (moves_applyResidue c _)).trans (moves_endTransfer u c _ _)
  | disconnected => exact (hr.tail (.degrade _)).trans (moves_endTransfer u c _ _)

theorem moves_receiveDrawn (u : TransferUser) (c : CallerId) (s : State) : Moves c s (receiveDrawn u c s) :=
  (moves_drawRead c s).trans (moves_receiveStep u c _ _)

theorem moves_beginReceive (u : TransferUser) (c : CallerId) (s : State) : Moves c s (beginReceive u c s) := by
  unfold beginReceive
  split
  · exact moves_hold s c _
  · exact moves_receiveDrawn u c s

theorem moves_sentPhases (u : TransferUser) (c : CallerId) (s : State) : Moves c s (sentPhases u c s) := by
  cases u with
  | raw => exact .refl
  | exchange => exact .refl
  | request v t a =>
    exact .single (.own s (fun k => (k.enter .sent).enter .awaitingResponse) ((OwnUpdate.enter _ _).trans (.enter _ _)))

theorem moves_transmitStep (u : TransferUser) (c : CallerId) (b : Buffer) (a : WriteAnswer) (s : State) :
    Moves c s (transmitStep u c b a s) := by
  have hr : Moves c s (s.record (.write c b a)) := .single (.record s _)
  cases a with
  | ok => exact (hr.trans (moves_sentPhases u c _)).trans (moves_beginReceive u c _)
  | short n => exact (hr.trans (moves_applyResidue c _)).trans (moves_endTransfer u c _ _)
  | busy => exact hr.trans (moves_endTransfer u c _ _)
  | timeout => exact (hr.trans (moves_applyResidue c _)).trans (moves_endTransfer u c _ _)
  | disconnected => exact (hr.tail (.degrade _)).trans (moves_endTransfer u c _ _)

theorem moves_transmitDrawn (u : TransferUser) (c : CallerId) (b : Buffer) (s : State) :
    Moves c s (transmitDrawn u c b s) :=
  (moves_drawWrite c s).trans (moves_transmitStep u c b _ _)

theorem moves_startTransfer (u : TransferUser) (c : CallerId) (bytes : List Byte) (s : State) :
    Moves c s (startTransfer u c bytes s) := by
  unfold startTransfer
  split
  · exact moves_endTransfer u c _ s
  · exact moves_endTransfer u c _ s
  · split
    · exact moves_endTransfer u c _ s
    · unfold beginTransmit
      split
      · exact moves_hold s c _
      · exact moves_transmitDrawn u c _ s

/-! ### The gate -/

theorem moves_grantGate (u : GateUser) (c : CallerId) (s : State) : Moves c s (grantGate u c s) := by
  have ht : Moves c s (s.setHolder (some c)) := .single (.takeGate s)
  cases u with
  | lock => exact ht.trans (moves_succeed _ c _)
  | exchange bytes => exact ht.trans (moves_startTransfer _ c bytes _)
  | request v t a b => exact ht.trans (moves_startTransfer _ c b.toList _)

theorem moves_reentrantGate (u : GateUser) (c : CallerId) (s : State) : Moves c s (reentrantGate u c s) := by
  cases u with
  | lock => exact moves_raise s c _
  | exchange bytes => exact moves_raise s c _
  | request v t a b => exact moves_rejectExchange c _ s

theorem moves_takeGate (u : GateUser) (c : CallerId) (s : State) : Moves c s (takeGate u c s) := by
  unfold takeGate
  split
  · exact moves_reentrantGate u c s
  · split
    · exact moves_grantGate u c s
    · exact moves_hold s c _

theorem moves_sendBuilt (c : CallerId) (v : Variant) (t a : Nat) {q : Packet} (s : State) (h : packetWf q = true) :
    Moves c s (sendBuilt c v t a q s) := by
  have h1 : Moves c s (s.mapCaller c fun k => (k.setPacket .req q).enter .built) :=
    .single (.own s _ ((OwnUpdate.setPacket _ _ fun _ => h).trans (.enter _ _)))
  exact (h1.trans (moves_setPacket _ c .req fun _ => packetWf_encoded h)).trans (moves_takeGate _ c _)

/-! ### Whole operations -/

/-- Going on with a held operation is a chain of moves of its caller. -/
theorem resume_moves (c : CallerId) (h : Held) (s : State) : Moves c s (resume c h s) := by
  cases h with
  | atLock u =>
    simp only [resume]
    split
    · exact moves_grantGate u c s
    · exact .refl
  | atReestablish hd =>
    simp only [resume]
    split
    · exact moves_restoreSession c hd s
    · exact .refl
  | atTransmit u b => exact moves_transmitDrawn u c b s
  | atReceive u => exact moves_receiveDrawn u c s

/-- An arriving packet is a chain of moves of the gate's holder, or only adds an answer. -/
theorem deliverPacket_moves (b : Buffer) (s : State) :
    deliverPacket b s = { s with transport := { s.transport with reads := s.transport.reads ++ [.ok b] } } ∨
      ∃ c u, s.session.holder = some c ∧ (s.caller c).held = some (.atReceive u) ∧ Moves c s (deliverPacket b s) ∧
        deliverPacket b s =
          receiveDrawn u c { s with transport := { s.transport with reads := s.transport.reads ++ [.ok b] } } := by
  unfold deliverPacket
  dsimp only
  split
  · exact .inl rfl
  · next c hc =>
    split
    · next u hu =>
      refine .inr ⟨c, u, hc, hu, ?_, rfl⟩
      exact (Relation.ReflTransGen.single (.answers s { s.transport with reads := s.transport.reads ++ [.ok b] } rfl)).trans
        (moves_receiveDrawn u c _)
    · exact .inl rfl

/-- A command is a chain of moves of its caller. -/
theorem exec_moves {i : Instr} {c : CallerId} {s t : State} (hc : callerOf i = some c) (h : exec i s = .next t) :
    Moves c s t := by
  cases i <;> simp only [callerOf, Option.some.injEq, reduceCtorEq] at hc <;> subst hc
  case lookup c m =>
    simp only [exec, execLookup] at h
    split at h <;> obtain rfl := Host.Outcome.next.inj h
    · exact moves_succeed s c _
    · exact moves_raise s c _
  case descInfo c d =>
    obtain ⟨v, _, h⟩ := withVariant_next h
    obtain rfl := Host.Outcome.next.inj h
    exact moves_succeed s c _
  case construct c p d t f a x =>
    obtain ⟨n, rfl, h⟩ := withWritten_next h
    obtain ⟨v, _, h⟩ := withVariant_next h
    obtain rfl := Host.Outcome.next.inj h
    exact moves_commit s c _ _ fun q hq _ => packetWf_constructPacket hq
  case encode c p =>
    obtain ⟨n, rfl, h⟩ := withWritten_next h
    obtain ⟨v, _, rfl⟩ := withBound_next h
    exact (moves_setPacket s c _ packetWf_encoded).trans (moves_succeed _ c _)
  case decode c p d bytes =>
    obtain ⟨n, rfl, h⟩ := withWritten_next h
    obtain ⟨v, _, h⟩ := withVariant_next h
    obtain rfl := Host.Outcome.next.inj h
    exact moves_commit s c _ _ fun q hq _ => packetWf_decodePacket hq
  case validate c p =>
    simp only [exec, execValidate] at h
    obtain ⟨v, _, rfl⟩ := withBound_next h
    split
    · exact moves_raise s c _
    · exact moves_succeed s c _
  case reuse c p =>
    obtain ⟨n, rfl, h⟩ := withWritten_next h
    obtain rfl := Host.Outcome.next.inj h
    exact (moves_setPacket s c _ fun _ => packetWf_reused _).trans (moves_succeed _ c _)
  case getTarget c p =>
    simp only [exec, execGetTarget] at h
    obtain ⟨v, _, rfl⟩ := withBound_next h
    exact moves_succeed s c _
  case getAddress c p =>
    simp only [exec, execGetAddress] at h
    obtain ⟨v, _, rfl⟩ := withBound_next h
    exact moves_succeed s c _
  case getData c p =>
    simp only [exec, execGetData] at h
    obtain ⟨v, _, rfl⟩ := withBound_next h
    exact moves_succeed s c _
  case isWrite c p =>
    simp only [exec, execIsWrite] at h
    obtain ⟨v, _, rfl⟩ := withBound_next h
    exact moves_succeed s c _
  case isSuccess c p =>
    simp only [exec, execIsSuccess] at h
    obtain ⟨v, _, rfl⟩ := withBound_next h
    exact moves_succeed s c _
  case setTarget c p x =>
    obtain ⟨n, rfl, h⟩ := withWritten_next h
    obtain ⟨v, _, rfl⟩ := withBound_next h
    exact moves_commit s c _ _ fun q hq => packetWf_targetSet hq
  case setAddress c p x =>
    obtain ⟨n, rfl, h⟩ := withWritten_next h
    obtain ⟨v, _, rfl⟩ := withBound_next h
    exact moves_commit s c _ _ fun q hq => packetWf_addressSet hq
  case setData c p x =>
    obtain ⟨n, rfl, h⟩ := withWritten_next h
    obtain ⟨v, _, rfl⟩ := withBound_next h
    exact moves_commit s c _ _ fun q hq => packetWf_dataSet hq
  case setWrite c p b =>
    obtain ⟨n, rfl, h⟩ := withWritten_next h
    obtain ⟨x, h⟩ := withBoolean_next h
    obtain ⟨v, _, rfl⟩ := withBound_next h
    refine moves_commit s c _ _ fun q hq hw => ?_
    rw [← Result.ok.inj hq]
    exact packetWf_flagsSet _ hw
  case setSuccess c p b =>
    obtain ⟨n, rfl, h⟩ := withWritten_next h
    obtain ⟨x, h⟩ := withBoolean_next h
    obtain ⟨v, _, rfl⟩ := withBound_next h
    refine moves_commit s c _ _ fun q hq hw => ?_
    rw [← Result.ok.inj hq]
    exact packetWf_flagsSet _ hw
  case acquireOnce c hd =>
    obtain rfl := Host.Outcome.next.inj h
    exact moves_acquireSession c hd s
  case reestablish c hd =>
    obtain rfl := Host.Outcome.next.inj h
    exact moves_reestablishSession c hd s
  case lock c =>
    obtain rfl := Host.Outcome.next.inj h
    exact moves_takeGate .lock c s
  case unlock c =>
    simp only [exec, execUnlock] at h
    split at h
    · obtain rfl := Host.Outcome.next.inj h
      exact (Relation.ReflTransGen.single (.freeGate s)).trans (moves_succeed _ c _)
    · cases h
  case transfer c bytes =>
    simp only [exec, execTransfer] at h
    split at h
    · obtain rfl := Host.Outcome.next.inj h
      exact moves_startTransfer .raw c bytes s
    · cases h
  case exchange c bytes =>
    obtain rfl := Host.Outcome.next.inj h
    exact moves_takeGate (.exchange bytes) c s
  case sendRequest c d t f a x =>
    obtain ⟨v, _, h⟩ := withVariant_next h
    have hb : Moves c s (s.mapCaller c Caller.beginExchange) := .single (.own s _ (.beginExchange _))
    split at h
    · obtain rfl := Host.Outcome.next.inj h
      exact hb.trans (moves_rejectExchange c _ _)
    · next q hq =>
      obtain rfl := Host.Outcome.next.inj h
      exact hb.trans (moves_sendBuilt c v t a _ (packetWf_constructPacket hq))

/-! ### The canonical form (log 3) -/

/-- Changing a caller keeps the state in canonical form where it keeps the caller's registers so. -/
theorem State.wf_mapCaller {s : State} (c : CallerId) (f : Caller → Caller) (h : s.wf = true)
    (hf : Memory.wf (s.caller c).regs = true → Memory.wf (f (s.caller c)).regs = true) : (s.mapCaller c f).wf = true := by
  simp only [State.wf, Bool.and_eq_true, List.all_eq_true] at h ⊢
  refine ⟨storeWf_set Caller.fresh s.callers c _ h.1, fun kv hkv => ?_⟩
  rcases mem_storeSet Caller.fresh hkv with rfl | hkv
  · refine hf ?_
    have hg : s.caller c = Caller.fresh ∨ ∃ k, (k, s.caller c) ∈ s.callers := storeGet_mem Caller.fresh s.callers c
    rcases hg with hg | ⟨k, hk⟩
    · rw [hg]
      rfl
    · exact h.2 _ hk
  · exact h.2 _ hkv

/-- Every move keeps the canonical form. -/
theorem Move.keeps_wf {c : CallerId} {s t : State} (hm : Move c s t) (h : s.wf = true) : t.wf = true := by
  cases hm with
  | own f hf => exact State.wf_mapCaller c f h hf.canonical
  | takeGate => exact h
  | freeGate => exact h
  | degrade => exact h
  | unbind => exact h
  | bind hd => exact h
  | record e => exact h
  | answers tr hi => exact h

theorem reset_wf : State.reset.wf = true := rfl

end Sys2Proof.Machine
end

