-- ==== Sys2Proof/Laws/PerInstr.lean ====
section
/-!
SUPPORT. One lemma per instruction: decoding what the encoder writes gives the instruction back, every operand at every
value, so no bit of an encoding is dropped (R47, R54, R55).
-/

namespace Sys2Proof.Machine

theorem opcodeOf_opcodeCode (o : Opcode) : opcodeOf (opcodeCode o) = some o := by cases o <;> decide

/-- A well-formed instruction comes back from the record of its operation. -/
theorem decode_commandOf {o : Opcode} {c : CallerId} {operands : List Operand} {i : Instr}
    (hi : commandInstr c o operands = some i) (hw : i.WellFormed) : decode (commandOf o c operands) = .ok i := by
  simp only [commandOf, decode, decodeCommand, opcodeOf_opcodeCode, hi]
  rw [show i.defect = none from hw]

/-- The fields of a laid-out packet come back (R47). -/
theorem decode_packetOf (v : Variant) (f t : Byte) (a d p : Nat) (ha : a < 2 ^ addressWidth v) (hd : d < 2 ^ dataWidth v)
    (hp : p < 256 ^ (16 - paddingStart v)) : decode (packetOf v f t a d p) = .ok (packetInstr f t a d p v) := by
  have hl : Config.wireLength = 16 := rfl
  have h0 : byteAt (wireLayout v f t a d p) 0 = magicOf v := by rw [byteAt_wireLayout _ _ _ _ _ _ _ (by omega)]; rfl
  have h1 : byteAt (wireLayout v f t a d p) 1 = f := by rw [byteAt_wireLayout _ _ _ _ _ _ _ (by omega)]; rfl
  have h2 : byteAt (wireLayout v f t a d p) 2 = t := by rw [byteAt_wireLayout _ _ _ _ _ _ _ (by omega)]; rfl
  simp only [packetOf, decode, decodeWire, toList_length, bufferOf_toList, h0, variantOfMagic_magicOf, wireFields, h1, h2,
    leValue_wireLayout_address v f t a d p ha, leValue_wireLayout_data v f t a d p hd, hl,
    leValue_wireLayout_padding v f t a d p hp, if_true]

end Sys2Proof.Machine

namespace Sys2Proof.Laws.RoundTrip

open Sys2Proof.Machine

/-- Decoding the encoding of a well-formed instruction gives the instruction. -/
def Statement (i : Instr) : Prop := i.WellFormed → decode (encode i) = .ok i

theorem pkt8x8 (f t : Byte) (a : BitVec 8) (d : BitVec 8) (p : BitVec 88) : Statement (.pkt8x8 f t a d p) := by
  intro _
  have h := decode_packetOf .v8x8 f t a.toNat d.toNat p.toNat a.isLt d.isLt p.isLt
  simpa [encode, packetInstr] using h

theorem pkt8x16 (f t : Byte) (a : BitVec 8) (d : BitVec 16) (p : BitVec 80) : Statement (.pkt8x16 f t a d p) := by
  intro _
  have h := decode_packetOf .v8x16 f t a.toNat d.toNat p.toNat a.isLt d.isLt p.isLt
  simpa [encode, packetInstr] using h

theorem pkt8x32 (f t : Byte) (a : BitVec 8) (d : BitVec 32) (p : BitVec 64) : Statement (.pkt8x32 f t a d p) := by
  intro _
  have h := decode_packetOf .v8x32 f t a.toNat d.toNat p.toNat a.isLt d.isLt p.isLt
  simpa [encode, packetInstr] using h

theorem pkt8x64 (f t : Byte) (a : BitVec 8) (d : BitVec 64) (p : BitVec 32) : Statement (.pkt8x64 f t a d p) := by
  intro _
  have h := decode_packetOf .v8x64 f t a.toNat d.toNat p.toNat a.isLt d.isLt p.isLt
  simpa [encode, packetInstr] using h

theorem pkt16x64 (f t : Byte) (a : BitVec 16) (d : BitVec 64) (p : BitVec 24) : Statement (.pkt16x64 f t a d p) := by
  intro _
  have h := decode_packetOf .v16x64 f t a.toNat d.toNat p.toNat a.isLt d.isLt p.isLt
  simpa [encode, packetInstr] using h

theorem pkt32x32 (f t : Byte) (a : BitVec 32) (d : BitVec 32) (p : BitVec 40) : Statement (.pkt32x32 f t a d p) := by
  intro _
  have h := decode_packetOf .v32x32 f t a.toNat d.toNat p.toNat a.isLt d.isLt p.isLt
  simpa [encode, packetInstr] using h

theorem lookup (c : CallerId) (m : Nat) : Statement (.lookup c m) :=
  fun hw => decode_commandOf rfl hw

theorem descInfo (c : CallerId) (d : Nat) : Statement (.descInfo c d) :=
  fun hw => decode_commandOf rfl hw

theorem construct (c : CallerId) (p : PacketReg) (d : Nat) (t : Nat) (f : Nat) (a : Nat) (v : Nat) : Statement (.construct c p d t f a v) :=
  fun hw => decode_commandOf rfl hw

theorem encode (c : CallerId) (p : PacketReg) : Statement (.encode c p) :=
  fun hw => decode_commandOf rfl hw

theorem decode (c : CallerId) (p : PacketReg) (d : Nat) (s : List Byte) : Statement (.decode c p d s) :=
  fun hw => decode_commandOf rfl hw

theorem validate (c : CallerId) (p : PacketReg) : Statement (.validate c p) :=
  fun hw => decode_commandOf rfl hw

theorem reuse (c : CallerId) (p : PacketReg) : Statement (.reuse c p) :=
  fun hw => decode_commandOf rfl hw

theorem getTarget (c : CallerId) (p : PacketReg) : Statement (.getTarget c p) :=
  fun hw => decode_commandOf rfl hw

theorem getAddress (c : CallerId) (p : PacketReg) : Statement (.getAddress c p) :=
  fun hw => decode_commandOf rfl hw

theorem getData (c : CallerId) (p : PacketReg) : Statement (.getData c p) :=
  fun hw => decode_commandOf rfl hw

theorem isWrite (c : CallerId) (p : PacketReg) : Statement (.isWrite c p) :=
  fun hw => decode_commandOf rfl hw

theorem isSuccess (c : CallerId) (p : PacketReg) : Statement (.isSuccess c p) :=
  fun hw => decode_commandOf rfl hw

theorem setTarget (c : CallerId) (p : PacketReg) (v : Nat) : Statement (.setTarget c p v) :=
  fun hw => decode_commandOf rfl hw

theorem setAddress (c : CallerId) (p : PacketReg) (v : Nat) : Statement (.setAddress c p v) :=
  fun hw => decode_commandOf rfl hw

theorem setData (c : CallerId) (p : PacketReg) (v : Nat) : Statement (.setData c p v) :=
  fun hw => decode_commandOf rfl hw

theorem setWrite (c : CallerId) (p : PacketReg) (b : Nat) : Statement (.setWrite c p b) :=
  fun hw => decode_commandOf rfl hw

theorem setSuccess (c : CallerId) (p : PacketReg) (b : Nat) : Statement (.setSuccess c p b) :=
  fun hw => decode_commandOf rfl hw

theorem acquireOnce (c : CallerId) (h : Handle) : Statement (.acquireOnce c h) :=
  fun hw => decode_commandOf rfl hw

theorem reestablish (c : CallerId) (h : Handle) : Statement (.reestablish c h) :=
  fun hw => decode_commandOf rfl hw

theorem lock (c : CallerId) : Statement (.lock c) :=
  fun hw => decode_commandOf rfl hw

theorem unlock (c : CallerId) : Statement (.unlock c) :=
  fun hw => decode_commandOf rfl hw

theorem transfer (c : CallerId) (s : List Byte) : Statement (.transfer c s) :=
  fun hw => decode_commandOf rfl hw

theorem exchange (c : CallerId) (s : List Byte) : Statement (.exchange c s) :=
  fun hw => decode_commandOf rfl hw

theorem sendRequest (c : CallerId) (d : Nat) (t : Nat) (f : Nat) (a : Nat) (v : Nat) : Statement (.sendRequest c d t f a v) :=
  fun hw => decode_commandOf rfl hw

end Sys2Proof.Laws.RoundTrip
end

