-- ==== Sys2Proof/Laws/Steps.lean ====
section
/-!
SUPPORT. What one step can do, said once: nothing but wait, go on with a held operation, run a caller's command, or deliver a
packet.
-/

namespace Sys2Proof.Machine

/-- A caller's next command is its own and was issued. -/
theorem takeIssued_some {c : CallerId} {issued left : List Command} {cmd : Command}
    (h : takeIssued c issued = some (cmd, left)) : cmd.caller = c ∧ cmd ∈ issued ∧ ∀ x ∈ left, x ∈ issued := by
  induction issued generalizing left with
  | nil => cases h
  | cons x rest ih =>
    simp only [takeIssued] at h
    split_ifs at h with hx
    · simp only [Option.some.injEq, Prod.mk.injEq] at h
      obtain ⟨rfl, rfl⟩ := h
      exact ⟨hx, List.mem_cons_self, fun y hy => List.mem_cons_of_mem _ hy⟩
    · obtain ⟨⟨y, l⟩, hy, he⟩ := Option.map_eq_some_iff.1 h
      simp only [Prod.mk.injEq] at he
      obtain ⟨rfl, rfl⟩ := he
      obtain ⟨h1, h2, h3⟩ := ih hy
      refine ⟨h1, List.mem_cons_of_mem _ h2, fun z hz => ?_⟩
      rcases List.mem_cons.1 hz with rfl | hz
      · exact List.mem_cons_self
      · exact List.mem_cons_of_mem _ (h3 z hz)

/-- An instruction decoded from a command is the issuing caller's. -/
theorem decodeCommand_callerOf {cmd : Command} {i : Instr} (h : decodeCommand cmd = .ok i) :
    callerOf i = some cmd.caller := by
  unfold decodeCommand at h
  split at h
  · cases h
  · split at h
    · cases h
    · next j hj =>
      split at h
      · cases h
      · cases h
        unfold commandInstr at hj
        split at hj <;> first | (obtain rfl := Option.some.inj hj; rfl) | cases hj

/-- A wire instruction with fields in range delivers their layout. -/
theorem exec_packetInstr (v : Variant) (f t : Byte) (a d p : Nat) (s : State) (ha : a < 256 ^ addressBytes v)
    (hd : d < 256 ^ dataBytes v) (hp : p < 256 ^ (16 - paddingStart v)) :
    exec (packetInstr f t a d p v) s = .next (deliverPacket (wireLayout v f t a d p) s) := by
  cases v
  case v8x8 =>
    have ea : (BitVec.ofNat 8 a).toNat = a := (BitVec.toNat_ofNat _ _).trans (Nat.mod_eq_of_lt ha)
    have ed : (BitVec.ofNat 8 d).toNat = d := (BitVec.toNat_ofNat _ _).trans (Nat.mod_eq_of_lt hd)
    have ep : (BitVec.ofNat 88 p).toNat = p := (BitVec.toNat_ofNat _ _).trans (Nat.mod_eq_of_lt hp)
    simp only [packetInstr, exec, execPkt8x8, ea, ed, ep]
  case v8x16 =>
    have ea : (BitVec.ofNat 8 a).toNat = a := (BitVec.toNat_ofNat _ _).trans (Nat.mod_eq_of_lt ha)
    have ed : (BitVec.ofNat 16 d).toNat = d := (BitVec.toNat_ofNat _ _).trans (Nat.mod_eq_of_lt hd)
    have ep : (BitVec.ofNat 80 p).toNat = p := (BitVec.toNat_ofNat _ _).trans (Nat.mod_eq_of_lt hp)
    simp only [packetInstr, exec, execPkt8x16, ea, ed, ep]
  case v8x32 =>
    have ea : (BitVec.ofNat 8 a).toNat = a := (BitVec.toNat_ofNat _ _).trans (Nat.mod_eq_of_lt ha)
    have ed : (BitVec.ofNat 32 d).toNat = d := (BitVec.toNat_ofNat _ _).trans (Nat.mod_eq_of_lt hd)
    have ep : (BitVec.ofNat 64 p).toNat = p := (BitVec.toNat_ofNat _ _).trans (Nat.mod_eq_of_lt hp)
    simp only [packetInstr, exec, execPkt8x32, ea, ed, ep]
  case v8x64 =>
    have ea : (BitVec.ofNat 8 a).toNat = a := (BitVec.toNat_ofNat _ _).trans (Nat.mod_eq_of_lt ha)
    have ed : (BitVec.ofNat 64 d).toNat = d := (BitVec.toNat_ofNat _ _).trans (Nat.mod_eq_of_lt hd)
    have ep : (BitVec.ofNat 32 p).toNat = p := (BitVec.toNat_ofNat _ _).trans (Nat.mod_eq_of_lt hp)
    simp only [packetInstr, exec, execPkt8x64, ea, ed, ep]
  case v16x64 =>
    have ea : (BitVec.ofNat 16 a).toNat = a := (BitVec.toNat_ofNat _ _).trans (Nat.mod_eq_of_lt ha)
    have ed : (BitVec.ofNat 64 d).toNat = d := (BitVec.toNat_ofNat _ _).trans (Nat.mod_eq_of_lt hd)
    have ep : (BitVec.ofNat 24 p).toNat = p := (BitVec.toNat_ofNat _ _).trans (Nat.mod_eq_of_lt hp)
    simp only [packetInstr, exec, execPkt16x64, ea, ed, ep]
  case v32x32 =>
    have ea : (BitVec.ofNat 32 a).toNat = a := (BitVec.toNat_ofNat _ _).trans (Nat.mod_eq_of_lt ha)
    have ed : (BitVec.ofNat 32 d).toNat = d := (BitVec.toNat_ofNat _ _).trans (Nat.mod_eq_of_lt hd)
    have ep : (BitVec.ofNat 40 p).toNat = p := (BitVec.toNat_ofNat _ _).trans (Nat.mod_eq_of_lt hp)
    simp only [packetInstr, exec, execPkt32x32, ea, ed, ep]

/-- A packet that decodes runs as its delivery. -/
theorem exec_decodeWire {b : Buffer} {i : Instr} {s : State} (h : decodeWire b.toList = .ok i) :
    exec i s = .next (deliverPacket b s) := by
  simp only [decodeWire, toList_length, bufferOf_toList] at h
  rw [if_pos trivial] at h
  split at h
  · next v hv =>
    have h0 : byteAt b 0 = magicOf v := (BitVec.eq_of_toNat_eq (variantOfMagic_eq_some.1 hv)).symm
    have hx := exec_packetInstr v (byteAt b 1) (byteAt b 2) _ _ _ s (leValue_lt b 3 (addressBytes v))
      (leValue_lt b (dataStart v) (dataBytes v)) (leValue_lt b (paddingStart v) (16 - paddingStart v))
    rw [wireLayout_fields v b h0] at hx
    rw [← Except.ok.inj h]
    exact hx
  · cases h

/-- Running a packet delivers it, whatever its byte 0. -/
theorem runFrame_wire (b : Buffer) (s : State) : runFrame (.wire b.toList) s = .next (deliverPacket b s) := by
  simp only [runFrame, decode]
  cases h : decodeWire b.toList with
  | ok i => exact exec_decodeWire h
  | error e => simp only [rejectFrame, bufferOf_toList]

/-- Running a command that has a next state runs an instruction of its caller. -/
theorem runFrame_command {cmd : Command} {s t : State} (h : runFrame (.command cmd) s = .next t) :
    ∃ i, decodeCommand cmd = .ok i ∧ callerOf i = some cmd.caller ∧ exec i s = .next t := by
  simp only [runFrame, decode] at h
  cases hd : decodeCommand cmd with
  | ok i =>
    rw [hd] at h
    exact ⟨i, rfl, decodeCommand_callerOf hd, h⟩
  | error e =>
    rw [hd] at h
    cases h

/-- The state in which an agent's work begins: the schedule, and the count of free values where the schedule was empty, have gone
on. -/
structure Begun (s s0 : State) : Prop where
  session : s0.session = s.session
  callers : s0.callers = s.callers
  issued : s0.issued = s.issued
  wire : s0.wire = s.wire
  inbound : s0.transport.inbound = s.transport.inbound

theorem nextAgent_begun (s : State) : Begun s (nextAgent s).2 := by
  unfold nextAgent
  split <;> exact ⟨rfl, rfl, rfl, rfl, rfl⟩

/-- What a step that has a next state does. -/
theorem step_cases {s t : State} (h : step s = .next t) :
    ∃ s0, Begun s s0 ∧
      (t = s0 ∨
        (∃ c hd, (s0.caller c).held = some hd ∧ t = resume c hd s0) ∨
        (∃ c cmd left i, (s0.caller c).held = none ∧ takeIssued c s0.issued = some (cmd, left) ∧
          callerOf i = some c ∧ exec i { s0 with issued := left } = .next t) ∨
        ∃ b rest, s0.transport.inbound = b :: rest ∧
          t = deliverPacket b { s0 with transport := { s0.transport with inbound := rest } }) := by
  refine ⟨(nextAgent s).2, nextAgent_begun s, ?_⟩
  simp only [step, fetch] at h
  generalize (nextAgent s).2 = s0 at *
  cases ha : (nextAgent s).1 with
  | caller c =>
    simp only [ha, workOf] at h
    cases hh : (s0.caller c).held with
    | some hd =>
      simp only [hh] at h
      exact .inr (.inl ⟨c, hd, hh, (Host.Outcome.next.inj h).symm⟩)
    | none =>
      simp only [hh] at h
      cases ht : takeIssued c s0.issued with
      | none =>
        simp only [ht] at h
        exact .inl (Host.Outcome.next.inj h).symm
      | some r =>
        obtain ⟨cmd, left⟩ := r
        simp only [ht] at h
        have hk := ht
        obtain ⟨i, _, hc, he⟩ := runFrame_command h
        rw [(takeIssued_some ht).1] at hc
        exact .inr (.inr (.inl ⟨c, cmd, left, i, hh, hk, hc, he⟩))
  | transport =>
    simp only [ha, workOf] at h
    cases hi : s0.transport.inbound with
    | nil =>
      simp only [hi] at h
      exact .inl (Host.Outcome.next.inj h).symm
    | cons b rest =>
      simp only [hi] at h
      rw [runFrame_wire] at h
      exact .inr (.inr (.inr ⟨b, rest, rfl, (Host.Outcome.next.inj h).symm⟩))

end Sys2Proof.Machine
end

