-- ==== Sys2Proof/Machine/Assembly.lean ====
section
/-!
DEFINITION. The assembly form of a command (R57, R58): from one statement's text to the command record of R54. The grammar
beyond the source's one example is the spec's own; what the spec leaves open of it is log 25. Everything is total: a
statement that is none is refused by name.
-/

namespace Sys2Proof.Machine

/-- Why a text is no statement. -/
inductive AssemblyError where
  /-- The text is not of the form `[dest =] mnemonic(...)` (R57). -/
  | statement
  /-- No operation has the mnemonic (R55, R57). -/
  | mnemonic
  /-- More or fewer operands than the operation's rule has (R57). -/
  | operandCount
  /-- A name that is not the operand's at that place (R57). -/
  | operandName
  /-- A value that is not of the operand's kind (R57, R58). -/
  | operandValue
deriving DecidableEq, Repr

/-! ### Words and signs -/

/-- A piece of a statement: a word, or one of the signs of R57 and R58. -/
inductive Token where
  | word (w : List Char)
  | sign (x : Char)
deriving DecidableEq, Repr

/-- A character of a word: a letter, a digit, an underscore or the multiplication sign. -/
def wordChar (x : Char) : Bool := x.isAlphanum || x == '_' || x == '×'

/-- The word read so far, if any, before the tokens that follow. -/
def endWord (w : List Char) (rest : List Token) : List Token :=
  match w with
  | [] => rest
  | _ :: _ => .word w :: rest

/-- The tokens of a text whose last word so far is `w`. Blanks only separate; any other character is a sign. -/
def tokensFrom (w : List Char) : List Char → List Token
  | [] => endWord w []
  | x :: rest =>
    if wordChar x then tokensFrom (w ++ [x]) rest
    else if x == ' ' then endWord w (tokensFrom [] rest)
    else endWord w (.sign x :: tokensFrom [] rest)

/-- The operands between the commas that stand in no bracket; `inside` says that a bracket is open, `now` is the operand
so far. -/
def operandsFrom (inside : Bool) (now : List Token) : List Token → List (List Token)
  | [] => [now]
  | .word w :: rest => operandsFrom inside (now ++ [.word w]) rest
  | .sign x :: rest =>
    if x == ',' && !inside then now :: operandsFrom false [] rest
    else operandsFrom ((inside || x == '[') && !(x == ']')) (now ++ [.sign x]) rest

/-- The words that stand between single signs `x`; none where two words or two signs meet. -/
def separatedBy (x : Char) : List Token → Option (List (List Char))
  | [.word w] => some [w]
  | .word w :: .sign y :: rest => if y == x then (separatedBy x rest).map fun ws => w :: ws else none
  | _ => none

/-! ### Values -/

/-- The value of a digit in a base up to 16. -/
def digitOf (base : Nat) (x : Char) : Option Nat :=
  let d :=
    if x.isDigit then x.toNat - '0'.toNat
    else if 'a' ≤ x ∧ x ≤ 'f' then x.toNat - 'a'.toNat + 10
    else if 'A' ≤ x ∧ x ≤ 'F' then x.toNat - 'A'.toNat + 10
    else 16
  if d < base then some d else none

/-- The number of a sequence of digits that follows `n`. -/
def numberFrom (base n : Nat) : List Char → Option Nat
  | [] => some n
  | x :: rest =>
    match digitOf base x with
    | some d => numberFrom base (n * base + d) rest
    | none => none

/-- A number, decimal or `0x` hexadecimal (R57). -/
def numberOf : List Char → Option Nat
  | [] => none
  | '0' :: 'x' :: x :: rest => numberFrom 16 0 (x :: rest)
  | x :: rest => numberFrom 10 0 (x :: rest)

/-- The name with every multiplication sign written `x`: the two spellings are one (R57). -/
def plainCross (w : List Char) : List Char := w.map fun x => if x == '×' then 'x' else x

/-- The index of a descriptor written by its name (R46, R57). -/
def descriptorIndex (w : List Char) : Option Nat :=
  (allVariants.find? fun v => plainCross (descriptorOf v).name.toList == plainCross w).map indexOf

/-- A packet register: `p0`, `p1`, …, `req` or `resp` (R57). -/
def packetRegOf (w : List Char) : Option PacketReg :=
  if w == "req".toList then some .req
  else if w == "resp".toList then some .resp
  else
    match w with
    | 'p' :: x :: rest => (numberFrom 10 0 (x :: rest)).map PacketReg.p
    | _ => none

/-- A flag symbol, or a number in its place (R58). -/
def flagTerm (w : List Char) : Option Nat :=
  if w == "READ".toList then some flagRead
  else if w == "WRITE".toList then some flagWrite
  else if w == "SUCCESS".toList then some flagSuccess
  else numberOf w

/-- Terms combined with `|` (R58). -/
def flagsFrom : List (List Char) → Option Nat
  | [] => some 0
  | w :: rest =>
    match flagTerm w, flagsFrom rest with
    | some x, some y => some (x ||| y)
    | _, _ => none

/-- A Boolean, in words or as the number it stands for (R75; log 25). -/
def booleanTerm (w : List Char) : Option Nat :=
  if w == "false".toList then some 0 else if w == "true".toList then some 1 else numberOf w

/-- The bytes of a list of numbers, each below 256 (R57). -/
def bytesFrom : List (List Char) → Option (List Byte)
  | [] => some []
  | w :: rest =>
    match numberOf w, bytesFrom rest with
    | some x, some bs => if x < 256 then some (BitVec.ofNat 8 x :: bs) else none
    | _, _ => none

/-! ### Operands -/

/-- The kinds of operand that the rules list (R54, R57, R58). -/
inductive OperandKind where
  | packet
  | descriptor
  | number
  | flags
  | boolean
  | bytes
  | handle
deriving DecidableEq, Repr

/-- The operands of each operation in its rule's order, each with the names it may be given: the rule's own, and the longer
one of the source's example where it has one (R57, R60 to R94). -/
def signatureOf : Opcode → List (List String × OperandKind)
  | .lookup => [(["m"], .number)]
  | .descInfo => [(["d", "descriptor"], .descriptor)]
  | .construct =>
    [(["p"], .packet), (["d", "descriptor"], .descriptor), (["target_id"], .number), (["flags"], .flags),
      (["address"], .number), (["data"], .number)]
  | .encode => [(["p"], .packet)]
  | .decode => [(["p"], .packet), (["d", "descriptor"], .descriptor), (["s", "bytes"], .bytes)]
  | .validate => [(["p"], .packet)]
  | .reuse => [(["p"], .packet)]
  | .getTarget => [(["p"], .packet)]
  | .getAddress => [(["p"], .packet)]
  | .getData => [(["p"], .packet)]
  | .isWrite => [(["p"], .packet)]
  | .isSuccess => [(["p"], .packet)]
  | .setTarget => [(["p"], .packet), (["v"], .number)]
  | .setAddress => [(["p"], .packet), (["v"], .number)]
  | .setData => [(["p"], .packet), (["v"], .number)]
  | .setWrite => [(["p"], .packet), (["b"], .boolean)]
  | .setSuccess => [(["p"], .packet), (["b"], .boolean)]
  | .acquireOnce => [(["h"], .handle)]
  | .reestablish => [(["h"], .handle)]
  | .lock => []
  | .unlock => []
  | .transfer => [(["s", "bytes"], .bytes)]
  | .exchange => [(["s", "bytes"], .bytes)]
  | .sendRequest =>
    [(["d", "descriptor"], .descriptor), (["target_id"], .number), (["flags"], .flags), (["address"], .number),
      (["data"], .number)]

/-- The mnemonics, in lower case (R55, R57). -/
def assemblyName : Opcode → String
  | .lookup => "lookup"
  | .descInfo => "desc_info"
  | .construct => "construct"
  | .encode => "encode"
  | .decode => "decode"
  | .validate => "validate"
  | .reuse => "reuse"
  | .getTarget => "get_target"
  | .getAddress => "get_address"
  | .getData => "get_data"
  | .isWrite => "is_write"
  | .isSuccess => "is_success"
  | .setTarget => "set_target"
  | .setAddress => "set_address"
  | .setData => "set_data"
  | .setWrite => "set_write"
  | .setSuccess => "set_success"
  | .acquireOnce => "acquire_once"
  | .reestablish => "reestablish"
  | .lock => "lock"
  | .unlock => "unlock"
  | .transfer => "transfer"
  | .exchange => "exchange"
  | .sendRequest => "send_request"

/-- The operation of a mnemonic. -/
def mnemonicOpcode (w : List Char) : Option Opcode := allOpcodes.find? fun o => (assemblyName o).toList == w

/-- Names that a program has for values: a handle such as `H`, the bytes that an earlier statement's `dest` received
(R57; log 25). -/
abbrev Names := List (String × Operand)

/-- The value of a name. -/
def namedValue (names : Names) (w : List Char) : Option Operand :=
  (names.find? fun n => n.1.toList == w).map Prod.snd

/-- A name's value where the operand's kind admits it. -/
def namedOperand (names : Names) (k : OperandKind) (w : List Char) : Option Operand :=
  match k, namedValue names w with
  | .bytes, some (.bytes s) => some (.bytes s)
  | .handle, some (.handle h) => some (.handle h)
  | .number, some (.num n) => some (.num n)
  | .flags, some (.num n) => some (.num n)
  | _, _ => none

/-- One word as an operand of a kind. -/
def wordOperand (names : Names) (k : OperandKind) (w : List Char) : Option Operand :=
  match k with
  | .packet => (packetRegOf w).map Operand.packet
  | .descriptor => ((descriptorIndex w).or (numberOf w)).map Operand.num
  | .number => ((numberOf w).map Operand.num).or (namedOperand names .number w)
  | .flags => ((flagTerm w).map Operand.num).or (namedOperand names .flags w)
  | .boolean => (booleanTerm w).map Operand.num
  | .bytes => namedOperand names .bytes w
  | .handle => namedOperand names .handle w

/-- A value as an operand of a kind: one word, flags combined with `|`, or bytes in brackets. -/
def valueOperand (names : Names) (k : OperandKind) (value : List Token) : Option Operand :=
  match k, value with
  | _, [.word w] => wordOperand names k w
  | .flags, .word w :: rest => ((separatedBy '|' (.word w :: rest)).bind flagsFrom).map Operand.num
  | .bytes, [.sign '[', .sign ']'] => some (.bytes [])
  | .bytes, .sign '[' :: rest =>
    match rest.reverse with
    | .sign ']' :: inner => ((separatedBy ',' inner.reverse).bind bytesFrom).map Operand.bytes
    | _ => none
  | _, _ => none

/-- One operand against its place in the rule: its name, if it has one, then its value (R57). -/
def placedOperand (names : Names) (place : List String × OperandKind) (ts : List Token) : Except AssemblyError Operand :=
  match ts with
  | .word n :: .sign '=' :: value =>
    if place.1.any fun m => m.toList == n then
      match valueOperand names place.2 value with
      | some x => .ok x
      | none => .error .operandValue
    else .error .operandName
  | value =>
    match valueOperand names place.2 value with
    | some x => .ok x
    | none => .error .operandValue

/-- The operands in their rule's order (R57). -/
def placedOperands (names : Names) :
    List (List String × OperandKind) → List (List Token) → Except AssemblyError (List Operand)
  | [], [] => .ok []
  | place :: places, ts :: rest =>
    match placedOperand names place ts with
    | .error e => .error e
    | .ok x =>
      match placedOperands names places rest with
      | .error e => .error e
      | .ok xs => .ok (x :: xs)
  | _, _ => .error .operandCount

/-- The operation that returns its packet writes the register that stands as `dest`, where no packet operand is given:
`req = construct(...)` (R59; log 25). Where neither a packet operand nor a `dest` names the register, as in the source's own
example `construct(descriptor=32x32, ...)`, the spec does not say which register is written: the model chooses none and the
statement is refused, `operandName` where the operands are named and `operandValue` where they are not (DESIGN CHOICE,
log 25). -/
def destOperands (o : Opcode) (dest : Option (List Char)) (ops : List (List Token)) : List (List Token) :=
  match dest with
  | none => ops
  | some w =>
    if (o = .construct ∨ o = .decode) ∧ ops.length + 1 = (signatureOf o).length ∧ (packetRegOf w).isSome then
      [.word w] :: ops
    else ops

/-! ### Statements -/

/-- The operands of a call, from what follows its opening parenthesis; none where it is not closed at the end. -/
def callOperands (ts : List Token) : Option (List (List Token)) :=
  match ts.reverse with
  | .sign ')' :: [] => some []
  | .sign ')' :: inner => some (operandsFrom false [] inner.reverse)
  | _ => none

/-- A call of an operation by caller `c`. -/
def assembleCall (names : Names) (c : CallerId) (dest : Option (List Char)) (mnemonic : List Char) (ts : List Token) :
    Except AssemblyError (Option String × Command) :=
  match mnemonicOpcode mnemonic, callOperands ts with
  | none, _ => .error .mnemonic
  | some _, none => .error .statement
  | some o, some ops =>
    match placedOperands names (signatureOf o) (destOperands o dest ops) with
    | .error e => .error e
    | .ok xs => .ok (dest.map String.ofList, { op := opcodeCode o, caller := c, operands := xs })

/-- One statement of caller `c`: `[dest =] mnemonic(name=value, ...)` (R57), its `dest` and its command. -/
def assemble (names : Names) (c : CallerId) (text : String) : Except AssemblyError (Option String × Command) :=
  match tokensFrom [] text.toList with
  | .word d :: .sign '=' :: .word m :: .sign '(' :: rest => assembleCall names c (some d) m rest
  | .word m :: .sign '(' :: rest => assembleCall names c none m rest
  | _ => .error .statement

end Sys2Proof.Machine
end

