-- ==== Sys2Proof/Tests/Slice0.lean ====
section
/-!
SUPPORT. Tests on fixed values, one step each, and a witness for every statement that has hypotheses. Expected values are
those of 95_test_vectors.md; each test names its vectors.
-/

namespace Sys2Proof.Tests

open Sys2Proof Sys2Proof.Machine

/-! ### Helpers -/

/-- The result a step leaves caller `c` with; none where it is held or the machine stops. -/
def resultOf (c : CallerId) : Step → Option (Result Value)
  | .next t => (t.caller c).ret
  | .fault _ => none
  | .refused _ => none

/-- The bytes a step leaves in a register. -/
def bytesOf (c : CallerId) (r : PacketReg) : Step → List Byte
  | .next t => (t.packet c r).buf.toList
  | .fault _ => []
  | .refused _ => []

/-- Status and descriptor a step leaves in a register. -/
def boundOf (c : CallerId) (r : PacketReg) : Step → Option (PacketStatus × Option Variant)
  | .next t => some ((t.packet c r).status, (t.packet c r).desc)
  | .fault _ => none
  | .refused _ => none

/-- The session a step leaves. -/
def sessionOf : Step → Option Session
  | .next t => some t.session
  | .fault _ => none
  | .refused _ => none

/-- The wire stream a step leaves. -/
def wireOf : Step → List WireEvent
  | .next t => t.wire
  | .fault _ => []
  | .refused _ => []

/-- The fault a step stops with. -/
def faultOf : Step → Option Fault
  | .next _ => none
  | .fault f => some f
  | .refused _ => none

/-- The state a step leaves. -/
def after : Step → State
  | .next t => t
  | .fault _ => State.reset
  | .refused _ => State.reset

/-- A step that answers a next state. -/
def answersNext : Step → Bool
  | .next _ => true
  | .fault _ => false
  | .refused _ => false

theorem next_after {o : Step} (h : answersNext o = true) : o = .next (after o) := by
  cases o with
  | next t => rfl
  | fault f => cases h
  | refused r => cases h

/-- `l ++ zeros(n)` up to 16 bytes. -/
def padded (l : List Byte) : List Byte := l ++ List.replicate (16 - l.length) 0

/-- A packet register `Decoded` with these bytes. -/
def held (v : Variant) (l : List Byte) : Packet := { buf := bufferOf l, desc := some v, status := .decoded }

/-- A packet register after REUSE, bytes kept. -/
def stalePacket : Packet := { buf := bufferOf (padded [0x41, 0xFF, 0x07]), desc := none, status := .stale }

/-- Caller 0 with `p0` as given, all else as after reset. -/
def withP0 (q : Packet) : State := State.reset.setPacket 0 (.p 0) q

/-- The session `st/holder/handle/claims` of 95_test_vectors.md section 4, with these answers ready. -/
def inSession (st : SessionState) (holder : Option CallerId) (handle : Option Handle) (claims : Nat)
    (cl : List ClaimAnswer) (ws : List WriteAnswer) (rs : List ReadAnswer) (cs : List Bool) : State :=
  { State.reset with
    session := { state := st, holder := holder, handle := handle, claims := claims }
    transport := { claims := cl, writes := ws, reads := rs, cleans := cs, inbound := [], drawn := 0 } }

/-- A `Ready` session on handle 1 with these answers to a write and a read. -/
def ready (holder : Option CallerId) (ws : List WriteAnswer) (rs : List ReadAnswer) (cs : List Bool) : State :=
  inSession .ready holder (some 1) 1 [] ws rs cs

/-- The request `Q` of 95_test_vectors.md section 5, and a response to it. -/
def requestQ : Buffer := bufferOf (padded [0x41, 0x01, 0x00, 0x10, 0xAB])
def responseQ : Buffer := bufferOf (padded [0x41, 0x03, 0x00, 0x10, 0xAB])

/-! ### Ill-formed instructions are refused, well-formed ones are not -/

theorem test_index_defects :
    (Instr.descInfo 0 6).defect = some (.descriptorIndex 6) ∧
    (Instr.construct 0 (.p 0) 6 0 0 0 0).defect = some (.descriptorIndex 6) ∧
    (Instr.decode 0 (.p 0) 6 []).defect = some (.descriptorIndex 6) ∧
    (Instr.sendRequest 0 6 0 0 0 0).defect = some (.descriptorIndex 6) ∧
    (Instr.descInfo 0 5).WellFormed ∧ (Instr.construct 0 (.p 9) 5 300 300 0 0).WellFormed := by decide

theorem test_boolean_defects :
    (Instr.setWrite 0 (.p 0) 2).defect = some (.notBoolean 2) ∧
    (Instr.setSuccess 0 (.p 0) 2).defect = some (.notBoolean 2) ∧
    (Instr.setWrite 0 (.p 0) 1).WellFormed ∧ (Instr.setSuccess 0 (.p 0) 0).WellFormed := by decide

theorem test_register_defects :
    (Instr.construct 0 .req 0 0 0 0 0).defect = some (.contextRegister .req) ∧
    (Instr.encode 0 .req).defect = some (.contextRegister .req) ∧
    (Instr.decode 0 .resp 0 []).defect = some (.contextRegister .resp) ∧
    (Instr.reuse 0 .resp).defect = some (.contextRegister .resp) ∧
    (Instr.setTarget 0 .req 0).defect = some (.contextRegister .req) ∧
    (Instr.setAddress 0 .req 0).defect = some (.contextRegister .req) ∧
    (Instr.setData 0 .resp 0).defect = some (.contextRegister .resp) ∧
    (Instr.setWrite 0 .resp 0).defect = some (.contextRegister .resp) ∧
    (Instr.setSuccess 0 .req 0).defect = some (.contextRegister .req) ∧
    (Instr.validate 0 .resp).WellFormed ∧ (Instr.getData 0 .resp).WellFormed := by decide

/-! ### Decoding: every constructor from a word written out from the encoding -/

/-- R46 and R47, the bytes of vectors D1 to D6; the 8×8 one with every padding byte different. -/
theorem test_decode_wire :
    decode (.wire [0x41, 0xFD, 0x07, 0x10, 0xAB, 1, 2, 3, 4, 5, 6, 7, 8, 9, 10, 11]) =
      .ok (.pkt8x8 0xFD 0x07 0x10 0xAB 0x0B0A090807060504030201) ∧
    decode (.wire (padded [0x42, 0x01, 0x00, 0x80, 0x34, 0x12])) = .ok (.pkt8x16 0x01 0x00 0x80 0x1234 0) ∧
    decode (.wire (padded [0x43, 0x00, 0x02, 0x20, 0xEF, 0xBE, 0xAD, 0xDE])) =
      .ok (.pkt8x32 0x00 0x02 0x20 0xDEADBEEF 0) ∧
    decode (.wire (padded [0x44, 0x00, 0x03, 0x05, 0x88, 0x77, 0x66, 0x55, 0x44, 0x33, 0x22, 0x11])) =
      .ok (.pkt8x64 0x00 0x03 0x05 0x1122334455667788 0) ∧
    decode (.wire (padded [0x45, 0x01, 0x07, 0x34, 0x12, 0xEF, 0xCD, 0xAB, 0x89, 0x67, 0x45, 0x23, 0x01])) =
      .ok (.pkt16x64 0x01 0x07 0x1234 0x0123456789ABCDEF 0) ∧
    decode (.wire (padded [0x4B, 0x01, 0x09, 0x78, 0x56, 0x34, 0x12, 0x0D, 0xF0, 0xFE, 0xCA])) =
      .ok (.pkt32x32 0x01 0x09 0x12345678 0xCAFEF00D 0) := by decide

/-- R51 and R45: the unassigned neighbours of the magic bytes, and the lengths beside 16. -/
theorem test_decode_wire_rejects :
    decode (.wire (padded [0x40])) = .error (.unassignedMagic 0x40) ∧
    decode (.wire (padded [0x46])) = .error (.unassignedMagic 0x46) ∧
    decode (.wire (padded [0x4A])) = .error (.unassignedMagic 0x4A) ∧
    decode (.wire (padded [0x4C])) = .error (.unassignedMagic 0x4C) ∧
    decode (.wire (List.replicate 15 0x41)) = .error (.wireLength 15) ∧
    decode (.wire (List.replicate 17 0x41)) = .error (.wireLength 17) := by decide

/-- R55, the records of programs P1, P2 and P6. -/
theorem test_decode_codec_commands :
    decode (.command ⟨0x01, 0, [.num 0x45]⟩) = .ok (.lookup 0 0x45) ∧
    decode (.command ⟨0x02, 0, [.num 5]⟩) = .ok (.descInfo 0 5) ∧
    decode (.command ⟨0x10, 0, [.packet (.p 0), .num 4, .num 7, .num 0x01, .num 0x1234, .num 0x0123456789ABCDEF]⟩) =
      .ok (.construct 0 (.p 0) 4 7 1 0x1234 0x0123456789ABCDEF) ∧
    decode (.command ⟨0x11, 0, [.packet (.p 0)]⟩) = .ok (.encode 0 (.p 0)) ∧
    decode (.command ⟨0x12, 0, [.packet (.p 1), .num 4, .bytes [0x45]]⟩) = .ok (.decode 0 (.p 1) 4 [0x45]) ∧
    decode (.command ⟨0x13, 0, [.packet (.p 1)]⟩) = .ok (.validate 0 (.p 1)) ∧
    decode (.command ⟨0x14, 0, [.packet (.p 0)]⟩) = .ok (.reuse 0 (.p 0)) := by decide

theorem test_decode_field_commands :
    decode (.command ⟨0x20, 0, [.packet (.p 0)]⟩) = .ok (.getTarget 0 (.p 0)) ∧
    decode (.command ⟨0x21, 0, [.packet (.p 1)]⟩) = .ok (.getAddress 0 (.p 1)) ∧
    decode (.command ⟨0x22, 0, [.packet .resp]⟩) = .ok (.getData 0 .resp) ∧
    decode (.command ⟨0x23, 0, [.packet .req]⟩) = .ok (.isWrite 0 .req) ∧
    decode (.command ⟨0x24, 0, [.packet (.p 1)]⟩) = .ok (.isSuccess 0 (.p 1)) ∧
    decode (.command ⟨0x30, 0, [.packet (.p 0), .num 255]⟩) = .ok (.setTarget 0 (.p 0) 255) ∧
    decode (.command ⟨0x31, 0, [.packet (.p 0), .num 0xBEEF]⟩) = .ok (.setAddress 0 (.p 0) 0xBEEF) ∧
    decode (.command ⟨0x32, 0, [.packet (.p 0), .num 0x100000000]⟩) = .ok (.setData 0 (.p 0) 0x100000000) ∧
    decode (.command ⟨0x33, 0, [.packet (.p 0), .num 0]⟩) = .ok (.setWrite 0 (.p 0) 0) ∧
    decode (.command ⟨0x34, 0, [.packet (.p 0), .num 1]⟩) = .ok (.setSuccess 0 (.p 0) 1) := by decide

theorem test_decode_session_commands :
    decode (.command ⟨0x40, 0, [.handle 1]⟩) = .ok (.acquireOnce 0 1) ∧
    decode (.command ⟨0x41, 0, [.handle 2]⟩) = .ok (.reestablish 0 2) ∧
    decode (.command ⟨0x42, 1, []⟩) = .ok (.lock 1) ∧
    decode (.command ⟨0x43, 1, []⟩) = .ok (.unlock 1) ∧
    decode (.command ⟨0x44, 0, [.bytes [0x41]]⟩) = .ok (.transfer 0 [0x41]) ∧
    decode (.command ⟨0x45, 1, [.bytes []]⟩) = .ok (.exchange 1 []) ∧
    decode (.command ⟨0x50, 0, [.num 2, .num 2, .num 0x01, .num 0x20, .num 0xDEADBEEF]⟩) =
      .ok (.sendRequest 0 2 2 1 0x20 0xDEADBEEF) := by decide

/-- R56 and log 13. -/
theorem test_decode_rejects :
    decode (.command ⟨0x03, 0, []⟩) = .error (.reservedCode 0x03) ∧
    decode (.command ⟨0x46, 0, []⟩) = .error (.reservedCode 0x46) ∧
    decode (.command ⟨0x02, 0, [.num 6]⟩) = .error (.illFormed (.descriptorIndex 6)) ∧
    decode (.command ⟨0x42, 0, [.num 0]⟩) = .error (.operandList 0x42) := by decide

/-- The encoder writes the bytes of vector D5, and of a packet with every padding byte different. -/
theorem test_encode_wire :
    encode (.pkt16x64 0x01 0x07 0x1234 0x0123456789ABCDEF 0) =
      .wire (padded [0x45, 0x01, 0x07, 0x34, 0x12, 0xEF, 0xCD, 0xAB, 0x89, 0x67, 0x45, 0x23, 0x01]) ∧
    encode (.pkt8x8 0xFD 0x07 0x10 0xAB 0x0B0A090807060504030201) =
      .wire [0x41, 0xFD, 0x07, 0x10, 0xAB, 1, 2, 3, 4, 5, 6, 7, 8, 9, 10, 11] := by decide

/-! ### The assembly form (R57, R58) -/

/-- Statements of programs P1, P2 and P3, and the source's example with its packet as the destination. -/
theorem test_assemble :
    assemble [] 0 "p0 = construct(descriptor=32×32, target_id=1, flags=WRITE, address=2, data=4)" =
      .ok (some "p0", ⟨0x10, 0, [.packet (.p 0), .num 5, .num 1, .num 1, .num 2, .num 4]⟩) ∧
    assemble [] 0 "set_success(p0, true)" = .ok (none, ⟨0x34, 0, [.packet (.p 0), .num 1]⟩) ∧
    assemble [("H", .handle 7)] 0 "acquire_once(H)" = .ok (none, ⟨0x40, 0, [.handle 7]⟩) ∧
    assemble [] 0 "send_request(8x32, 2, WRITE|SUCCESS, 0x20, 0)" =
      .ok (none, ⟨0x50, 0, [.num 2, .num 2, .num 3, .num 0x20, .num 0]⟩) ∧
    assemble [("b0", .bytes [0x41])] 0 "t0 = transfer(b0)" = .ok (some "t0", ⟨0x44, 0, [.bytes [0x41]]⟩) ∧
    assemble [] 1 "exchange([0x41, 255])" = .ok (none, ⟨0x45, 1, [.bytes [0x41, 0xFF]]⟩) ∧
    assemble [] 1 "lock()" = .ok (none, ⟨0x42, 1, []⟩) := by decide

/-- The last two: the source's example has neither a packet operand nor a destination (log 25). -/
theorem test_assemble_rejects :
    assemble [] 0 "lock" = .error .statement ∧ assemble [] 0 "LOCK()" = .error .mnemonic ∧
    assemble [] 0 "lock(1)" = .error .operandCount ∧ assemble [] 0 "lookup(d=1)" = .error .operandName ∧
    assemble [] 0 "transfer([256])" = .error .operandValue ∧ assemble [] 0 "desc_info(8x9)" = .error .operandValue ∧
    assemble [] 0 "construct(descriptor=32x32, target_id=1, flags=WRITE, address=2, data=4)" = .error .operandName ∧
    assemble [] 0 "construct(32x32, 1, WRITE, 2, 4)" = .error .operandValue := by decide

/-! ### Error codes (R106, R107, R108) -/

/-- The table's codes and sub-codes in its order. -/
theorem test_error_codes :
    (Result.ok Value.unit).code = 0 ∧
    [Error.fieldOverflow .address 0 0, .lengthMismatch 16 0, .shortRead 0, .shortWrite 0, .magicMismatch 0 0,
        .unknownVariant 0, .validationError .badMagic, .endpointBusy, .timeout .receive, .reentrantLock,
        .degraded].map Error.code = [1, 2, 3, 4, 5, 6, 7, 8, 9, 10, 11] ∧
    [Violation.badMagic, .reservedFlagBits, .reservedPadding 15, .fieldRange, .echoMismatch].map Violation.subCode =
      [1, 2, 3, 4, 5] := by decide

/-- Rules R106 to R108 on a packet whose last padding byte is 1: code 7, sub-code 3, to its caller and no one else; a held caller
has nothing yet. -/
theorem test_error_delivered :
    (let e := Error.validationError (.reservedPadding 15)
      let t := after (exec (.validate 0 (.p 0)) (withP0 (held .v8x8 ((padded [0x41]).set 15 1))))
      (t.caller 0).delivered = some (7, .err e) ∧ e.subCode = some 3 ∧ (t.caller 1).delivered = none) ∧
    ((after (exec (.lock 1) (ready (some 0) [] [] []))).caller 1).delivered = none := by decide

/-! ### The descriptor unit -/

/-- L5, L6, L12, L13. -/
theorem test_lookup :
    resultOf 0 (exec (.lookup 0 0x45) .reset) = some (.ok (.descriptor .v16x64)) ∧
    resultOf 0 (exec (.lookup 0 0x4B) .reset) = some (.ok (.descriptor .v32x32)) ∧
    resultOf 0 (exec (.lookup 0 0x99) .reset) = some (.err (.unknownVariant 0x99)) ∧
    resultOf 0 (exec (.lookup 0 0x141) .reset) = some (.err (.unknownVariant 0x141)) := by decide

/-- L18, L20. -/
theorem test_descInfo :
    resultOf 0 (exec (.descInfo 0 4) .reset) = some (.ok (.descInfo ⟨"16×64", 16, 64, 0x45, 16⟩)) ∧
    faultOf (exec (.descInfo 0 6) .reset) = some .illegalCommand := by decide

/-! ### The codec -/

/-- T4 and D6. -/
theorem test_construct :
    bytesOf 0 (.p 0) (exec (.construct 0 (.p 0) 3 255 3 0xFF 0xFFFFFFFFFFFFFFFF) .reset) =
      padded [0x44, 0x03, 0xFF, 0xFF, 0xFF, 0xFF, 0xFF, 0xFF, 0xFF, 0xFF, 0xFF, 0xFF] ∧
    bytesOf 0 (.p 7) (exec (.construct 0 (.p 7) 5 9 1 0x12345678 0xCAFEF00D) .reset) =
      padded [0x4B, 0x01, 0x09, 0x78, 0x56, 0x34, 0x12, 0x0D, 0xF0, 0xFE, 0xCA] := by decide

/-- O1, O9, O11, O12, O13, O15: the errors and their order. -/
theorem test_construct_errors :
    resultOf 0 (exec (.construct 0 (.p 0) 0 0 0 0x100 0) .reset) = some (.err (.fieldOverflow .address 0x100 8)) ∧
    resultOf 0 (exec (.construct 0 (.p 0) 5 0 0 0 0x100000000) .reset) =
      some (.err (.fieldOverflow .data 0x100000000 32)) ∧
    resultOf 0 (exec (.construct 0 (.p 0) 0 256 0 0 0) .reset) = some (.err (.fieldOverflow .targetId 256 8)) ∧
    resultOf 0 (exec (.construct 0 (.p 0) 0 0 0x100 0 0) .reset) = some (.err (.fieldOverflow .flags 0x100 8)) ∧
    resultOf 0 (exec (.construct 0 (.p 0) 0 0 0x04 0 0) .reset) = some (.err (.validationError .reservedFlagBits)) ∧
    resultOf 0 (exec (.construct 0 (.p 0) 0 256 0x04 0 0x100) .reset) =
      some (.err (.fieldOverflow .data 0x100 8)) := by decide

/-- The packet of vectors N4 and M22: reserved flag bits and padding set. -/
def dirty : State :=
  withP0 (held .v8x8 [0x41, 0xFD, 0x00, 0x10, 0xAB, 0, 0, 0, 0, 0, 0, 0, 0, 0, 0, 0x07])

/-- N4: the padding becomes zero in the result and in the register, the reserved flag bits stay. -/
theorem test_encode :
    resultOf 0 (exec (.encode 0 (.p 0)) dirty) =
      some (.ok (.bytes (bufferOf (padded [0x41, 0xFD, 0x00, 0x10, 0xAB])))) ∧
    bytesOf 0 (.p 0) (exec (.encode 0 (.p 0)) dirty) = padded [0x41, 0xFD, 0x00, 0x10, 0xAB] := by decide

/-- N2, M2, M24: the faults on an unbound packet. -/
theorem test_use_before_construct :
    faultOf (exec (.encode 0 (.p 0)) .reset) = some .useBeforeConstruct ∧
    faultOf (exec (.getData 0 (.p 0)) (withP0 stalePacket)) = some .useBeforeConstruct ∧
    faultOf (exec (.setTarget 0 (.p 0) 1) (withP0 stalePacket)) = some .useBeforeConstruct := by decide

/-- K4, K5, K7, K8. -/
theorem test_decode_errors :
    resultOf 0 (exec (.decode 0 (.p 0) 0 (0x99 :: List.replicate 13 0)) .reset) = some (.err (.lengthMismatch 16 14)) ∧
    resultOf 0 (exec (.decode 0 (.p 0) 0 (padded [0x99])) .reset) = some (.err (.unknownVariant 0x99)) ∧
    resultOf 0 (exec (.decode 0 (.p 0) 5 (padded [0x41])) .reset) = some (.err (.magicMismatch 0x4B 0x41)) ∧
    resultOf 0 (exec (.decode 0 (.p 0) 0 (padded [0x46])) .reset) = some (.err (.unknownVariant 0x46)) := by decide

/-- K10: neither reserved bits nor padding are checked, and every byte is kept. -/
theorem test_decode :
    bytesOf 0 (.p 0) (exec (.decode 0 (.p 0) 0 [0x41, 0xFF, 0, 0, 0, 0, 0, 0, 0, 0, 0, 0, 0, 0, 0, 0x01]) .reset) =
      [0x41, 0xFF, 0, 0, 0, 0, 0, 0, 0, 0, 0, 0, 0, 0, 0, 0x01] ∧
    boundOf 0 (.p 0) (exec (.decode 0 (.p 0) 0 [0x41, 0xFF, 0, 0, 0, 0, 0, 0, 0, 0, 0, 0, 0, 0, 0, 0x01]) .reset) =
      some (.decoded, some .v8x8) := by decide

/-- A2, A6, A7. -/
theorem test_validate :
    resultOf 0 (exec (.validate 0 (.p 0)) (withP0 (held .v8x8 (padded [0x41, 0x00, 0x00, 0x10, 0xAB])))) =
      some (.ok .unit) ∧
    resultOf 0 (exec (.validate 0 (.p 0))
      (withP0 (held .v8x32 [0x43, 0, 0, 0, 0, 0, 0, 0, 0, 0x05, 0, 0, 0x07, 0, 0, 0]))) =
      some (.err (.validationError (.reservedPadding 9))) ∧
    resultOf 0 (exec (.validate 0 (.p 0)) (withP0 (held .v8x64
      [0x44, 0, 0, 0, 0xFF, 0xFF, 0xFF, 0xFF, 0xFF, 0xFF, 0xFF, 0xFF, 0, 0, 0, 0]))) = some (.ok .unit) := by decide

/-- A11, and what its note says of a corrupted byte 0: `BadMagic` before any other sub-code. -/
theorem test_validate_order :
    resultOf 0 (exec (.validate 0 (.p 0)) (withP0 (held .v8x8 [0x41, 0xFC, 0, 0, 0, 0, 0, 0, 0, 0, 0, 0, 0, 0, 0, 1]))) =
      some (.err (.validationError .reservedFlagBits)) ∧
    resultOf 0 (exec (.validate 0 (.p 0)) (withP0 (held .v8x8 [0x42, 0xFC, 0, 0, 0, 0, 0, 0, 0, 0, 0, 0, 0, 0, 0, 1]))) =
      some (.err (.validationError .badMagic)) := by decide

/-- M1. -/
theorem test_reuse :
    boundOf 0 (.p 0) (exec (.reuse 0 (.p 0)) dirty) = some (.stale, none) ∧
    bytesOf 0 (.p 0) (exec (.reuse 0 (.p 0)) dirty) =
      [0x41, 0xFD, 0x00, 0x10, 0xAB, 0, 0, 0, 0, 0, 0, 0, 0, 0, 0, 0x07] := by decide

/-! ### Accessors and mutators -/

/-- The packet of vector D5. -/
def packetD5 : State :=
  withP0 (held .v16x64 (padded [0x45, 0x01, 0x07, 0x34, 0x12, 0xEF, 0xCD, 0xAB, 0x89, 0x67, 0x45, 0x23, 0x01]))

/-- M5, M6, M7, M8, M26. -/
theorem test_accessors :
    resultOf 0 (exec (.getTarget 0 (.p 0)) packetD5) = some (.ok (.number 7)) ∧
    resultOf 0 (exec (.getAddress 0 (.p 0)) packetD5) = some (.ok (.number 0x1234)) ∧
    resultOf 0 (exec (.getData 0 (.p 0)) packetD5) = some (.ok (.number 0x0123456789ABCDEF)) ∧
    resultOf 0 (exec (.isWrite 0 (.p 0)) packetD5) = some (.ok (.bool true)) ∧
    resultOf 0 (exec (.isSuccess 0 (.p 0)) packetD5) = some (.ok (.bool false)) ∧
    resultOf 0 (exec (.isWrite 0 (.p 0)) (withP0 (held .v8x8 (padded [0x41, 0xFE])))) = some (.ok (.bool false)) ∧
    resultOf 0 (exec (.isSuccess 0 (.p 0)) (withP0 (held .v8x8 (padded [0x41, 0xFE])))) = some (.ok (.bool true)) := by
  decide

/-- M9, M11, M13, M14, M17, M18. -/
theorem test_field_mutators :
    bytesOf 0 (.p 0) (exec (.setAddress 0 (.p 0) 0xBEEF) packetD5) =
      padded [0x45, 0x01, 0x07, 0xEF, 0xBE, 0xEF, 0xCD, 0xAB, 0x89, 0x67, 0x45, 0x23, 0x01] ∧
    resultOf 0 (exec (.setAddress 0 (.p 0) 0x100)
      (withP0 (held .v8x32 (padded [0x43, 0x00, 0x02, 0x20, 0xEF, 0xBE, 0xAD, 0xDE])))) =
      some (.err (.fieldOverflow .address 0x100 8)) ∧
    bytesOf 0 (.p 0) (exec (.setData 0 (.p 0) 0xABCD)
      (withP0 (held .v8x16 (padded [0x42, 0x01, 0x00, 0x80, 0x34, 0x12])))) =
      padded [0x42, 0x01, 0x00, 0x80, 0xCD, 0xAB] ∧
    resultOf 0 (exec (.setData 0 (.p 0) 0x10000)
      (withP0 (held .v8x16 (padded [0x42, 0x01, 0x00, 0x80, 0x34, 0x12])))) =
      some (.err (.fieldOverflow .data 0x10000 16)) ∧
    bytesOf 0 (.p 0) (exec (.setTarget 0 (.p 0) 255) (withP0 (held .v8x8 (padded [0x41])))) =
      padded [0x41, 0x00, 0xFF] ∧
    resultOf 0 (exec (.setTarget 0 (.p 0) 256) (withP0 (held .v8x8 (padded [0x41])))) =
      some (.err (.fieldOverflow .targetId 256 8)) := by decide

/-- M20, M21, M22, M23. -/
theorem test_flag_mutators :
    bytesOf 0 (.p 0) (exec (.setWrite 0 (.p 0) 0) (withP0 (held .v8x8 (padded [0x41, 0x03])))) = padded [0x41, 0x02] ∧
    bytesOf 0 (.p 0) (exec (.setSuccess 0 (.p 0) 1) (withP0 (held .v8x8 (padded [0x41, 0x01])))) = padded [0x41, 0x03] ∧
    bytesOf 0 (.p 0) (exec (.setSuccess 0 (.p 0) 1) (withP0 (held .v8x8 (padded [0x41, 0xFD])))) = padded [0x41, 0xFF] ∧
    faultOf (exec (.setWrite 0 (.p 0) 2) (withP0 (held .v8x8 (padded [0x41])))) = some .illegalCommand := by decide

/-! ### The session -/

/-- E1, E2, E5. -/
theorem test_acquireOnce :
    sessionOf (exec (.acquireOnce 0 1) (inSession .unacquired none none 0 [.ok] [] [] [])) =
      some ⟨.ready, none, some 1, 1⟩ ∧
    resultOf 0 (exec (.acquireOnce 0 1) (inSession .unacquired none none 0 [.busy] [] [] [])) =
      some (.err .endpointBusy) ∧
    sessionOf (exec (.acquireOnce 0 1) (inSession .degraded none (some 1) 1 [.ok] [] [] [])) =
      some ⟨.degraded, none, some 1, 1⟩ := by decide

/-- E31, E32. -/
theorem test_reestablish :
    sessionOf (exec (.reestablish 0 2) (inSession .degraded none (some 1) 1 [.ok] [] [] [])) =
      some ⟨.ready, none, some 2, 2⟩ ∧
    wireOf (exec (.reestablish 0 2) (inSession .degraded none (some 1) 1 [.ok] [] [] [])) =
      [.release 1, .claim 2 .ok] ∧
    sessionOf (exec (.reestablish 0 2) (inSession .degraded none (some 1) 1 [.busy] [] [] [])) =
      some ⟨.degraded, none, none, 1⟩ := by decide

/-- E34, E35, E36. -/
theorem test_reestablish_waits :
    resultOf 0 (exec (.reestablish 0 1) (inSession .degraded (some 0) (some 1) 1 [] [] [] [])) =
      some (.err .reentrantLock) ∧
    ((after (exec (.reestablish 0 1) (inSession .degraded (some 1) (some 1) 1 [] [] [] []))).caller 0).held =
      some (.atReestablish 1) ∧
    resultOf 0 (exec (.reestablish 0 2) (ready none [] [] [])) = some (.ok .unit) := by decide

/-- Caller 0 is held in REESTABLISH for handle 2, as E35 leaves it, in the session given; it is scheduled. -/
def reestablishing (st : SessionState) (holder : Option CallerId) (cl : List ClaimAnswer) : State :=
  { inSession st holder (some 1) 1 cl [] [] [] with
    callers := [(0, { Caller.fresh with held := some (.atReestablish 2) })]
    schedule := [.caller 0] }

/-- E35, then E31, E32 and E33 behind the hold; in a session that another waiter has made `Ready` a failed claim keeps the release
and no more (R109; log 15). -/
theorem test_reestablish_resumes :
    ((after (step (reestablishing .degraded (some 1) [.ok]))).caller 0).held = some (.atReestablish 2) ∧
    (let t := step (reestablishing .degraded none [.ok]);
      sessionOf t = some ⟨.ready, none, some 2, 2⟩ ∧ wireOf t = [.release 1, .claim 2 .ok] ∧
        resultOf 0 t = some (.ok .unit)) ∧
    (let t := step (reestablishing .degraded none [.busy]);
      sessionOf t = some ⟨.degraded, none, none, 1⟩ ∧ resultOf 0 t = some (.err .endpointBusy)) ∧
    (let t := step (reestablishing .ready none [.ok]);
      sessionOf t = some ⟨.ready, none, some 2, 2⟩ ∧ wireOf t = [.release 1, .claim 2 .ok]) ∧
    sessionOf (step (reestablishing .ready none [.busy])) = some ⟨.ready, none, none, 1⟩ := by decide

/-- E6, E7, E8. -/
theorem test_lock :
    sessionOf (exec (.lock 0) (ready none [] [] [])) = some ⟨.ready, some 0, some 1, 1⟩ ∧
    resultOf 0 (exec (.lock 0) (ready (some 0) [] [] [])) = some (.err .reentrantLock) ∧
    ((after (exec (.lock 1) (ready (some 0) [] [] []))).caller 1).held = some (.atLock .lock) := by decide

/-- E9, E10. -/
theorem test_unlock :
    sessionOf (exec (.unlock 0) (ready (some 0) [] [] [])) = some ⟨.ready, none, some 1, 1⟩ ∧
    faultOf (exec (.unlock 1) (ready (some 0) [] [] [])) = some .notHolder := by decide

/-- E15, E17, E18, E22. -/
theorem test_transfer :
    resultOf 0 (exec (.transfer 0 requestQ.toList) (ready (some 0) [.ok] [.ok responseQ] [])) =
      some (.ok (.bytes responseQ)) ∧
    resultOf 0 (exec (.transfer 0 requestQ.toList) (ready (some 0) [.short 7] [] [true])) =
      some (.err (.shortWrite 7)) ∧
    sessionOf (exec (.transfer 0 requestQ.toList) (ready (some 0) [.short 0] [] [false])) =
      some ⟨.degraded, some 0, some 1, 1⟩ ∧
    resultOf 0 (exec (.transfer 0 requestQ.toList) (ready (some 0) [.ok] [.short 15] [true])) =
      some (.err (.shortRead 15)) := by decide

/-- E11, E12, E13, E14. -/
theorem test_transfer_checks :
    faultOf (exec (.transfer 0 requestQ.toList) (ready none [] [] [])) = some .notHolder ∧
    resultOf 0 (exec (.transfer 0 []) (inSession .unacquired (some 0) none 0 [] [] [] [])) =
      some (.err .endpointBusy) ∧
    resultOf 0 (exec (.transfer 0 []) (inSession .degraded (some 0) (some 1) 1 [] [] [] [])) = some (.err .degraded) ∧
    resultOf 0 (exec (.transfer 0 (List.replicate 15 0)) (ready (some 0) [] [] [])) =
      some (.err (.lengthMismatch 16 15)) := by decide

/-- E28, E29, E30. -/
theorem test_exchange :
    sessionOf (exec (.exchange 0 requestQ.toList) (ready none [.ok] [.ok responseQ] [])) =
      some ⟨.ready, none, some 1, 1⟩ ∧
    sessionOf (exec (.exchange 0 requestQ.toList) (ready none [.timeout] [] [false])) =
      some ⟨.degraded, none, some 1, 1⟩ ∧
    resultOf 0 (exec (.exchange 0 requestQ.toList) (ready (some 0) [] [] [])) = some (.err .reentrantLock) ∧
    sessionOf (exec (.exchange 0 requestQ.toList) (ready (some 0) [] [] [])) = some ⟨.ready, some 0, some 1, 1⟩ := by
  decide

/-- P3, steps 8 and 11: an EXCHANGE that finds the gate held waits with nothing sent, and goes on when the gate is free. -/
theorem test_exchange_waits :
    (let t := exec (.exchange 0 requestQ.toList) (ready (some 1) [.ok] [.ok responseQ] []);
      ((after t).caller 0).held = some (.atLock (.exchange requestQ.toList)) ∧ wireOf t = [] ∧
        sessionOf t = some ⟨.ready, some 1, some 1, 1⟩) ∧
    (let t := step
        { ready none [.ok] [.ok responseQ] [] with
          callers := [(0, { Caller.fresh with held := some (.atLock (.exchange requestQ.toList)) })]
          schedule := [.caller 0] };
      resultOf 0 t = some (.ok (.bytes responseQ)) ∧ sessionOf t = some ⟨.ready, none, some 1, 1⟩ ∧
        wireOf t = [.write 0 requestQ .ok, .read 0 (.ok responseQ)]) := by decide

/-- An EXCHANGE and a SEND_REQUEST in their RX step, the read timing out on an unclean endpoint: the gate is free (R92, R94). -/
theorem test_held_receive_fails :
    (∀ u ∈ [TransferUser.exchange, .request .v8x8 0 0x10],
      let t := step
        { ready (some 0) [] [.timeout] [false] with
          callers := [(0, { Caller.fresh with held := some (.atReceive u) })]
          schedule := [.caller 0] };
      sessionOf t = some ⟨.degraded, none, some 1, 1⟩ ∧ resultOf 0 t = some (.err (.timeout .receive))) := by decide

/-! ### The exchange sequencer -/

/-- The request `Q` on a free `Ready` session that answers a whole write, then `l`. -/
def runQ (l : List Byte) : Step := exec (.sendRequest 0 0 0 1 0x10 0xAB) (ready none [.ok] [.ok (bufferOf l)] [])

/-- The phases a step leaves in caller 0's path. -/
def pathOf : Step → List Phase
  | .next t => (t.caller 0).xs.path
  | .fault _ => []
  | .refused _ => []

/-- X2, with its path and its wire. -/
theorem test_sendRequest :
    resultOf 0 (runQ (padded [0x41, 0x01, 0x00, 0x10, 0xAB])) = some (.ok (.response ⟨0, 0x10, 0xAB, true, false, 0x01⟩)) ∧
    pathOf (runQ (padded [0x41, 0x01, 0x00, 0x10, 0xAB])) =
      [.idle, .built, .sent, .awaitingResponse, .decoded, .validated, .idle] ∧
    wireOf (runQ responseQ.toList) = [.write 0 requestQ .ok, .read 0 (.ok responseQ)] := by decide

/-- X5, X7, X9, X11, X14, and X16's path. -/
theorem test_sendRequest_errors :
    resultOf 0 (runQ (padded [0x41, 0x03, 0x01, 0x10, 0xAB])) = some (.err (.validationError .echoMismatch)) ∧
    resultOf 0 (runQ (padded [0x41, 0x07, 0x01, 0x11, 0xAB])) = some (.err (.validationError .reservedFlagBits)) ∧
    resultOf 0 (exec (.sendRequest 0 1 0 0 0x10 0) (ready none [.ok] [.ok (bufferOf (padded [0x41, 0x02, 0, 0x10]))] [])) =
      some (.err (.magicMismatch 0x42 0x41)) ∧
    pathOf (exec (.sendRequest 0 0 0 1 0x100 0) (ready none [] [] [])) = [.idle, .rejected, .idle] ∧
    sessionOf (exec (.sendRequest 0 0 0 1 0x10 0xAB) (ready none [.short 4] [] [false])) =
      some ⟨.degraded, none, some 1, 1⟩ ∧
    pathOf (exec (.sendRequest 0 0 0 1 0x10 0xAB) (ready none [.ok] [.timeout] [true])) =
      [.idle, .built, .sent, .awaitingResponse, .rejected, .idle] := by decide

/-! ### Packets on the wire and steps -/

/-- A state in which caller 0 is in the RX step of `Q` (X1 before its read is answered), scheduled, the answer ready. -/
def receiving : State :=
  { ready none [] [.ok responseQ] [] with
    session := { state := .ready, holder := some 0, handle := some 1, claims := 1 }
    callers :=
      [(0,
        { regs := [(0, { buf := requestQ, desc := some .v8x8, status := .constructed })]
          xs :=
            { phase := .awaitingResponse
              req := { buf := requestQ, desc := some .v8x8, status := .constructed }
              resp := .fresh
              respBytes := none
              result := none
              path := [.idle, .built, .sent, .awaitingResponse] }
          held := some (.atReceive (.request .v8x8 0 0x10))
          ret := none })]
    schedule := [.caller 0]
    wire := [.claim 1 .ok, .write 0 requestQ .ok] }

/-- Each wire row as an instruction: with no reader its 16 bytes are kept for a later read (R83; log 9). -/
theorem test_packets_arrive :
    (after (exec (.pkt8x8 1 2 3 4 0) .reset)).transport.reads = [.ok (bufferOf (padded [0x41, 1, 2, 3, 4]))] ∧
    (after (exec (.pkt8x16 1 2 3 0x0504 0) .reset)).transport.reads = [.ok (bufferOf (padded [0x42, 1, 2, 3, 4, 5]))] ∧
    (after (exec (.pkt8x32 1 2 3 0x07060504 0) .reset)).transport.reads =
      [.ok (bufferOf (padded [0x43, 1, 2, 3, 4, 5, 6, 7]))] ∧
    (after (exec (.pkt8x64 1 2 3 0x0B0A090807060504 0) .reset)).transport.reads =
      [.ok (bufferOf (padded [0x44, 1, 2, 3, 4, 5, 6, 7, 8, 9, 10, 11]))] ∧
    (after (exec (.pkt16x64 1 2 0x0403 0x0C0B0A0908070605 0) .reset)).transport.reads =
      [.ok (bufferOf (padded [0x45, 1, 2, 3, 4, 5, 6, 7, 8, 9, 10, 11, 12]))] ∧
    (after (exec (.pkt32x32 1 2 0x06050403 0x0A090807 0) .reset)).transport.reads =
      [.ok (bufferOf (padded [0x4B, 1, 2, 3, 4, 5, 6, 7, 8, 9, 10]))] := by decide

/-- X1's last step, and the same with the response arriving as a packet. -/
theorem test_receive_completes :
    resultOf 0 (step receiving) = some (.ok (.response ⟨0, 0x10, 0xAB, true, true, 0x03⟩)) ∧
    sessionOf (step receiving) = some ⟨.ready, none, some 1, 1⟩ ∧
    resultOf 0 (exec (.pkt8x8 0x03 0 0x10 0xAB 0) { receiving with transport := State.reset.transport }) =
      some (.ok (.response ⟨0, 0x10, 0xAB, true, true, 0x03⟩)) := by decide

/-- Table words: a command code of 8 bits and a packet of 128 bits that share byte 0 (log 8), each run as the first
instruction. -/
theorem test_table_words :
    decodeTableWord 8 0x42 = some (.lock 0) ∧ decodeTableWord 128 0x42 = some (.pkt8x16 0 0 0 0 0) ∧
    decodeTableWord 8 0x03 = none ∧
    sessionOf (step (State.reset.withFetchWord 8 0x42)) = some ⟨.unacquired, some 0, none, 0⟩ ∧
    (after (step (State.reset.withFetchWord 128 0x42))).transport.reads = [.ok (bufferOf (padded [0x42]))] := by decide

/-! ### Witnesses: states and operands that meet the hypotheses of each statement, clause by clause

`witness_<Name>` is for `Obligations.<Name>`. -/

theorem witness_LookupResolvesMagic :
    (magicOf .v8x8).toNat = 0x41 ∧ (magicOf .v16x64).toNat = 0x45 ∧ (magicOf .v32x32).toNat = 0x4B ∧
    ∀ v, (magicOf v).toNat ≠ 0x40 ∧ (magicOf v).toNat ≠ 0x46 ∧ (magicOf v).toNat ≠ 0x4A ∧ (magicOf v).toNat ≠ 0x4C ∧
      (magicOf v).toNat ≠ 0x141 := by
  refine ⟨by decide, by decide, by decide, fun v => ?_⟩
  cases v <;> decide

theorem witness_DescInfoReportsWidths : indexOf .v32x32 = 5 ∧ 6 ≤ 6 := by decide

/-- The check that R112 says fails first. -/
def firstFailure (v : Variant) (t f a d : Nat) : Option Error :=
  if 2 ^ addressWidth v ≤ a then some (Error.fieldOverflow .address a (addressWidth v))
  else if 2 ^ dataWidth v ≤ d then some (Error.fieldOverflow .data d (dataWidth v))
  else if 256 ≤ t then some (Error.fieldOverflow .targetId t 8)
  else if 256 ≤ f then some (Error.fieldOverflow .flags f 8)
  else if 4 ≤ f then some (Error.validationError .reservedFlagBits)
  else none

/-- T5 in range; O6, O7, O11, O12, O13, O14 and a flags byte of 4 one beyond. -/
theorem witness_ConstructBuildsPacketOrReports :
    (0xFFFF < 2 ^ addressWidth .v16x64 ∧ 2 ^ 64 - 1 < 2 ^ dataWidth .v16x64 ∧ 255 < 256 ∧ 3 < 4) ∧
    firstFailure .v16x64 0 0 0x10000 0 = some (.fieldOverflow .address 0x10000 16) ∧
    firstFailure .v16x64 0 0 0xFFFF (2 ^ 64) = some (.fieldOverflow .data (2 ^ 64) 64) ∧
    firstFailure .v8x8 256 0 0 0 = some (.fieldOverflow .targetId 256 8) ∧
    firstFailure .v8x8 0 256 0 0 = some (.fieldOverflow .flags 256 8) ∧
    firstFailure .v8x8 255 255 0 0 = some (.validationError .reservedFlagBits) ∧
    firstFailure .v8x8 255 4 0 0 = some (.validationError .reservedFlagBits) ∧
    firstFailure .v16x64 255 3 0xFFFF (2 ^ 64 - 1) = none := by decide

theorem witness_EncodeZeroesPaddingAndReturnsBytes :
    boundTo (dirty.packet 0 (.p 0)) = some .v8x8 ∧ boundTo (State.reset.packet 0 (.p 0)) = none ∧
    boundTo ((withP0 stalePacket).packet 0 (.p 0)) = none := by decide

theorem witness_DecodeReadsPacketOrReports :
    ((List.replicate 15 0x41 : List Byte).length ≠ 16 ∧ (List.replicate 17 0x41 : List Byte).length ≠ 16 ∧
      ([] : List Byte).length ≠ 16) ∧
    ((padded [0x46]).length = 16 ∧ ∀ w, (padded [0x46]).getD 0 0 ≠ magicOf w) ∧
    ((padded [0x42]).length = 16 ∧ (padded [0x42]).getD 0 0 = magicOf .v8x16 ∧ Variant.v8x16 ≠ .v8x8) ∧
    ((padded [0x41]).length = 16 ∧ (padded [0x41]).getD 0 0 = magicOf .v8x8) := by
  refine ⟨by decide, ⟨by decide, fun w => ?_⟩, by decide, by decide⟩
  cases w <;> decide

/-- A bound packet for each violation, and for none: the first padding byte of 8×8 is 5 and the last 15. -/
theorem witness_ValidateReportsFirstViolation :
    boundTo (State.reset.packet 0 .req) = none ∧
    (boundTo ((withP0 (held .v8x8 (padded [0x42]))).packet 0 (.p 0)) = some .v8x8 ∧
      (withP0 (held .v8x8 (padded [0x42]))).byte 0 (.p 0) 0 ≠ magicOf .v8x8) ∧
    (boundTo (dirty.packet 0 (.p 0)) = some .v8x8 ∧ dirty.byte 0 (.p 0) 0 = magicOf .v8x8 ∧
      4 ≤ (dirty.byte 0 (.p 0) 1).toNat) ∧
    (let s := withP0 (held .v8x8 (padded [0x41, 0x03, 0, 0, 0, 0x01]));
      boundTo (s.packet 0 (.p 0)) = some .v8x8 ∧ s.byte 0 (.p 0) 0 = magicOf .v8x8 ∧ (s.byte 0 (.p 0) 1).toNat < 4 ∧
        3 + addressBytes .v8x8 + dataBytes .v8x8 ≤ 5 ∧ s.byte 0 (.p 0) 5 ≠ 0 ∧
        ∀ j, 3 + addressBytes .v8x8 + dataBytes .v8x8 ≤ j → ¬ j < 5) ∧
    (let s := withP0 (held .v8x8 ((padded [0x41]).set 15 1));
      boundTo (s.packet 0 (.p 0)) = some .v8x8 ∧ s.byte 0 (.p 0) 0 = magicOf .v8x8 ∧ (s.byte 0 (.p 0) 1).toNat < 4 ∧
        s.byte 0 (.p 0) 15 ≠ 0 ∧ ∀ j, j < 15 → 5 ≤ j → s.byte 0 (.p 0) j = 0) ∧
    (let s := withP0 (held .v8x8 (padded [0x41, 0x03, 0xFF, 0xFF, 0xFF]));
      boundTo (s.packet 0 (.p 0)) = some .v8x8 ∧ s.byte 0 (.p 0) 0 = magicOf .v8x8 ∧ (s.byte 0 (.p 0) 1).toNat < 4 ∧
        ∀ i, i < 16 → 5 ≤ i → s.byte 0 (.p 0) i = 0) := by
  refine ⟨by decide, by decide, by decide, ?_, by decide, by decide⟩
  refine ⟨by decide, by decide, by decide, by decide, by decide, fun j h => ?_⟩
  simp only [show 3 + addressBytes .v8x8 + dataBytes .v8x8 = 5 from rfl] at h
  omega

theorem witness_AccessorsReadFields :
    boundTo (packetD5.packet 0 (.p 0)) = some .v16x64 ∧ boundTo (State.reset.packet 0 .resp) = none := by decide

theorem witness_SetTargetWritesByteTwo :
    boundTo (packetD5.packet 0 (.p 0)) = some .v16x64 ∧ boundTo ((withP0 stalePacket).packet 0 (.p 0)) = none ∧
    256 ≤ 256 ∧ 255 < 256 := by decide

theorem witness_SetAddressWritesAddressBytes :
    boundTo (packetD5.packet 0 (.p 0)) = some .v16x64 ∧ boundTo (State.reset.packet 0 (.p 0)) = none ∧
    2 ^ addressWidth .v16x64 ≤ 0x10000 ∧ 0xFFFF < 2 ^ addressWidth .v16x64 := by decide

theorem witness_SetDataWritesDataBytes :
    boundTo (packetD5.packet 0 (.p 0)) = some .v16x64 ∧ boundTo (State.reset.packet 0 (.p 0)) = none ∧
    2 ^ dataWidth .v16x64 ≤ 2 ^ 64 ∧ 2 ^ 64 - 1 < 2 ^ dataWidth .v16x64 := by decide

theorem witness_FlagMutatorsWriteOneBit :
    2 ≤ 2 ∧ 1 < 2 ∧ 0 < 2 ∧ boundTo (dirty.packet 0 (.p 0)) ≠ none ∧ boundTo (State.reset.packet 0 (.p 0)) = none := by
  decide

/-- The state after T5's CONSTRUCT, and after its ENCODE. -/
def constructedT5 : State := after (exec (.construct 0 (.p 0) (indexOf .v16x64) 255 3 0xFFFF (2 ^ 64 - 1)) .reset)
def encodedT5 : State := after (exec (.encode 0 (.p 0)) constructedT5)
def bytesT5 : Buffer := (constructedT5.packet 0 (.p 0)).buf

theorem witness_ConstructEncodeDecodeRoundTrips :
    exec (.construct 0 (.p 0) (indexOf .v16x64) 255 3 0xFFFF (2 ^ 64 - 1)) .reset = .next constructedT5 ∧
    (constructedT5.caller 0).ret = some (.ok (.packet (.p 0))) ∧
    exec (.encode 0 (.p 0)) constructedT5 = .next encodedT5 ∧
    (encodedT5.caller 0).ret = some (.ok (.bytes bytesT5)) := by
  exact ⟨next_after (by decide), by decide, next_after (by decide), by decide⟩

/-- A state with one caller: it, and every other one as at reset. -/
theorem caller_of_single (s : State) (k : Caller) (h : s.callers = [(0, k)]) (c : CallerId) :
    s.caller c = if c = 0 then k else Caller.fresh := by
  simp [State.caller, h, storeGet]

/-- `receiving` meets every invariant: caller 0 has the packet of a CONSTRUCT in `p0` and in `req`, and holds the gate in its
RX step; its transmit is the wire's open transfer. -/
theorem receiving_caller (c : CallerId) :
    receiving.caller c = if c = 0 then receiving.caller 0 else Caller.fresh := by
  rw [caller_of_single receiving _ rfl, caller_of_single receiving _ rfl, if_pos rfl]

theorem receiving_packetsWf : receiving.PacketsWf := by
  intro c r
  rw [State.packet, receiving_caller]
  by_cases hc : c = 0
  · rw [if_pos hc]
    cases r with
    | p n =>
      have : (receiving.caller 0).packet (.p n) =
          if n = 0 then { buf := requestQ, desc := some .v8x8, status := .constructed } else Packet.fresh := rfl
      rw [this]
      split <;> decide
    | req => decide
    | resp => decide
  · rw [if_neg hc]
    cases r <;> rfl

theorem receiving_gateWf : receiving.GateWf := by
  intro c h hh
  rw [receiving_caller] at hh
  by_cases hc : c = 0
  · rw [if_pos hc] at hh
    obtain rfl := Option.some.inj hh
    exact ⟨by rw [hc]; rfl, rfl⟩
  · rw [if_neg hc] at hh
    cases hh

theorem receiving_wireWf : receiving.WireWf := by
  refine ⟨by decide, fun c => ?_⟩
  have ho : openTransfer receiving.wire = some 0 := by decide
  rw [ho, receiving_caller]
  by_cases hc : c = 0
  · rw [if_pos hc]
    exact ⟨fun _ => ⟨_, rfl⟩, fun _ => by rw [hc]⟩
  · rw [if_neg hc]
    exact ⟨fun h => absurd (Option.some.inj h).symm hc, fun ⟨_, h⟩ => by cases h⟩

theorem receiving_exchangesWf : receiving.ExchangesWf := by
  intro c
  rw [receiving_caller]
  by_cases hc : c = 0
  · rw [if_pos hc]
    exact ⟨by decide, by decide, by decide, by decide⟩
  · rw [if_neg hc]
    exact ⟨rfl, trivial⟩

theorem receiving_callersBelow : receiving.CallersBelow 1 := by
  refine ⟨fun c hc => ?_, (fun _ h => nomatch h), fun c hc => ?_⟩
  · rw [receiving_caller, if_neg (Nat.pos_iff_ne_zero.mp hc)]
  · rw [← Option.some.inj hc]
    exact Nat.one_pos

/-- The invariants' premises, met together by a state whose step carries a response (the canonical form and `CallersBelow 1`
among them). -/
theorem witness_StepKeepsInvariants :
    receiving.PacketsWf ∧ receiving.SessionWf ∧ receiving.GateWf ∧ receiving.WireWf ∧ receiving.ExchangesWf ∧
    receiving.wf = true ∧ receiving.CallersBelow 1 ∧ ∃ t, step receiving = .next t :=
  ⟨receiving_packetsWf, by show 1 ≤ 1; decide, receiving_gateWf, receiving_wireWf, receiving_exchangesWf, by decide,
    receiving_callersBelow, _, next_after (by decide)⟩

/-- The one case in which a `Ready` session loses its handle, and a `Ready` session that keeps it. -/
theorem witness_StepKeepsSessionRegisters :
    (let s := reestablishing .ready none [.busy];
      s.SessionWf ∧ s.GateWf ∧ step s = .next (after (step s)) ∧ (after (step s)).session.state = .ready ∧
        (after (step s)).session.handle = none) ∧
    (after (step receiving)).session.handle = some 1 := by
  refine ⟨⟨by show 1 ≤ 1; decide, fun c h hh => ?_, next_after (by decide), by decide, by decide⟩, by decide⟩
  rw [caller_of_single (reestablishing .ready none [.busy]) _ rfl] at hh
  by_cases hc : c = 0
  · rw [if_pos hc] at hh
    obtain rfl := Option.some.inj hh
    exact ⟨(fun e => nomatch e), (fun e => nomatch e)⟩
  · rw [if_neg hc] at hh
    cases hh

theorem witness_EncodedBytesBeginWithMagic :
    receiving.PacketsWf ∧ (receiving.packet 0 (.p 0)).status = .constructed ∧
    (receiving.packet 0 (.p 0)).desc = some .v8x8 :=
  ⟨receiving_packetsWf, by decide, by decide⟩

/-- M1 to M3: the reused register is `p0` of T5, constructed anew as 8×8. -/
theorem witness_ReuseThenConstructLeaksNothing :
    exec (.reuse 0 (.p 0)) constructedT5 = .next (after (exec (.reuse 0 (.p 0)) constructedT5)) ∧
    exec (.construct 0 (.p 0) 0 0 0 5 6) (after (exec (.reuse 0 (.p 0)) constructedT5)) =
      .next (after (exec (.construct 0 (.p 0) 0 0 0 5 6) (after (exec (.reuse 0 (.p 0)) constructedT5)))) ∧
    ((after (exec (.construct 0 (.p 0) 0 0 0 5 6) (after (exec (.reuse 0 (.p 0)) constructedT5)))).caller 0).ret =
      some (.ok (.packet (.p 0))) ∧
    exec (.construct 0 (.p 0) 0 0 0 5 6) constructedT5 =
      .next (after (exec (.construct 0 (.p 0) 0 0 0 5 6) constructedT5)) := by
  exact ⟨next_after (by decide), next_after (by decide), by decide, next_after (by decide)⟩

theorem witness_CodecErrorsCommitNothing :
    callerOf (.setTarget 0 (.p 0) 256) = some 0 ∧ codecReg (.setTarget 0 (.p 0) 256) = some (.p 0) ∧
    exec (.setTarget 0 (.p 0) 256) dirty = .next (after (exec (.setTarget 0 (.p 0) 256) dirty)) ∧
    ((after (exec (.setTarget 0 (.p 0) 256) dirty)).caller 0).ret = some (.err (.fieldOverflow .targetId 256 8)) := by
  exact ⟨rfl, rfl, next_after (by decide), by decide⟩

theorem witness_IllFormedCommandsFault :
    (¬ (Instr.descInfo 0 6).WellFormed ∧ ¬ (Instr.setSuccess 0 (.p 0) 2).WellFormed ∧
      ¬ (Instr.encode 0 .req).WellFormed) ∧
    ∀ cmd ∈
      ([⟨0x33, 0, [.packet (.p 0), .num 2]⟩, ⟨0x34, 0, [.packet .req, .num 2]⟩, ⟨0x11, 0, [.packet .req]⟩,
        ⟨0x14, 0, [.packet .resp]⟩, ⟨0x30, 0, [.packet .req, .num 1]⟩, ⟨0x34, 0, [.packet .resp, .num 1]⟩,
        ⟨0x10, 0, [.packet .req, .num 0, .num 0, .num 0, .num 0, .num 0]⟩,
        ⟨0x12, 0, [.packet .resp, .num 0, .bytes requestQ.toList]⟩] : List Command),
      (State.reset.caller 0).held = none ∧ takeIssued 0 [cmd] = some (cmd, []) ∧
        faultOf (step { State.reset with schedule := [.caller 0], issued := [cmd] }) = some .illegalCommand := by decide

/-- Both ends of every range of R56, and the descriptor index 6. -/
theorem witness_ReservedCommandsFault :
    (∀ op ∈ ([0x00, 0x03, 0x0F, 0x15, 0x1F, 0x25, 0x2F, 0x35, 0x3F, 0x46, 0x4F, 0x51, 0xFF] : List Byte),
      op.toNat = 0x00 ∨ (0x03 ≤ op.toNat ∧ op.toNat ≤ 0x0F) ∨ (0x15 ≤ op.toNat ∧ op.toNat ≤ 0x1F) ∨
        (0x25 ≤ op.toNat ∧ op.toNat ≤ 0x2F) ∨ (0x35 ≤ op.toNat ∧ op.toNat ≤ 0x3F) ∨
        (0x46 ≤ op.toNat ∧ op.toNat ≤ 0x4F) ∨ 0x51 ≤ op.toNat) ∧
    6 ≤ 6 ∧ (State.reset.caller 0).held = none ∧ takeIssued 0 [⟨0x03, 0, []⟩] = some (⟨0x03, 0, []⟩, []) ∧
    takeIssued 0 [⟨0x42, 1, []⟩, ⟨0x02, 0, [.num 6]⟩] = some (⟨0x02, 0, [.num 6]⟩, [⟨0x42, 1, []⟩]) := by decide

theorem witness_CommandsLeaveOtherCallersAlone :
    callerOf (.lock 1) = some 1 ∧ exec (.lock 1) receiving = .next (after (exec (.lock 1) receiving)) :=
  ⟨rfl, next_after (by decide)⟩

theorem witness_CodecCommandsChangeOnlyTheirRegister :
    callerOf (.decode 0 (.p 0) 0 requestQ.toList) = some 0 ∧ codecReg (.decode 0 (.p 0) 0 requestQ.toList) = some (.p 0) ∧
    exec (.decode 0 (.p 0) 0 requestQ.toList) receiving =
      .next (after (exec (.decode 0 (.p 0) 0 requestQ.toList) receiving)) ∧
    callerOf (.validate 0 .req) = some 0 ∧ codecReg (.validate 0 .req) = some .req ∧
    exec (.validate 0 .req) receiving = .next (after (exec (.validate 0 .req) receiving)) ∧
    callerOf (.getData 0 .req) = some 0 ∧ codecReg (.getData 0 .req) = some .req ∧
    exec (.getData 0 .req) receiving = .next (after (exec (.getData 0 .req) receiving)) :=
  ⟨rfl, rfl, next_after (by decide), rfl, rfl, next_after (by decide), rfl, rfl, next_after (by decide)⟩

/-- Vectors E1, E2 and E5. -/
theorem witness_AcquireOnceBindsOnce :
    (inSession .degraded none (some 1) 1 [] [] [] []).session.state ≠ .unacquired ∧
    (let s := inSession .unacquired none none 0 [.ok] [] [] [];
      s.session.state = .unacquired ∧ s.transport.claims = .ok :: []) ∧
    (let s := inSession .unacquired none none 0 [.busy] [] [] [];
      s.session.state = .unacquired ∧ s.transport.claims = .busy :: [] ∧ ClaimAnswer.busy ≠ .ok) := by decide

/-- Vectors E37, E36, E34, E35, E31, E32 and E33; the second half of E35 with the gate held, and free with each answer of the
claim, in a session that is still `Degraded` and in one that is `Ready` again. -/
theorem witness_ReestablishRestoresDegradedSession :
    State.reset.session.state = .unacquired ∧ (ready none [] [] []).session.state = .ready ∧
    (let s := inSession .degraded (some 0) (some 1) 1 [] [] [] [];
      s.session.state = .degraded ∧ s.session.holder = some 0) ∧
    (let s := inSession .degraded (some 1) (some 1) 1 [] [] [] [];
      s.session.state = .degraded ∧ 1 ≠ 0 ∧ s.session.holder = some 1) ∧
    (let s := inSession .degraded none (some 1) 1 [.ok] [] [] [];
      s.session.state = .degraded ∧ s.session.holder = none ∧ s.transport.claims = .ok :: []) ∧
    (let s := inSession .degraded none none 1 [.busy] [] [] [];
      s.session.state = .degraded ∧ s.session.holder = none ∧ s.transport.claims = .busy :: []) ∧
    (let s := reestablishing .degraded (some 1) [];
      s.schedule = .caller 0 :: [] ∧ (s.caller 0).held = some (.atReestablish 2) ∧ s.session.holder ≠ none) ∧
    (∀ st ∈ [SessionState.degraded, .ready], ∀ a ∈ [ClaimAnswer.ok, .busy, .disconnected],
      (reestablishing st none [a]).schedule = .caller 0 :: [] ∧
      ((reestablishing st none [a]).caller 0).held = some (.atReestablish 2) ∧
      (reestablishing st none [a]).session.holder = none ∧ (reestablishing st none [a]).transport.claims = a :: []) := by
  decide

/-- A waiter at the gate, scheduled: with the gate held by caller 0, and with the gate free. -/
def waiting (holder : Option CallerId) : State :=
  { ready holder [] [] [] with
    callers := [(1, { Caller.fresh with held := some (.atLock .lock) })]
    schedule := [.caller 1] }

theorem witness_LockGrantsRejectsOrHolds :
    (ready (some 0) [] [] []).session.holder = some 0 ∧ (ready none [] [] []).session.holder = none ∧
    (0 ≠ 1 ∧ (ready (some 0) [] [] []).session.holder = some 0) ∧
    (∀ h ∈ [some 0, none], (waiting h).schedule = .caller 1 :: [] ∧ ((waiting h).caller 1).held = some (.atLock .lock) ∧
      (waiting h).session.holder = h) := by decide

theorem witness_UnlockFreesGate :
    (ready (some 0) [] [] []).session.holder ≠ some 1 ∧ (ready none [] [] []).session.holder ≠ some 0 ∧
    (ready (some 0) [] [] []).session.holder = some 0 := by decide

/-- Vectors E11 to E14, with 15 and 17 bytes. -/
theorem witness_TransferChecksBeforeSending :
    (ready none [] [] []).session.holder ≠ some 0 ∧
    (let s := inSession .unacquired (some 0) none 0 [] [] [] [];
      s.session.holder = some 0 ∧ s.session.state = .unacquired) ∧
    (let s := inSession .degraded (some 0) (some 1) 1 [] [] [] [];
      s.session.holder = some 0 ∧ s.session.state = .degraded) ∧
    (let s := ready (some 0) [] [] []; s.session.holder = some 0 ∧ s.session.state = .ready) ∧
    (List.replicate 15 (0 : Byte)).length ≠ 16 ∧ (List.replicate 17 (0 : Byte)).length ≠ 16 := by decide

/-- Vector E15. -/
theorem witness_TransferCarriesRequestThenResponse :
    let s := ready (some 0) [.ok] [.ok responseQ] [];
    s.session.holder = some 0 ∧ s.session.state = .ready ∧ s.transport.writes = .ok :: [] ∧
      s.transport.reads = .ok responseQ :: [] := by decide

/-- Vectors E16 to E21: every answer but `Ok`, both residues, the shortest and the longest short write. -/
theorem witness_FailedTransmitMapsToError :
    ∀ w ∈ [WriteAnswer.busy, .short 0, .short 15, .timeout, .disconnected], ∀ clean ∈ [true, false],
      (ready (some 0) [w] [] [clean]).session.holder = some 0 ∧ (ready (some 0) [w] [] [clean]).session.state = .ready ∧
      (ready (some 0) [w] [] [clean]).transport.writes = w :: [] ∧
      (ready (some 0) [w] [] [clean]).transport.cleans = clean :: [] ∧ w ≠ .ok := by decide

/-- Vectors E22 to E27. -/
theorem witness_FailedReceiveMapsToError :
    ∀ r ∈ [ReadAnswer.busy, .short 0, .short 15, .timeout, .disconnected], ∀ clean ∈ [true, false],
      (ready (some 0) [.ok] [r] [clean]).session.holder = some 0 ∧
      (ready (some 0) [.ok] [r] [clean]).session.state = .ready ∧
      (ready (some 0) [.ok] [r] [clean]).transport.writes = .ok :: [] ∧
      (ready (some 0) [.ok] [r] [clean]).transport.reads = r :: [] ∧
      (ready (some 0) [.ok] [r] [clean]).transport.cleans = clean :: [] ∧ ∀ x, r ≠ .ok x := by
  intro r hr clean _
  refine ⟨rfl, rfl, rfl, rfl, rfl, fun x h => ?_⟩
  subst h
  simp at hr

/-- A caller in a blocking step of a transfer, scheduled, with these answers ready. -/
def blocked (h : Held) (ws : List WriteAnswer) (rs : List ReadAnswer) : State :=
  { ready (some 0) ws rs [true] with
    callers := [(0, { Caller.fresh with held := some h })]
    schedule := [.caller 0] }

/-- The operations that transfer: TRANSFER, EXCHANGE and SEND_REQUEST. -/
def transferUsers : List TransferUser := [.raw, .exchange, .request .v8x8 0 0x10]

/-- Each operation with no answer ready; then in its TX step with no answer, a failing one, `Ok` with no read ready and `Ok` with
one; then in its RX step with no answer, a failing one and a whole read. -/
theorem witness_TransferBlocksUntilAnswered :
    (let s := ready (some 0) [] [] [];
      s.session.holder = some 0 ∧ s.session.state = .ready ∧ s.transport.writes = []) ∧
    (let s := ready none [] [] [];
      s.session.holder = none ∧ s.session.state = .ready ∧ s.transport.writes = [] ∧ 0xFF < 2 ^ addressWidth .v8x8 ∧
        0xFF < 2 ^ dataWidth .v8x8 ∧ 255 < 256 ∧ 3 < 4) ∧
    (∀ u ∈ transferUsers, ∀ ws ∈ [[], [.short 15], [WriteAnswer.ok]], ∀ rs ∈ [[], [ReadAnswer.ok responseQ]],
      let s := blocked (.atTransmit u requestQ) ws rs;
      s.schedule = .caller 0 :: [] ∧ (s.caller 0).held = some (.atTransmit u requestQ) ∧ s.transport.writes = ws ∧
        s.transport.reads = rs ∧ s.transport.cleans = true :: []) ∧
    (∀ u ∈ transferUsers, ∀ rs ∈ [[], [.timeout], [ReadAnswer.ok responseQ]],
      let s := blocked (.atReceive u) [] rs;
      s.schedule = .caller 0 :: [] ∧ (s.caller 0).held = some (.atReceive u) ∧ s.transport.reads = rs ∧
        s.transport.cleans = true :: []) ∧
    writeErrorOf (.short 15) = some (.shortWrite 15) ∧ readErrorOf .timeout = some (.timeout .receive) := by decide

/-- Caller 0 waits at the gate, in the session given, and is scheduled. -/
def atGate (st : SessionState) (holder : Option CallerId) (u : GateUser) (ws : List WriteAnswer) (rs : List ReadAnswer) :
    State :=
  { inSession st holder (some 1) 1 [] ws rs [] with
    callers := [(0, { Caller.fresh with held := some (.atLock u) })]
    schedule := [.caller 0] }

/-- The three steps of E28, one after the other. -/
def locked : State := after (exec (.lock 0) (ready none [.ok] [.ok responseQ] []))
def transferred : State := after (exec (.transfer 0 requestQ.toList) locked)

theorem witness_ExchangeIsLockTransferUnlock :
    (ready (some 0) [] [] []).session.holder = some 0 ∧
    (1 ≠ 0 ∧ (ready (some 1) [] [] []).session.holder = some 1) ∧
    (∀ h ∈ [some 1, none], let s := atGate .ready h (.exchange requestQ.toList) [] [];
      s.schedule = .caller 0 :: [] ∧ (s.caller 0).held = some (.atLock (.exchange requestQ.toList)) ∧
        s.session.holder = h) ∧
    (ready none [.ok] [.ok responseQ] []).session.holder = none ∧
    exec (.lock 0) (ready none [.ok] [.ok responseQ] []) = .next locked ∧
    exec (.transfer 0 requestQ.toList) locked = .next transferred ∧
    (transferred.caller 0).ret = some (.ok (.bytes responseQ)) ∧
    exec (.unlock 0) transferred = .next (after (exec (.unlock 0) transferred)) := by
  exact ⟨by decide, by decide, by decide, by decide, next_after (by decide), next_after (by decide), by decide,
    next_after (by decide)⟩

theorem witness_ExchangeReturnsResponseAndFreesGate :
    let s := ready none [.ok] [.ok responseQ] [];
    s.session.holder = none ∧ s.session.state = .ready ∧ s.transport.writes = .ok :: [] ∧
      s.transport.reads = .ok responseQ :: [] := by decide

theorem witness_DegradedSessionFailsFast :
    (let s := inSession .degraded (some 0) (some 1) 1 [] [] [] [];
      s.session.state = .degraded ∧ s.session.holder = some 0) ∧
    (let s := inSession .degraded none (some 1) 1 [] [] [] [];
      s.session.state = .degraded ∧ s.session.holder = none) ∧
    (0xFF < 2 ^ addressWidth .v8x8 ∧ 0xFF < 2 ^ dataWidth .v8x8 ∧ 255 < 256 ∧ 3 < 4) ∧
    ∀ u ∈ [GateUser.exchange requestQ.toList, .request .v8x8 0 0x10 requestQ],
      let s := atGate .degraded none u [] [];
      s.session.state = .degraded ∧ s.schedule = .caller 0 :: [] ∧ s.session.holder = none ∧
        (s.caller 0).held = some (.atLock u) := by decide

/-- A SEND_REQUEST that nothing stops before its response `t` is in. -/
theorem witness_sendReady (t : Buffer) :
    SendReady (ready none [.ok] [.ok t] []) .v8x8 0 1 0x10 0xAB [] t [] :=
  ⟨by decide, by decide, by decide, by decide, rfl, rfl, rfl, rfl⟩

/-- Bytes with the magic, flags below 4 and, from byte 5 on, zeros are a valid 8×8 response. -/
theorem responseValid_v8x8 (t : Buffer) (h0 : byteAt t 0 = 0x41) (h1 : (byteAt t 1).toNat < 4)
    (h : ∀ i, i < 16 → 5 ≤ i → byteAt t i = 0) : responseValid .v8x8 t :=
  ⟨h0, h1, fun i hp hi => h i hi hp⟩

/-- X1 and, for R104, X2. -/
theorem witness_SendRequestReturnsTypedResponse :
    SendReady (ready none [.ok] [.ok responseQ] []) .v8x8 0 1 0x10 0xAB [] responseQ [] ∧
    responseValid .v8x8 responseQ ∧ (byteAt responseQ 2).toNat = 0 ∧ leValue responseQ 3 (addressBytes .v8x8) = 0x10 :=
  ⟨witness_sendReady _, responseValid_v8x8 _ (by decide) (by decide) (by decide), by decide, by decide⟩

theorem witness_FailureFlagIsData :
    let t := bufferOf (padded [0x41, 0x01, 0x00, 0x10, 0xAB]);
    SendReady (ready none [.ok] [.ok t] []) .v8x8 0 1 0x10 0xAB [] t [] ∧ responseValid .v8x8 t ∧
      (byteAt t 2).toNat = 0 ∧ leValue t 3 (addressBytes .v8x8) = 0x10 ∧ (byteAt t 1).getLsbD 1 = false :=
  ⟨witness_sendReady _, responseValid_v8x8 _ (by decide) (by decide) (by decide), by decide, by decide, by decide⟩

/-- X5, X6, and X1 for the last clause. -/
theorem witness_EchoCheckComparesTargetAndAddress :
    (let t := bufferOf (padded [0x41, 0x03, 0x01, 0x10, 0xAB]);
      SendReady (ready none [.ok] [.ok t] []) .v8x8 0 1 0x10 0xAB [] t [] ∧ responseValid .v8x8 t ∧
        (byteAt t 2).toNat ≠ 0) ∧
    (let t := bufferOf (padded [0x41, 0x03, 0x00, 0x11, 0xAB]);
      SendReady (ready none [.ok] [.ok t] []) .v8x8 0 1 0x10 0xAB [] t [] ∧ responseValid .v8x8 t ∧
        leValue t 3 (addressBytes .v8x8) ≠ 0x10) ∧
    (responseValid .v8x8 responseQ ∧ (byteAt responseQ 2).toNat = 0 ∧
      leValue responseQ 3 (addressBytes .v8x8) = 0x10) :=
  ⟨⟨witness_sendReady _, responseValid_v8x8 _ (by decide) (by decide) (by decide), by decide⟩,
    ⟨witness_sendReady _, responseValid_v8x8 _ (by decide) (by decide) (by decide), by decide⟩,
    responseValid_v8x8 _ (by decide) (by decide) (by decide), by decide, by decide⟩

/-- X10, X9's response, X7 and X8, with the first padding byte too; `witness_sendReady` holds for each. -/
theorem witness_BadResponseRejectsExchange :
    (∀ w, byteAt (bufferOf (padded [0x99])) 0 ≠ magicOf w) ∧
    (Variant.v8x16 ≠ .v8x8 ∧ byteAt (bufferOf (padded [0x42])) 0 = magicOf .v8x16) ∧
    (byteAt (bufferOf (padded [0x41, 0x07])) 0 = magicOf .v8x8 ∧
      4 ≤ (byteAt (bufferOf (padded [0x41, 0x07])) 1).toNat) ∧
    (let t := bufferOf ((padded [0x41, 0x03, 0x00, 0x10, 0xAB]).set 15 1);
      byteAt t 0 = magicOf .v8x8 ∧ (byteAt t 1).toNat < 4 ∧ paddingStart .v8x8 ≤ 15 ∧ byteAt t 15 ≠ 0 ∧
        ∀ j, j < 15 → paddingStart .v8x8 ≤ j → byteAt t j = 0) ∧
    (let t := bufferOf (padded [0x41, 0x03, 0x00, 0x10, 0xAB, 1]);
      byteAt t 0 = magicOf .v8x8 ∧ (byteAt t 1).toNat < 4 ∧ paddingStart .v8x8 ≤ 5 ∧ byteAt t 5 ≠ 0 ∧
        ∀ j, j < 5 → ¬ paddingStart .v8x8 ≤ j) := by
  refine ⟨fun w => ?_, by decide, by decide, by decide, by decide⟩
  cases w <;> decide

/-- X1's response, and a response of another variant that is well formed for its own. -/
theorem witness_ResponseOfAnotherVariantIsMismatch :
    (SendReady (ready none [.ok] [.ok responseQ] []) .v8x8 0 1 0x10 0xAB [] responseQ [] ∧
      byteAt responseQ 0 = magicOf .v8x8) ∧
    (let t := bufferOf (padded [0x42, 0x03, 0x00, 0x10, 0xAB]);
      SendReady (ready none [.ok] [.ok t] []) .v8x8 0 1 0x10 0xAB [] t [] ∧ responseValid .v8x16 t ∧
        Variant.v8x16 ≠ .v8x8) := by
  have h : ∀ i, i < 16 → 6 ≤ i → byteAt (bufferOf (padded [0x42, 0x03, 0x00, 0x10, 0xAB])) i = 0 := by decide
  exact ⟨⟨witness_sendReady _, by decide⟩, witness_sendReady _, ⟨by decide, by decide, fun i hp hi => h i hi hp⟩,
    by decide⟩

/-- X11 and X12. -/
theorem witness_ConstructionErrorRejectsUnsent :
    firstFailure .v8x8 0 1 0x100 0 = some (.fieldOverflow .address 0x100 8) ∧
    firstFailure .v8x8 0 4 0 0 = some (.validationError .reservedFlagBits) := by decide

/-- X21, X20, X13 to X15, and X16 to X18, with every answer but `Ok` and both residues. -/
theorem witness_SendRequestStopsAtGateOrTransfer :
    (0xFF < 2 ^ addressWidth .v8x8 ∧ 0xFF < 2 ^ dataWidth .v8x8 ∧ 255 < 256 ∧ 3 < 4) ∧
    (ready (some 0) [] [] []).session.holder = some 0 ∧
    (State.reset.session.holder = none ∧ State.reset.session.state = .unacquired) ∧
    (∀ w ∈ [WriteAnswer.busy, .short 0, .short 15, .timeout, .disconnected], ∀ clean ∈ [true, false],
      let s := ready none [w] [] [clean];
      s.session.holder = none ∧ s.session.state = .ready ∧ (writeErrorOf w).isSome ∧ s.transport.writes = w :: [] ∧
        s.transport.cleans = clean :: []) ∧
    (∀ r ∈ [ReadAnswer.busy, .short 0, .short 15, .timeout, .disconnected], ∀ clean ∈ [true, false],
      let s := ready none [.ok] [r] [clean];
      s.session.holder = none ∧ s.session.state = .ready ∧ (readErrorOf r).isSome ∧ s.transport.writes = .ok :: [] ∧
        s.transport.reads = r :: [] ∧ s.transport.cleans = clean :: []) := by decide

/-- X22: held in `Built`; then scheduled with the gate held, and with the gate free: in an `Unacquired` session, and in a `Ready`
one with no answer, a failing write, a whole write, and the answers ready. -/
def heldInBuilt : State := after (exec (.sendRequest 0 0 0 1 0x10 0xAB) (ready (some 1) [] [] []))

theorem witness_SendRequestWaitsInBuilt :
    (0x10 < 2 ^ addressWidth .v8x8 ∧ 0xAB < 2 ^ dataWidth .v8x8 ∧ 0 < 256 ∧ 1 < 4) ∧
    (1 ≠ 0 ∧ (ready (some 1) [] [] []).session.holder = some 1) ∧
    (let w := { heldInBuilt with schedule := [.caller 0] };
      w.callers = heldInBuilt.callers ∧ w.schedule = .caller 0 :: [] ∧ w.session.holder ≠ none) ∧
    (let w :=
        { inSession .unacquired none none 0 [] [] [] [] with callers := heldInBuilt.callers, schedule := [.caller 0] };
      w.callers = heldInBuilt.callers ∧ w.schedule = .caller 0 :: [] ∧ w.session.holder = none ∧
        w.session.state = .unacquired) ∧
    (∀ ws ∈ [[], [.short 15], [WriteAnswer.ok]],
      let w := { ready none ws [] [true] with callers := heldInBuilt.callers, schedule := [.caller 0] };
      w.callers = heldInBuilt.callers ∧ w.schedule = .caller 0 :: [] ∧ w.session.holder = none ∧
        w.session.state = .ready ∧ w.transport.writes = ws ∧ w.transport.cleans = true :: []) ∧
    (let w := { ready none [.ok] [.ok responseQ] [] with callers := heldInBuilt.callers, schedule := [.caller 0] };
      w.callers = heldInBuilt.callers ∧ w.schedule = .caller 0 :: [] ∧ w.session.holder = none ∧
        w.session.state = .ready ∧ w.transport.writes = .ok :: [] ∧ w.transport.reads = .ok responseQ :: []) := by
  decide

theorem witness_ArrivingPacketAwaitsItsRead : ∀ c u, (State.reset.caller c).held ≠ some (.atReceive u) := by
  intro c u h
  cases h

theorem witness_ArrivingPacketEndsReceive :
    (∀ u ∈ transferUsers, let s := blocked (.atReceive u) [] [];
      s.session.holder = some 0 ∧ (s.caller 0).held = some (.atReceive u) ∧ s.transport.reads = []) ∧
    encode (.pkt8x8 0x03 0 0x10 0xAB 0) = .wire responseQ.toList := by decide

/-- A caller's command, behind another's, and a packet of the device. -/
theorem witness_StepRunsDecodedInstruction :
    (let s := { State.reset with schedule := [.caller 0], issued := [⟨0x43, 1, []⟩, ⟨0x42, 0, []⟩] };
      s.schedule = .caller 0 :: [] ∧ (s.caller 0).held = none ∧
        takeIssued 0 s.issued = some (⟨0x42, 0, []⟩, [⟨0x43, 1, []⟩]) ∧
        decode (.command ⟨0x42, 0, []⟩) = .ok (.lock 0)) ∧
    (let s :=
        { State.reset with
          schedule := [.transport]
          transport := { State.reset.transport with inbound := [responseQ] } };
      s.schedule = .transport :: [] ∧ s.transport.inbound = responseQ :: [] ∧
        decode (.wire responseQ.toList) = .ok (.pkt8x8 0x03 0 0x10 0xAB 0)) := by decide

theorem witness_StepWaitsForCommands :
    State.reset.issued = [] ∧ State.reset.transport.inbound = [] ∧ ∀ c, (State.reset.caller c).held = none :=
  ⟨rfl, rfl, fun _ => rfl⟩

theorem witness_DecodeInvertsEncode :
    (Instr.sendRequest 0 5 300 300 0 0).WellFormed ∧ (Instr.pkt8x8 0xFF 0xFF 0xFF 0xFF 1).WellFormed := by decide

theorem witness_EncodeInvertsWireDecode :
    decode (.wire responseQ.toList) = .ok (.pkt8x8 0x03 0 0x10 0xAB 0) := by decide

/-- Each magic byte, and the bytes beside them. -/
theorem witness_ByteZeroSelectsVariant :
    ([0x41, 0x42, 0x43, 0x44, 0x45, 0x4B].map fun m => byteAt (bufferOf (padded [m])) 0) =
      [0x41, 0x42, 0x43, 0x44, 0x45, 0x4B] ∧
    ∀ m ∈ ([0x00, 0x40, 0x46, 0x4A, 0x4C, 0xFF] : List Byte),
      byteAt (bufferOf (padded [m])) 0 ∉ [0x41, 0x42, 0x43, 0x44, 0x45, 0x4B] := by decide

/-- Caller 0 with a stale `p0` whose bytes are `b`. -/
def staleCaller (b : Buffer) : Caller := { Caller.fresh with regs := [(0, { buf := b, desc := none, status := .stale })] }
def staleState (b : Buffer) : State := { State.reset with callers := [(0, staleCaller b)] }

/-- Two states that differ in the bytes of caller 0's stale `p0`, and nowhere else. -/
theorem witness_StaleBytesAreNeverRead :
    (staleState requestQ).AgreesButStale (staleState responseQ) ∧ requestQ ≠ responseQ := by
  refine ⟨⟨rfl, rfl, rfl, rfl, rfl, fun c => ?_⟩, by decide⟩
  simp only [State.packet, caller_of_single (staleState requestQ) _ rfl, caller_of_single (staleState responseQ) _ rfl]
  split
  · refine ⟨rfl, rfl, rfl, rfl, rfl, rfl, fun r => ?_⟩
    cases r with
    | p n =>
      simp only [Caller.packet, staleCaller, storeGet]
      split <;> exact ⟨rfl, rfl, fun h => absurd rfl h⟩
    | req => exact ⟨rfl, rfl, fun _ => rfl⟩
    | resp => exact ⟨rfl, rfl, fun _ => rfl⟩
  · exact ⟨rfl, rfl, rfl, rfl, rfl, rfl, fun _ => ⟨rfl, rfl, fun _ => rfl⟩⟩

/-- A receive; a whole exchange out of the TX step; a failed transmit. -/
theorem witness_NoOperationRepeatsTransfer :
    step receiving = .next (after (step receiving)) ∧
    (∀ ws ∈ [[.busy], [WriteAnswer.ok]], ∀ u ∈ transferUsers,
      answersNext (step (blocked (.atTransmit u requestQ) ws [.ok responseQ])) = true) ∧
    transfersIn (wireOf (step (blocked (.atTransmit .exchange requestQ) [.ok] [.ok responseQ]))) =
      [.write 0 requestQ .ok, .read 0 (.ok responseQ)] :=
  ⟨next_after (by decide), by decide, by decide⟩

end Sys2Proof.Tests
end

/-!
The descriptor table read backwards: each column (the pair of widths, the magic byte) picks out its row (R18).
-/

namespace Sys2Proof.Proofs

open Sys2Proof Sys2Proof.Machine

/-- The variant with an address width and a data width: the inverse of the width columns, as `variantOfMagic` is that of
the magic column. -/
def variantOfWidths (aw dw : Nat) : Option Variant :=
  allVariants.find? fun v => addressWidth v == aw && dataWidth v == dw

theorem variantOfWidths_widths (v : Variant) : variantOfWidths (addressWidth v) (dataWidth v) = some v := by
  cases v <;> decide

theorem widths_injective {v w : Variant} (haw : addressWidth v = addressWidth w) (hdw : dataWidth v = dataWidth w) :
    v = w := by
  have hv := variantOfWidths_widths v
  rw [haw, hdw, variantOfWidths_widths w] at hv
  exact (Option.some.inj hv).symm

/-- Settles O2: the pair of widths and the magic byte are each injective on the six rows, so each determines the row and
with it the other. -/
theorem descriptorTableIsBijective : Obligations.DescriptorTableIsBijective := by
  intro v w
  constructor
  · exact ⟨fun ⟨haw, hdw⟩ => widths_injective haw hdw, fun h => h ▸ ⟨rfl, rfl⟩⟩
  · exact ⟨magicOf_injective, congrArg magicOf⟩

end Sys2Proof.Proofs

/-!
Commands the decoder rejects (R56): a code that no operation has, and an operation's operands with a defect. The step that
reaches such a command is the fault `IllegalCommand`, whichever of the two it is.
-/

namespace Sys2Proof.Proofs

open Sys2Proof Sys2Proof.Machine

/-! ### Reserved codes -/

/-- The reserved ranges of R56: what lies between the blocks of assigned codes. -/
def ReservedCode (op : Byte) : Prop :=
  op.toNat = 0x00 ∨ (0x03 ≤ op.toNat ∧ op.toNat ≤ 0x0F) ∨ (0x15 ≤ op.toNat ∧ op.toNat ≤ 0x1F) ∨
    (0x25 ≤ op.toNat ∧ op.toNat ≤ 0x2F) ∨ (0x35 ≤ op.toNat ∧ op.toNat ≤ 0x3F) ∨
    (0x46 ≤ op.toNat ∧ op.toNat ≤ 0x4F) ∨ 0x51 ≤ op.toNat

theorem opcodeOf_eq_some_iff {op : Byte} {o : Opcode} : opcodeOf op = some o ↔ op = opcodeCode o :=
  ⟨fun h => (eq_of_beq (List.find?_some (p := fun o => opcodeCode o == op) h)).symm, fun h => h ▸ opcodeOf_opcodeCode o⟩

theorem not_reservedCode_opcodeCode (o : Opcode) : ¬ ReservedCode (opcodeCode o) := by
  cases o <;> simp [ReservedCode, opcodeCode]

theorem opcodeOf_eq_none_of_reservedCode {op : Byte} (h : ReservedCode op) : opcodeOf op = none := by
  rw [Option.eq_none_iff_forall_ne_some]
  intro o ho
  rw [opcodeOf_eq_some_iff.1 ho] at h
  exact not_reservedCode_opcodeCode o h

theorem decodeCommand_reservedCode {cmd : Command} (h : ReservedCode cmd.op) :
    decodeCommand cmd = .error (.reservedCode cmd.op) := by
  simp only [decodeCommand, opcodeOf_eq_none_of_reservedCode h]

/-! ### Operands with a defect -/

theorem decodeCommand_illFormed {o : Opcode} {c : CallerId} {operands : List Operand} {i : Instr} {x : Defect}
    (hi : commandInstr c o operands = some i) (hx : i.defect = some x) :
    decodeCommand ⟨opcodeCode o, c, operands⟩ = .error (.illFormed x) := by
  simp only [decodeCommand, opcodeOf_opcodeCode, hi, hx]

theorem ofIndex_of_ge {d : Nat} (h : 6 ≤ d) : Defect.ofIndex d = some (.descriptorIndex d) :=
  if_neg (Nat.not_lt.2 h)

/-- A register that the command may not write is reported before the descriptor index, so which defect it is depends on the
register; that there is one does not. -/
theorem exists_defect_written_index (p : PacketReg) {d : Nat} (h : 6 ≤ d) :
    ∃ x, (Defect.ofWritten p).or (Defect.ofIndex d) = some x := by
  rw [ofIndex_of_ge h]
  cases p <;> exact ⟨_, rfl⟩

/-! ### The step that reaches a rejected command -/

theorem step_command_rejected {s : State} {c : CallerId} {agents : List Agent} {cmd : Command} {left : List Command}
    {e : DecodeError} (hs : s.schedule = .caller c :: agents) (hh : (s.caller c).held = none)
    (ht : takeIssued c s.issued = some (cmd, left)) (he : decodeCommand cmd = .error e) :
    step s = .fault .illegalCommand := by
  rw [step_command hs hh ht]
  simp only [runFrame, decode, he, rejectFrame]

/-- Settles O21: the decoder rejects each of these commands, a reserved code because no operation has it, and a descriptor
index from 6 on because it is a defect of all four operations that take one. -/
theorem reservedCommandsFault : Obligations.ReservedCommandsFault := by
  rintro c ⟨op, c', operands⟩ agents left s hs hh ht hc
  obtain ⟨e, he⟩ : ∃ e, decodeCommand ⟨op, c', operands⟩ = .error e := by
    rcases hc with hr | ⟨d, hd, ⟨rfl, rfl⟩ | ⟨p, t, f, a, x, rfl, rfl⟩ | ⟨p, b, rfl, rfl⟩ | ⟨t, f, a, x, rfl, rfl⟩⟩
    · exact ⟨_, decodeCommand_reservedCode hr⟩
    · exact ⟨_, decodeCommand_illFormed (o := .descInfo) rfl (ofIndex_of_ge hd)⟩
    · obtain ⟨y, hy⟩ := exists_defect_written_index p hd
      exact ⟨_, decodeCommand_illFormed (o := .construct) rfl hy⟩
    · obtain ⟨y, hy⟩ := exists_defect_written_index p hd
      exact ⟨_, decodeCommand_illFormed (o := .decode) rfl hy⟩
    · exact ⟨_, decodeCommand_illFormed (o := .sendRequest) rfl (ofIndex_of_ge hd)⟩
  exact step_command_rejected hs hh ht he

end Sys2Proof.Proofs

/-!
The descriptor unit (R60, R61): what LOOKUP and DESC_INFO answer, case by case, and that the answer is all they write.
-/

namespace Sys2Proof.Proofs

open Sys2Proof Sys2Proof.Machine

/-! ### LOOKUP -/

theorem exec_lookup_of_magic {m : Nat} {v : Variant} (h : (magicOf v).toNat = m) (c : CallerId) (s : State) :
    exec (.lookup c m) s = .next (s.succeed c (.descriptor v)) := by
  simp only [exec, execLookup, variantOfMagic_eq_some.2 h]

theorem exec_lookup_of_no_magic {m : Nat} (h : ∀ v, (magicOf v).toNat ≠ m) (c : CallerId) (s : State) :
    exec (.lookup c m) s = .next (s.raise c (.unknownVariant m)) := by
  simp only [exec, execLookup, variantOfMagic_eq_none.2 h]

/-- Settles O4: the table's lookup finds a variant exactly when some variant has the magic byte, and either answer writes
the caller's result alone. -/
theorem lookupResolvesMagic : Obligations.LookupResolvesMagic := by
  intro c m s
  refine ⟨Laws.RoundTrip.lookup c m rfl, fun v hv => ?_, fun hnone => ?_⟩
  · exact ⟨_, exec_lookup_of_magic hv c s, s.succeed_answersOnly c _⟩
  · exact ⟨_, exec_lookup_of_no_magic hnone c s, s.raise_answersOnly c _⟩

/-! ### DESC_INFO -/

/-- A variant's index is no defect of a descriptor operand (R56). -/
theorem ofIndex_indexOf (v : Variant) : Defect.ofIndex (indexOf v) = none := by
  cases v <;> rfl

theorem exec_descInfo_indexOf (c : CallerId) (v : Variant) (s : State) :
    exec (.descInfo c (indexOf v)) s = .next (s.succeed c (.descInfo (descriptorInfo v))) := by
  simp only [exec, execDescInfo, withVariant_indexOf]

theorem exec_descInfo_of_ge {d : Nat} (h : 6 ≤ d) (c : CallerId) (s : State) :
    exec (.descInfo c d) s = .fault .illegalCommand := by
  simp only [exec, execDescInfo, withVariant_of_ge h]

/-- Settles O5: the index of a variant is well formed and reports that variant's row; from 6 on no row has the index. -/
theorem descInfoReportsWidths : Obligations.DescInfoReportsWidths := by
  intro c s
  refine ⟨fun v => ⟨?_, ?_⟩, fun d hd => exec_descInfo_of_ge hd c s⟩
  · exact Laws.RoundTrip.descInfo c (indexOf v) (ofIndex_indexOf v)
  · exact ⟨_, exec_descInfo_indexOf c v s, s.succeed_answersOnly c _⟩

end Sys2Proof.Proofs

/-!
The codec (R62 to R79): what each command, accessor and mutator answers on a packet that is bound and on one that is not,
what a write to the buffer leaves of every byte, and the round trip.
-/

namespace Sys2Proof.Proofs

open Sys2Proof Sys2Proof.Machine

/-! ### Reading a state that an operation has left -/

theorem ret_of_answersOnly {s t : State} {c : CallerId} {x : Result Value} (h : s.AnswersOnly t c x) :
    (t.caller c).ret = some x := by
  rw [h.2]

theorem ret_succeed (s : State) (c : CallerId) (x : Value) : ((s.succeed c x).caller c).ret = some (.ok x) :=
  ret_of_answersOnly (s.succeed_answersOnly c x)

theorem ret_of_writesOnly {s t : State} {c : CallerId} {r : PacketReg} {q : Packet} {x : Result Value}
    (h : s.WritesOnly t c r q x) : (t.caller c).ret = some x := by
  obtain ⟨_, _, hret, _⟩ := h
  exact hret

theorem packet_of_writesOnly {s t : State} {c : CallerId} {r : PacketReg} {q : Packet} {x : Result Value}
    (h : s.WritesOnly t c r q x) : t.packet c r = q := by
  obtain ⟨_, _, _, _, _, _, _, hpacket, _⟩ := h
  exact hpacket

/-- An operation that ends with `Ok` has committed its packet: an error would be the result (R109). -/
theorem exists_ok_of_commit_ret {s : State} {c : CallerId} {r : PacketReg} {x : Result Packet} {v : Value}
    (h : ((s.commit c r x).caller c).ret = some (.ok v)) : ∃ q, x = .ok q := by
  cases x with
  | ok q => exact ⟨q, rfl⟩
  | err e =>
    rw [ret_of_answersOnly (State.commit_err s c r e)] at h
    cases h

/-! ### Commands on an unbound packet -/

/-- The commands of caller `c` that require the packet in a register to be bound, with operands that are in order (R63, R65,
R67 to R76). -/
inductive RequiresBound (c : CallerId) : PacketReg → Instr → Prop
  | encode (n : Nat) : RequiresBound c (.p n) (.encode c (.p n))
  | validate (r : PacketReg) : RequiresBound c r (.validate c r)
  | getTarget (r : PacketReg) : RequiresBound c r (.getTarget c r)
  | getAddress (r : PacketReg) : RequiresBound c r (.getAddress c r)
  | getData (r : PacketReg) : RequiresBound c r (.getData c r)
  | isWrite (r : PacketReg) : RequiresBound c r (.isWrite c r)
  | isSuccess (r : PacketReg) : RequiresBound c r (.isSuccess c r)
  | setTarget (n x : Nat) : RequiresBound c (.p n) (.setTarget c (.p n) x)
  | setAddress (n x : Nat) : RequiresBound c (.p n) (.setAddress c (.p n) x)
  | setData (n x : Nat) : RequiresBound c (.p n) (.setData c (.p n) x)
  | setWrite (n : Nat) {b : Nat} (hb : b < 2) : RequiresBound c (.p n) (.setWrite c (.p n) b)
  | setSuccess (n : Nat) {b : Nat} (hb : b < 2) : RequiresBound c (.p n) (.setSuccess c (.p n) b)

/-- Each of them is the fault `UseBeforeConstruct` on an unbound packet (R111). -/
theorem exec_of_unbound {c : CallerId} {r : PacketReg} {i : Instr} {s : State} (h : RequiresBound c r i)
    (hs : boundTo (s.packet c r) = none) : exec i s = .fault .useBeforeConstruct := by
  cases h with
  | encode n => simp only [exec, execEncode, withWritten_p, withBound_none hs]
  | validate => simp only [exec, execValidate, withBound_none hs]
  | getTarget => simp only [exec, execGetTarget, withBound_none hs]
  | getAddress => simp only [exec, execGetAddress, withBound_none hs]
  | getData => simp only [exec, execGetData, withBound_none hs]
  | isWrite => simp only [exec, execIsWrite, withBound_none hs]
  | isSuccess => simp only [exec, execIsSuccess, withBound_none hs]
  | setTarget n x => simp only [exec, execSetTarget, withWritten_p, withBound_none hs]
  | setAddress n x => simp only [exec, execSetAddress, withWritten_p, withBound_none hs]
  | setData n x => simp only [exec, execSetData, withWritten_p, withBound_none hs]
  | setWrite n hb => exact (withBoolean_of_lt hb _).trans (withBound_none hs _)
  | setSuccess n hb => exact (withBoolean_of_lt hb _).trans (withBound_none hs _)

/-! ### The accessors -/

section Accessors

variable {c : CallerId} {r : PacketReg} {v : Variant} {s : State}

theorem exec_getTarget_of_bound (h : boundTo (s.packet c r) = some v) :
    exec (.getTarget c r) s = .next (s.succeed c (.number (targetOf (s.packet c r)))) := by
  simp only [exec, execGetTarget, withBound_some h]

theorem exec_getAddress_of_bound (h : boundTo (s.packet c r) = some v) :
    exec (.getAddress c r) s = .next (s.succeed c (.number (addressOf v (s.packet c r)))) := by
  simp only [exec, execGetAddress, withBound_some h]

theorem exec_getData_of_bound (h : boundTo (s.packet c r) = some v) :
    exec (.getData c r) s = .next (s.succeed c (.number (dataOf v (s.packet c r)))) := by
  simp only [exec, execGetData, withBound_some h]

theorem exec_isWrite_of_bound (h : boundTo (s.packet c r) = some v) :
    exec (.isWrite c r) s = .next (s.succeed c (.bool (writeFlag (flagsOf (s.packet c r))))) := by
  simp only [exec, execIsWrite, withBound_some h]

theorem exec_isSuccess_of_bound (h : boundTo (s.packet c r) = some v) :
    exec (.isSuccess c r) s = .next (s.succeed c (.bool (successFlag (flagsOf (s.packet c r))))) := by
  simp only [exec, execIsSuccess, withBound_some h]

end Accessors

/-- `LE(buf, off, n)` as a sum: byte `k` of the field has weight `256^k` (R13). -/
theorem leValue_eq_sum (buf : Buffer) (off n : Nat) :
    leValue buf off n = ∑ k ∈ Finset.range n, (byteAt buf (off + k)).toNat * 256 ^ k := by
  induction n generalizing off with
  | zero => rfl
  | succ n ih =>
    have hshift : ∀ k, (byteAt buf (off + (k + 1))).toNat * 256 ^ (k + 1) =
        256 * ((byteAt buf (off + 1 + k)).toNat * 256 ^ k) := fun k => by
      rw [show off + (k + 1) = off + 1 + k by omega]
      ring
    rw [Finset.sum_range_succ', Finset.sum_congr rfl fun k _ => hshift k, ← Finset.mul_sum, ← ih]
    simp only [leValue, Nat.add_zero, pow_zero, Nat.mul_one]
    omega

/-- Settles O11: each accessor returns its field, an address or data field being the sum of its weighted bytes, and writes
the result alone. -/
theorem accessorsReadFields : Obligations.AccessorsReadFields := by
  intro c r s
  refine ⟨⟨Laws.RoundTrip.getTarget c r rfl, Laws.RoundTrip.getAddress c r rfl, Laws.RoundTrip.getData c r rfl,
    Laws.RoundTrip.isWrite c r rfl, Laws.RoundTrip.isSuccess c r rfl⟩, fun v hv => ⟨?_, ?_, ?_, ?_, ?_⟩, fun hs => ?_⟩
  · exact ⟨_, exec_getTarget_of_bound hv, s.succeed_answersOnly c _⟩
  · refine ⟨_, exec_getAddress_of_bound hv, ?_⟩
    rw [addressOf, leValue_eq_sum]
    exact s.succeed_answersOnly c _
  · refine ⟨_, exec_getData_of_bound hv, ?_⟩
    rw [dataOf, leValue_eq_sum]
    exact s.succeed_answersOnly c _
  · refine ⟨_, exec_isWrite_of_bound hv, ?_⟩
    rw [writeFlag_eq]
    exact s.succeed_answersOnly c _
  · refine ⟨_, exec_isSuccess_of_bound hv, ?_⟩
    rw [successFlag_eq]
    exact s.succeed_answersOnly c _
  · exact ⟨exec_of_unbound (.getTarget r) hs, exec_of_unbound (.getAddress r) hs, exec_of_unbound (.getData r) hs,
      exec_of_unbound (.isWrite r) hs, exec_of_unbound (.isSuccess r) hs⟩

/-! ### CONSTRUCT -/

theorem exec_construct_indexOf (c : CallerId) (n : Nat) (v : Variant) (t f a d : Nat) (s : State) :
    exec (.construct c (.p n) (indexOf v) t f a d) s = .next (s.commit c (.p n) (constructPacket v t f a d)) :=
  withVariant_indexOf v _

theorem exec_construct_of_err {c : CallerId} {n : Nat} {v : Variant} {t f a d : Nat} {e : Error} (s : State)
    (h : constructPacket v t f a d = .err e) :
    exec (.construct c (.p n) (indexOf v) t f a d) s = .next (s.raise c e) := by
  rw [exec_construct_indexOf, h, State.commit]

theorem exec_construct_of_ok {c : CallerId} {n : Nat} {v : Variant} {t f a d : Nat} {q : Packet} (s : State)
    (h : constructPacket v t f a d = .ok q) :
    exec (.construct c (.p n) (indexOf v) t f a d) s = .next (s.commit c (.p n) (.ok q)) := by
  rw [exec_construct_indexOf, h]

theorem constructPacket_of_error {v : Variant} {t f a d : Nat} {e : Error} (h : constructError v t f a d = some e) :
    constructPacket v t f a d = .err e := by
  simp only [constructPacket, h]

theorem constructPacket_of_fits {v : Variant} {t f a d : Nat} (ha : a < 2 ^ addressWidth v) (hd : d < 2 ^ dataWidth v)
    (ht : t < 256) (hf : f < 4) : constructPacket v t f a d = .ok (constructed v t f a d) := by
  have he : constructError v t f a d = none := by
    rw [constructError_eq, if_neg (by omega), if_neg (by omega), if_neg (by omega), if_neg (by omega), if_neg (by omega)]
  simp only [constructPacket, he]

/-- `CONSTRUCT` answers with a packet only where every operand fits its field (R62). -/
theorem constructPacket_eq_ok {v : Variant} {t f a d : Nat} {q : Packet} (h : constructPacket v t f a d = .ok q) :
    (a < 2 ^ addressWidth v ∧ d < 2 ^ dataWidth v ∧ t < 256 ∧ f < 4) ∧ q = constructed v t f a d := by
  unfold constructPacket at h
  split at h
  · cases h
  · next he =>
    rw [constructError_eq] at he
    split_ifs at he
    exact ⟨⟨by omega, by omega, by omega, by omega⟩, (Result.ok.inj h).symm⟩

/-- A number that fits a byte is the byte's value. -/
theorem toNat_ofNat_byte {x : Nat} (h : x < 256) : (BitVec.ofNat 8 x).toNat = x :=
  (BitVec.toNat_ofNat x 8).trans (Nat.mod_eq_of_lt h)

/-- The bytes of a constructed packet as numbers (R47, R62). -/
theorem toNat_byteAt_constructed {v : Variant} {t f : Nat} (ht : t < 256) (hf : f < 4) (a d : Nat) {i : Nat} (hi : i < 16) :
    (byteAt (constructed v t f a d).buf i).toNat =
      if i = 0 then (magicOf v).toNat
      else if i = 1 then f
      else if i = 2 then t
      else if i < 3 + addressBytes v then a / 256 ^ (i - 3) % 256
      else if i < 3 + addressBytes v + dataBytes v then d / 256 ^ (i - (3 + addressBytes v)) % 256
      else 0 := by
  have hf8 : (BitVec.ofNat 8 f).toNat = f := toNat_ofNat_byte (by omega)
  have ht8 : (BitVec.ofNat 8 t).toNat = t := toNat_ofNat_byte ht
  rw [constructed_buf, byteAt_wireLayout _ _ _ _ _ _ _ hi]
  have hz : ∀ k, (leByte 0 k).toNat = 0 := fun k => by rw [leByte_zero]; rfl
  rw [paddingStart_eq, dataStart_eq]
  split_ifs <;> simp only [toNat_leByte, hz, hf8, ht8]

/-- Settles O6: where every operand fits, CONSTRUCT commits the packet whose 16 bytes it has written; where one does not, it
delivers the first check's error and commits nothing. -/
theorem constructBuildsPacketOrReports : Obligations.ConstructBuildsPacketOrReports := by
  intro c n v t f a d s
  refine ⟨Laws.RoundTrip.construct c (.p n) (indexOf v) t f a d (ofIndex_indexOf v), fun ha hd ht hf => ?_,
    fun e he => ?_⟩
  · exact ⟨_, constructed v t f a d, exec_construct_of_ok s (constructPacket_of_fits ha hd ht hf), s.commit_ok c _ _,
      rfl, rfl, fun i hi => toNat_byteAt_constructed ht hf a d hi⟩
  · exact ⟨_, exec_construct_of_err s (constructPacket_of_error ((constructError_eq v t f a d).trans he)),
      s.raise_answersOnly c e⟩

/-! ### ENCODE -/

theorem exec_encode_of_bound {c : CallerId} {n : Nat} {v : Variant} {s : State} (h : boundTo (s.packet c (.p n)) = some v) :
    exec (.encode c (.p n)) s =
      .next ((s.setPacket c (.p n) (encodedPacket v (s.packet c (.p n)))).succeed c
        (.bytes (encodedPacket v (s.packet c (.p n))).buf)) := by
  simp only [exec, execEncode, withWritten_p, withBound_some h]

@[simp] theorem encodedPacket_desc (v : Variant) (q : Packet) : (encodedPacket v q).desc = q.desc := by
  rw [encodedPacket]

@[simp] theorem encodedPacket_status (v : Variant) (q : Packet) : (encodedPacket v q).status = q.status := by
  rw [encodedPacket]

theorem byteAt_encodedPacket (v : Variant) (q : Packet) (i : Nat) :
    byteAt (encodedPacket v q).buf i = if paddingStart v ≤ i then 0 else byteAt q.buf i :=
  byteAt_zeroFrom q.buf (paddingStart v) i

/-- Settles O7: ENCODE commits the packet with its padding zeroed and returns that packet's buffer. -/
theorem encodeZeroesPaddingAndReturnsBytes : Obligations.EncodeZeroesPaddingAndReturnsBytes := by
  intro c n s
  refine ⟨Laws.RoundTrip.encode c (.p n) rfl, fun v hv => ?_, exec_of_unbound (.encode n)⟩
  exact ⟨_, _, exec_encode_of_bound hv, s.setPacket_succeed_writesOnly c _ _ _, encodedPacket_desc _ _,
    encodedPacket_status _ _, fun i _ => byteAt_encodedPacket v _ i⟩

/-- Byte 0 of a packet that is as its status says is its descriptor's magic (R21, R65). -/
theorem byteAt_zero_of_packetWf {q : Packet} {v : Variant} (hq : packetWf q = true) (hb : boundTo q = some v) :
    byteAt q.buf 0 = magicOf v := by
  obtain ⟨buf, desc, status⟩ := q
  obtain ⟨hdesc, hstatus⟩ := boundTo_eq_some hb
  obtain rfl : desc = some v := hdesc
  rcases hstatus with h | h <;> obtain rfl : status = _ := h <;> exact eq_of_beq hq

/-- Settles O17: a `Constructed` packet is bound and its byte 0, which no padding reaches, is its descriptor's magic. -/
theorem encodedBytesBeginWithMagic : Obligations.EncodedBytesBeginWithMagic := by
  intro c n v s hwf hstatus hdesc
  have hb : boundTo (s.packet c (.p n)) = some v := by simp only [boundTo, hstatus, hdesc]
  refine ⟨_, _, exec_encode_of_bound hb, ret_of_writesOnly (s.setPacket_succeed_writesOnly c _ _ _), toList_length _, ?_⟩
  have hdata := dataStart_le v
  rw [byteAt_encodedPacket, if_neg (by omega)]
  exact byteAt_zero_of_packetWf (hwf c (.p n)) hb

/-! ### DECODE -/

theorem exec_decode_indexOf (c : CallerId) (n : Nat) (v : Variant) (bytes : List Byte) (s : State) :
    exec (.decode c (.p n) (indexOf v) bytes) s = .next (s.commit c (.p n) (decodePacket v bytes)) :=
  withVariant_indexOf v _

theorem exec_decode_of_err {c : CallerId} {n : Nat} {v : Variant} {bytes : List Byte} {e : Error} (s : State)
    (h : decodePacket v bytes = .err e) : exec (.decode c (.p n) (indexOf v) bytes) s = .next (s.raise c e) := by
  rw [exec_decode_indexOf, h, State.commit]

theorem exec_decode_of_ok {c : CallerId} {n : Nat} {v : Variant} {bytes : List Byte} {q : Packet} (s : State)
    (h : decodePacket v bytes = .ok q) :
    exec (.decode c (.p n) (indexOf v) bytes) s = .next (s.commit c (.p n) (.ok q)) := by
  rw [exec_decode_indexOf, h]

theorem decodePacket_of_length (v : Variant) {bytes : List Byte} (h : bytes.length ≠ 16) :
    decodePacket v bytes = .err (.lengthMismatch 16 bytes.length) :=
  if_pos h

theorem decodePacket_of_unassigned (v : Variant) {bytes : List Byte} (h : bytes.length = 16)
    (hm : ∀ w, bytes.getD 0 0 ≠ magicOf w) : decodePacket v bytes = .err (.unknownVariant (bytes.getD 0 0).toNat) := by
  have hnone : variantOfMagic (bytes.getD 0 0).toNat = none :=
    variantOfMagic_eq_none.2 fun w hw => hm w (BitVec.eq_of_toNat_eq hw.symm)
  unfold decodePacket
  rw [if_neg (not_not.2 h), byteAt_bufferOf_zero, hnone]
  rfl

/-- Settles O8: DECODE commits what `decodePacket` answers, whose cases are a wrong length, no variant's magic, another
variant's magic, and the descriptor's own. -/
theorem decodeReadsPacketOrReports : Obligations.DecodeReadsPacketOrReports := by
  intro c n v bytes s
  refine ⟨Laws.RoundTrip.decode c (.p n) (indexOf v) bytes (ofIndex_indexOf v), fun hl => ?_, fun hl hm => ?_,
    fun hl w hm hw => ?_, fun hl hm => ?_⟩
  · exact ⟨_, exec_decode_of_err s (decodePacket_of_length v hl), s.raise_answersOnly c _⟩
  · exact ⟨_, exec_decode_of_err s (decodePacket_of_unassigned v hl hm), s.raise_answersOnly c _⟩
  · exact ⟨_, exec_decode_of_err s (decodePacket_of_other hl hm hw), s.raise_answersOnly c _⟩
  · exact ⟨_, ⟨bufferOf bytes, some v, .decoded⟩, exec_decode_of_ok s (decodePacket_of_magic hl hm), s.commit_ok c _ _,
      rfl, rfl, toList_bufferOf hl⟩

/-! ### VALIDATE -/

theorem exec_validate_of_violation {c : CallerId} {r : PacketReg} {v : Variant} {s : State} {x : Violation}
    (h : boundTo (s.packet c r) = some v) (hx : violationOf v (s.packet c r) = some x) :
    exec (.validate c r) s = .next (s.raise c (.validationError x)) := by
  simp only [exec, execValidate, withBound_some h, hx]

theorem exec_validate_of_valid {c : CallerId} {r : PacketReg} {v : Variant} {s : State}
    (h : boundTo (s.packet c r) = some v) (hx : violationOf v (s.packet c r) = none) :
    exec (.validate c r) s = .next (s.succeed c .unit) := by
  simp only [exec, execValidate, withBound_some h, hx]

section Violations

variable {v : Variant} {q : Packet}

theorem violationOf_badMagic (h : byteAt q.buf 0 ≠ magicOf v) : violationOf v q = some .badMagic := by
  rw [violationOf_eq, if_pos h]

theorem violationOf_reservedFlagBits (h : byteAt q.buf 0 = magicOf v) (hf : 4 ≤ (byteAt q.buf 1).toNat) :
    violationOf v q = some .reservedFlagBits := by
  rw [violationOf_eq, if_neg (not_not.2 h), if_pos hf]

/-- With the magic and the flags in order, what is left to violate is the padding. -/
theorem violationOf_padding (h : byteAt q.buf 0 = magicOf v) (hf : (byteAt q.buf 1).toNat < 4) :
    violationOf v q = (firstNonzeroFrom q.buf (paddingStart v)).map .reservedPadding := by
  rw [violationOf_eq, if_neg (not_not.2 h), if_neg (Nat.not_le.2 hf)]

theorem violationOf_eq_none (h : byteAt q.buf 0 = magicOf v) (hf : (byteAt q.buf 1).toNat < 4)
    (hp : ∀ i, paddingStart v ≤ i → i < 16 → byteAt q.buf i = 0) : violationOf v q = none := by
  rw [violationOf_padding h hf, firstNonzeroFrom_eq_none.2 hp, Option.map_none]

end Violations

/-- Settles O9: each clause is one value of `violationOf`, which looks at the magic, the reserved flag bits and the padding in
that order and finds nothing else. -/
theorem validateReportsFirstViolation : Obligations.ValidateReportsFirstViolation := by
  intro c r s
  refine ⟨Laws.RoundTrip.validate c r rfl, exec_of_unbound (.validate r), fun v hv => ⟨fun hm => ?_, fun hm hf => ?_,
    fun hm hf i hle hlt hne hzero => ?_, fun hm hf hp => ?_⟩⟩
  · exact ⟨_, exec_validate_of_violation hv (violationOf_badMagic hm), s.raise_answersOnly c _⟩
  · exact ⟨_, exec_validate_of_violation hv (violationOf_reservedFlagBits hm hf), s.raise_answersOnly c _⟩
  · have hx : violationOf v (s.packet c r) = some (.reservedPadding i) := by
      rw [violationOf_padding hm hf, firstNonzeroFrom_eq_some (off := paddingStart v) hle hlt hne hzero, Option.map_some]
    exact ⟨_, exec_validate_of_violation hv hx, s.raise_answersOnly c _⟩
  · exact ⟨_, exec_validate_of_valid hv (violationOf_eq_none hm hf hp), s.succeed_answersOnly c _⟩

/-! ### REUSE -/

theorem exec_reuse_p (c : CallerId) (n : Nat) (s : State) :
    exec (.reuse c (.p n)) s =
      .next ((s.setPacket c (.p n) (reusedPacket (s.packet c (.p n)))).succeed c (.packet (.p n))) := rfl

theorem boundTo_reusedPacket (q : Packet) : boundTo (reusedPacket q) = none := rfl

/-- Settles O10: the packet that REUSE leaves is unbound, so that every command that requires a bound one faults. -/
theorem reuseKeepsBytesAndUnbinds : Obligations.ReuseKeepsBytesAndUnbinds := by
  intro c n s
  have hw := s.setPacket_succeed_writesOnly c (.p n) (reusedPacket (s.packet c (.p n))) (.packet (.p n))
  refine ⟨Laws.RoundTrip.reuse c (.p n) rfl, _, _, exec_reuse_p c n s, hw, rfl, rfl, rfl, ?_⟩
  have hb := (congrArg boundTo (packet_of_writesOnly hw)).trans (boundTo_reusedPacket _)
  exact ⟨exec_of_unbound (.encode n) hb, exec_of_unbound (.validate _) hb, exec_of_unbound (.getTarget _) hb,
    exec_of_unbound (.getAddress _) hb, exec_of_unbound (.getData _) hb, exec_of_unbound (.isWrite _) hb,
    exec_of_unbound (.isSuccess _) hb, fun x => ⟨exec_of_unbound (.setTarget n x) hb,
      exec_of_unbound (.setAddress n x) hb, exec_of_unbound (.setData n x) hb,
      fun hx => ⟨exec_of_unbound (.setWrite n hx) hb, exec_of_unbound (.setSuccess n hx) hb⟩⟩⟩

/-! ### The mutators -/

section Setters

variable {v : Variant} {q : Packet} {x : Nat}

theorem targetSet_of_ge (h : 256 ≤ x) : targetSet q x = .err (.fieldOverflow .targetId x 8) := if_pos h

theorem targetSet_of_lt (h : x < 256) : targetSet q x = .ok { q with buf := putByte q.buf 2 (BitVec.ofNat 8 x) } :=
  if_neg (Nat.not_le.2 h)

theorem addressSet_of_ge (h : 2 ^ addressWidth v ≤ x) :
    addressSet v q x = .err (.fieldOverflow .address x (addressWidth v)) := if_pos h

theorem addressSet_of_lt (h : x < 2 ^ addressWidth v) :
    addressSet v q x = .ok { q with buf := memWrite q.buf 3 (addressBytes v) x } := if_neg (Nat.not_le.2 h)

theorem dataSet_of_ge (h : 2 ^ dataWidth v ≤ x) : dataSet v q x = .err (.fieldOverflow .data x (dataWidth v)) := if_pos h

theorem dataSet_of_lt (h : x < 2 ^ dataWidth v) :
    dataSet v q x = .ok { q with buf := memWrite q.buf (dataStart v) (dataBytes v) x } := if_neg (Nat.not_le.2 h)

end Setters

section Mutators

variable {c : CallerId} {n : Nat} {v : Variant} {s : State}

theorem exec_setTarget_overflow (h : boundTo (s.packet c (.p n)) = some v) {x : Nat} (hx : 256 ≤ x) :
    exec (.setTarget c (.p n) x) s = .next (s.raise c (.fieldOverflow .targetId x 8)) := by
  simp only [exec, execSetTarget, withWritten_p, withBound_some h, targetSet_of_ge hx, State.commit]

theorem exec_setTarget_of_lt (h : boundTo (s.packet c (.p n)) = some v) {x : Nat} (hx : x < 256) :
    exec (.setTarget c (.p n) x) s =
      .next (s.commit c (.p n)
        (.ok { s.packet c (.p n) with buf := putByte (s.packet c (.p n)).buf 2 (BitVec.ofNat 8 x) })) := by
  simp only [exec, execSetTarget, withWritten_p, withBound_some h, targetSet_of_lt hx]

theorem exec_setAddress_overflow (h : boundTo (s.packet c (.p n)) = some v) {x : Nat} (hx : 2 ^ addressWidth v ≤ x) :
    exec (.setAddress c (.p n) x) s = .next (s.raise c (.fieldOverflow .address x (addressWidth v))) := by
  simp only [exec, execSetAddress, withWritten_p, withBound_some h, addressSet_of_ge hx, State.commit]

theorem exec_setAddress_of_lt (h : boundTo (s.packet c (.p n)) = some v) {x : Nat} (hx : x < 2 ^ addressWidth v) :
    exec (.setAddress c (.p n) x) s =
      .next (s.commit c (.p n)
        (.ok { s.packet c (.p n) with buf := memWrite (s.packet c (.p n)).buf 3 (addressBytes v) x })) := by
  simp only [exec, execSetAddress, withWritten_p, withBound_some h, addressSet_of_lt hx]

theorem exec_setData_overflow (h : boundTo (s.packet c (.p n)) = some v) {x : Nat} (hx : 2 ^ dataWidth v ≤ x) :
    exec (.setData c (.p n) x) s = .next (s.raise c (.fieldOverflow .data x (dataWidth v))) := by
  simp only [exec, execSetData, withWritten_p, withBound_some h, dataSet_of_ge hx, State.commit]

theorem exec_setData_of_lt (h : boundTo (s.packet c (.p n)) = some v) {x : Nat} (hx : x < 2 ^ dataWidth v) :
    exec (.setData c (.p n) x) s =
      .next (s.commit c (.p n)
        (.ok { s.packet c (.p n) with buf := memWrite (s.packet c (.p n)).buf (dataStart v) (dataBytes v) x })) := by
  simp only [exec, execSetData, withWritten_p, withBound_some h, dataSet_of_lt hx]

theorem exec_setWrite_of_bound (h : boundTo (s.packet c (.p n)) = some v) {b : Nat} (hb : b < 2) :
    exec (.setWrite c (.p n) b) s = .next (s.commit c (.p n)
      (.ok (flagsSet (s.packet c (.p n)) (withWriteFlag (flagsOf (s.packet c (.p n))) (decide (b = 1)))))) :=
  (withBoolean_of_lt hb _).trans (withBound_some h _)

theorem exec_setSuccess_of_bound (h : boundTo (s.packet c (.p n)) = some v) {b : Nat} (hb : b < 2) :
    exec (.setSuccess c (.p n) b) s = .next (s.commit c (.p n)
      (.ok (flagsSet (s.packet c (.p n)) (withSuccessFlag (flagsOf (s.packet c (.p n))) (decide (b = 1)))))) :=
  (withBoolean_of_lt hb _).trans (withBound_some h _)

/-- An operand that is no Boolean stops the two flag mutators, bound packet or not (R75; log 21). -/
theorem exec_setWrite_of_not_boolean {b : Nat} (hb : 2 ≤ b) : exec (.setWrite c (.p n) b) s = .fault .illegalCommand :=
  withBoolean_of_ge hb _

theorem exec_setSuccess_of_not_boolean {b : Nat} (hb : 2 ≤ b) : exec (.setSuccess c (.p n) b) s = .fault .illegalCommand :=
  withBoolean_of_ge hb _

end Mutators

/-- Every byte after a write of the little-endian bytes of a number, as a number (R13, R14). -/
theorem toNat_byteAt_memWrite (buf : Buffer) (off n x : Nat) {i : Nat} (hi : i < 16) :
    (byteAt (memWrite buf off n x) i).toNat =
      if off ≤ i ∧ i < off + n then x / 256 ^ (i - off) % 256 else (byteAt buf i).toNat := by
  simp only [byteAt_memWrite, hi, and_true, apply_ite BitVec.toNat, toNat_leByte]

/-- Settles O12: a value below 256 is byte 2 itself, and a larger one commits nothing. -/
theorem setTargetWritesByteTwo : Obligations.SetTargetWritesByteTwo := by
  intro c n x s
  refine ⟨Laws.RoundTrip.setTarget c (.p n) x rfl, exec_of_unbound (.setTarget n x),
    fun v hv => ⟨fun hx => ?_, fun hx => ?_⟩⟩
  · exact ⟨_, exec_setTarget_overflow hv hx, s.raise_answersOnly c _⟩
  · refine ⟨_, _, exec_setTarget_of_lt hv hx, s.commit_ok c _ _, ?_⟩
    refine ⟨rfl, rfl, fun i hi => ?_⟩
    have hx8 : (BitVec.ofNat 8 x).toNat = x := toNat_ofNat_byte hx
    simp only [byteAt_putByte, hi, and_true, apply_ite BitVec.toNat, hx8, State.byte]

/-- Settles O13: SET_ADDRESS is a write of `ab(v)` little-endian bytes at offset 3. -/
theorem setAddressWritesAddressBytes : Obligations.SetAddressWritesAddressBytes := by
  intro c n x s
  refine ⟨Laws.RoundTrip.setAddress c (.p n) x rfl, exec_of_unbound (.setAddress n x),
    fun v hv => ⟨fun hx => ?_, fun hx => ?_⟩⟩
  · exact ⟨_, exec_setAddress_overflow hv hx, s.raise_answersOnly c _⟩
  · refine ⟨_, _, exec_setAddress_of_lt hv hx, s.commit_ok c _ _, ?_⟩
    exact ⟨rfl, rfl, fun i hi => toNat_byteAt_memWrite (s.packet c (.p n)).buf 3 _ x hi⟩

/-- Settles O14: SET_DATA is a write of `db(v)` little-endian bytes behind the address. -/
theorem setDataWritesDataBytes : Obligations.SetDataWritesDataBytes := by
  intro c n x s
  refine ⟨Laws.RoundTrip.setData c (.p n) x rfl, exec_of_unbound (.setData n x),
    fun v hv => ⟨fun hx => ?_, fun hx => ?_⟩⟩
  · exact ⟨_, exec_setData_overflow hv hx, s.raise_answersOnly c _⟩
  · refine ⟨_, _, exec_setData_of_lt hv hx, s.commit_ok c _ _, ?_⟩
    exact ⟨rfl, rfl, fun i hi => toNat_byteAt_memWrite (s.packet c (.p n)).buf (dataStart v) _ x hi⟩

@[simp] theorem flagsSet_desc (q : Packet) (f : Byte) : (flagsSet q f).desc = q.desc := by
  rw [flagsSet]

@[simp] theorem flagsSet_status (q : Packet) (f : Byte) : (flagsSet q f).status = q.status := by
  rw [flagsSet]

theorem byteAt_flagsSet_one (q : Packet) (f : Byte) : byteAt (flagsSet q f).buf 1 = f := by
  rw [flagsSet, byteAt_putByte, if_pos (by omega)]

theorem byteAt_flagsSet_of_ne (q : Packet) (f : Byte) {i : Nat} (h : i ≠ 1) :
    byteAt (flagsSet q f).buf i = byteAt q.buf i := by
  rw [flagsSet, byteAt_putByte, if_neg (by omega)]

/-- Settles O15: both mutators commit the packet with a new flags byte, which differs from the old one in one bit; an operand
that is no Boolean is looked at before the packet. -/
theorem flagMutatorsWriteOneBit : Obligations.FlagMutatorsWriteOneBit := by
  intro c n s
  refine ⟨fun b hb => ⟨fun _ => ⟨exec_setWrite_of_not_boolean hb, exec_setSuccess_of_not_boolean hb⟩,
    fun _ => ⟨⟨_, exec_setWrite_of_not_boolean hb, .inl rfl⟩, _, exec_setSuccess_of_not_boolean hb, .inl rfl⟩⟩,
    fun b hb => ⟨Laws.RoundTrip.setWrite c (.p n) b (if_pos hb), Laws.RoundTrip.setSuccess c (.p n) b (if_pos hb),
      fun hs => ⟨exec_of_unbound (.setWrite n hb) hs, exec_of_unbound (.setSuccess n hb) hs⟩, fun hs => ?_⟩⟩
  obtain ⟨v, hv⟩ := Option.ne_none_iff_exists'.1 hs
  constructor
  · refine ⟨_, _, exec_setWrite_of_bound hv hb, s.commit_ok c _ _, ?_⟩
    refine ⟨flagsSet_desc _ _, flagsSet_status _ _, fun i _ hi => byteAt_flagsSet_of_ne (s.packet c (.p n)) _ hi,
      fun k hk => ?_⟩
    rw [byteAt_flagsSet_one]
    exact withWriteFlag_bit _ _ ⟨k, hk⟩
  · refine ⟨_, _, exec_setSuccess_of_bound hv hb, s.commit_ok c _ _, ?_⟩
    refine ⟨flagsSet_desc _ _, flagsSet_status _ _, fun i _ hi => byteAt_flagsSet_of_ne (s.packet c (.p n)) _ hi,
      fun k hk => ?_⟩
    rw [byteAt_flagsSet_one]
    exact withSuccessFlag_bit _ _ ⟨k, hk⟩

/-! ### The round trip -/

theorem byteAt_requestBytes_zero (v : Variant) (t f a d : Nat) : byteAt (requestBytes v t f a d) 0 = magicOf v :=
  byteAt_wireLayout v _ _ a d 0 0 (by omega)

theorem byteAt_requestBytes_padding (v : Variant) (t f a d : Nat) {i : Nat} (hp : paddingStart v ≤ i) (hi : i < 16) :
    byteAt (requestBytes v t f a d) i = 0 := by
  have hdata := dataStart_le v
  rw [requestBytes, byteAt_wireLayout _ _ _ _ _ _ _ hi, if_neg (by omega), if_neg (by omega), if_neg (by omega),
    if_neg (by omega), if_neg (by omega), leByte_zero]

theorem encodedPacket_constructed_buf (v : Variant) (t f a d : Nat) :
    (encodedPacket v (constructed v t f a d)).buf = requestBytes v t f a d := by
  apply buffer_ext
  intro i hi
  rw [byteAt_encodedPacket, constructed_buf]
  by_cases hp : paddingStart v ≤ i
  · rw [if_pos hp, byteAt_requestBytes_padding v t f a d hp hi]
  · rw [if_neg hp, requestBytes]

/-- A `CONSTRUCT` that ends with `Ok` had operands that fit, and has left the packet with their layout (R62). -/
theorem packet_of_construct_ok {c : CallerId} {n : Nat} {v : Variant} {t f a d : Nat} {s s1 : State} {x : Value}
    (h : exec (.construct c (.p n) (indexOf v) t f a d) s = .next s1) (hret : (s1.caller c).ret = some (.ok x)) :
    (a < 2 ^ addressWidth v ∧ d < 2 ^ dataWidth v ∧ t < 256 ∧ f < 4) ∧ s1.packet c (.p n) = constructed v t f a d := by
  rw [exec_construct_indexOf] at h
  obtain rfl := Host.Outcome.next.inj h
  obtain ⟨q, hq⟩ := exists_ok_of_commit_ret hret
  obtain ⟨hfits, rfl⟩ := constructPacket_eq_ok hq
  rw [hq]
  exact ⟨hfits, packet_of_writesOnly (s.commit_ok c _ _)⟩

/-- `ENCODE` of a constructed packet returns the layout of its fields (R63). -/
theorem bytes_of_encode_constructed {c : CallerId} {n : Nat} {v : Variant} {t f a d : Nat} {s s2 : State} {bytes : Buffer}
    (hq : s.packet c (.p n) = constructed v t f a d) (h : exec (.encode c (.p n)) s = .next s2)
    (hret : (s2.caller c).ret = some (.ok (.bytes bytes))) : bytes = requestBytes v t f a d := by
  have hb : boundTo (s.packet c (.p n)) = some v := congrArg boundTo hq
  rw [exec_encode_of_bound hb, hq, encodedPacket_constructed_buf] at h
  obtain rfl := Host.Outcome.next.inj h
  rw [ret_of_writesOnly (s.setPacket_succeed_writesOnly c _ _ _)] at hret
  exact (Value.bytes.inj (Result.ok.inj (Option.some.inj hret))).symm

/-- `DECODE` of such a layout, in any register, binds a packet with those bytes (R64). -/
theorem decode_requestBytes (c : CallerId) (m : Nat) (v : Variant) (t f a d : Nat) (s : State) :
    ∃ s3, exec (.decode c (.p m) (indexOf v) (requestBytes v t f a d).toList) s = .next s3 ∧
      s.WritesOnly s3 c (.p m) ⟨requestBytes v t f a d, some v, .decoded⟩ (.ok (.packet (.p m))) := by
  have hm : (requestBytes v t f a d).toList.getD 0 0 = magicOf v := by
    rw [← byteAt_bufferOf_zero, bufferOf_toList, byteAt_requestBytes_zero]
  have hok := decodePacket_of_magic (toList_length _) hm
  rw [bufferOf_toList] at hok
  exact ⟨_, exec_decode_of_ok s hok, s.commit_ok c _ _⟩

section Fields

variable {q : Packet} {v : Variant} {t f a d : Nat}

theorem targetOf_of_layout (hq : q.buf = requestBytes v t f a d) (ht : t < 256) : targetOf q = t := by
  rw [targetOf, hq, requestBytes, byteAt_wireLayout _ _ _ _ _ _ _ (by omega)]
  exact toNat_ofNat_byte ht

theorem addressOf_of_layout (hq : q.buf = requestBytes v t f a d) (ha : a < 2 ^ addressWidth v) : addressOf v q = a := by
  rw [addressOf, hq]
  exact leValue_wireLayout_address v _ _ a d 0 ha

theorem dataOf_of_layout (hq : q.buf = requestBytes v t f a d) (hd : d < 2 ^ dataWidth v) : dataOf v q = d := by
  rw [dataOf, hq]
  exact leValue_wireLayout_data v _ _ a d 0 hd

theorem toNat_flagsOf_of_layout (hq : q.buf = requestBytes v t f a d) (hf : f < 4) : (flagsOf q).toNat = f := by
  rw [flagsOf, hq, requestBytes, byteAt_wireLayout _ _ _ _ _ _ _ (by omega)]
  exact toNat_ofNat_byte (by omega)

theorem violationOf_of_layout (hq : q.buf = requestBytes v t f a d) (hf : f < 4) : violationOf v q = none := by
  refine violationOf_eq_none ?_ ?_ fun i hp hi => ?_
  · rw [hq, byteAt_requestBytes_zero]
  · exact lt_of_eq_of_lt (toNat_flagsOf_of_layout hq hf) hf
  · rw [hq, byteAt_requestBytes_padding v t f a d hp hi]

end Fields

/-- Settles O16: what is encoded is the layout of the operands, so what is decoded is bound with that layout, whose fields read
back as the operands and in which nothing is to be reported. -/
theorem constructEncodeDecodeRoundTrips : Obligations.ConstructEncodeDecodeRoundTrips := by
  intro c n m v t f a d bytes s s1 s2 hconstruct hok hencode hbytes
  obtain ⟨⟨ha, hd, ht, hf⟩, hs1⟩ := packet_of_construct_ok hconstruct hok
  obtain rfl := bytes_of_encode_constructed hs1 hencode hbytes
  obtain ⟨s3, hdecode, hw⟩ := decode_requestBytes c m v t f a d s2
  have hq : s3.packet c (.p m) = ⟨requestBytes v t f a d, some v, .decoded⟩ := packet_of_writesOnly hw
  have hb : boundTo (s3.packet c (.p m)) = some v := congrArg boundTo hq
  have hbuf : (s3.packet c (.p m)).buf = requestBytes v t f a d := congrArg Packet.buf hq
  refine ⟨s3, hdecode, ret_of_writesOnly hw, ⟨_, exec_getTarget_of_bound hb, ?_⟩, ⟨_, exec_getAddress_of_bound hb, ?_⟩,
    ⟨_, exec_getData_of_bound hb, ?_⟩, ⟨_, exec_isWrite_of_bound hb, ?_⟩, ⟨_, exec_isSuccess_of_bound hb, ?_⟩,
    ⟨_, exec_validate_of_valid hb (violationOf_of_layout hbuf hf), ret_succeed s3 c .unit⟩⟩
  · rw [ret_succeed, targetOf_of_layout hbuf ht]
  · rw [ret_succeed, addressOf_of_layout hbuf ha]
  · rw [ret_succeed, dataOf_of_layout hbuf hd]
  · rw [ret_succeed, writeFlag_eq, toNat_flagsOf_of_layout hbuf hf]
  · rw [ret_succeed, successFlag_eq, toNat_flagsOf_of_layout hbuf hf]

end Sys2Proof.Proofs

/-!
The endpoint session (R86, R89): what one claim of the endpoint does, ACQUIRE_ONCE by the session's state, and UNLOCK.
-/

namespace Sys2Proof.Proofs

open Sys2Proof Sys2Proof.Machine

/-! ### The other callers -/

theorem caller_succeed_of_ne {c c' : CallerId} (hc : c' ≠ c) (s : State) (v : Value) :
    (s.succeed c v).caller c' = s.caller c' :=
  State.caller_mapCaller_other s _ hc

theorem caller_raise_of_ne {c c' : CallerId} (hc : c' ≠ c) (s : State) (e : Error) :
    (s.raise c e).caller c' = s.caller c' :=
  State.caller_mapCaller_other s _ hc

/-! ### One claim -/

/-- A claim with no answer ready draws a free one (log 4). -/
theorem drawClaim_free {s : State} (h : s.transport.claims = []) :
    drawClaim s = (Config.freeClaim s.transport.drawn,
      { s with transport := { s.transport with drawn := s.transport.drawn + 1 } }) := by
  simp only [drawClaim, h]

section Claim

variable (c : CallerId) (h : Handle) (s : State)

/-- Whatever its answer, a claim moves the transport as its draw does and adds one event to the wire; the inputs and the other
callers stay as they were. -/
theorem claimFor_frame :
    (claimFor c h s).transport = (drawClaim s).2.transport ∧
      (claimFor c h s).wire = s.wire ++ [.claim h (drawClaim s).1] ∧ (claimFor c h s).issued = s.issued ∧
      (claimFor c h s).schedule = s.schedule ∧ ∀ c', c' ≠ c → (claimFor c h s).caller c' = s.caller c' := by
  obtain ⟨ha, e⟩ | ⟨_, e⟩ := claimFor_cases c h s <;> rw [e]
  · exact ⟨by simp, by simp [ha], by simp, by simp, fun c' hc => by simp [caller_succeed_of_ne hc]⟩
  · exact ⟨by simp, by simp, by simp, by simp, fun c' hc => by simp [caller_raise_of_ne hc]⟩

variable {s}

/-- A claim answered `Ok` binds the handle, is counted, and makes the session `Ready` (R86, R87). -/
theorem claimFor_of_ok (ha : (drawClaim s).1 = .ok) :
    (claimFor c h s).session = { s.session with handle := some h, claims := s.session.claims + 1, state := .ready } ∧
      (claimFor c h s).caller c = (s.caller c).finish (.ok .unit) := by
  obtain ⟨_, e⟩ | ⟨hne, _⟩ := claimFor_cases c h s
  · simp [e]
  · exact absurd ha hne

/-- A claim with any other answer is `EndpointBusy`, with the session as it was (R86, R87). -/
theorem claimFor_of_ne_ok (ha : (drawClaim s).1 ≠ .ok) :
    (claimFor c h s).session = s.session ∧
      (claimFor c h s).caller c = (s.caller c).finish (.err .endpointBusy) := by
  obtain ⟨hok, _⟩ | ⟨_, e⟩ := claimFor_cases c h s
  · exact absurd hok ha
  · simp [e]

end Claim

/-! ### ACQUIRE_ONCE -/

theorem exec_acquireOnce_of_unacquired {s : State} (hs : s.session.state = .unacquired) (c : CallerId) (h : Handle) :
    exec (.acquireOnce c h) s = .next (claimFor c h s) := by
  simp only [exec, execAcquireOnce, acquireSession, hs]

theorem exec_acquireOnce_of_acquired {s : State} (hs : s.session.state ≠ .unacquired) (c : CallerId) (h : Handle) :
    exec (.acquireOnce c h) s = .next (s.succeed c .unit) := by
  simp only [exec, execAcquireOnce, acquireSession]
  cases hstate : s.session.state with
  | unacquired => exact absurd hstate hs
  | ready => rfl
  | degraded => rfl

/-- Settles O24: an `Unacquired` session is claimed once, and the answer of that claim, ready or free, decides between the
binding and `EndpointBusy`; in the other two states the caller is answered and the transport is not asked. -/
theorem acquireOnceBindsOnce : Obligations.AcquireOnceBindsOnce := by
  intro c h s
  refine ⟨Laws.RoundTrip.acquireOnce c h rfl, fun hs => ?_, fun hs => ?_⟩
  · exact ⟨_, exec_acquireOnce_of_acquired hs c h, s.succeed_answersOnly c _⟩
  · obtain ⟨htransport, hwire, hissued, hschedule, hothers⟩ := claimFor_frame c h s
    refine ⟨(drawClaim s).1, claimFor c h s, exec_acquireOnce_of_unacquired hs c h, fun x rest hready => ?_,
      fun hnone => ?_, hwire, hissued, hschedule, hothers, claimFor_of_ok c h, claimFor_of_ne_ok c h⟩
    · rw [htransport, drawClaim_ready hready]
      exact ⟨rfl, rfl⟩
    · rw [htransport, drawClaim_free hnone]

/-! ### UNLOCK -/

theorem exec_unlock_of_holder {c : CallerId} {s : State} (hs : s.session.holder = some c) :
    exec (.unlock c) s = .next ((s.setHolder none).succeed c .unit) := by
  simp only [exec, execUnlock, if_pos hs]

theorem exec_unlock_of_not_holder {c : CallerId} {s : State} (hs : s.session.holder ≠ some c) :
    exec (.unlock c) s = .fault .notHolder := by
  simp only [exec, execUnlock, if_neg hs]

/-- Settles O27: the holder's UNLOCK empties the gate and then only answers, so no waiter is given it. -/
theorem unlockFreesGate : Obligations.UnlockFreesGate := by
  intro c s
  refine ⟨Laws.RoundTrip.unlock c rfl, exec_unlock_of_not_holder, fun hs => ?_⟩
  obtain ⟨⟨hsession, hissued, hschedule, htransport, hwire, hothers⟩, hcaller⟩ :=
    (s.setHolder none).succeed_answersOnly c .unit
  exact ⟨_, exec_unlock_of_holder hs, hsession, hissued, hschedule, htransport, hwire, hothers, hcaller⟩

end Sys2Proof.Proofs

/-!
SEND_REQUEST (R94 to R104): the end without a transfer, where construction fails, and, where nothing stops the exchange
before its response is in, the state that the response finds and what its decoding and judging make of it.
-/

namespace Sys2Proof.Proofs

open Sys2Proof Sys2Proof.Machine

/-! ### Construction fails -/

theorem exec_sendRequest_of_err {v : Variant} {tid f a d : Nat} {e : Error} (c : CallerId) (s : State)
    (h : constructPacket v tid f a d = .err e) :
    exec (.sendRequest c (indexOf v) tid f a d) s = .next (rejectExchange c e (s.mapCaller c Caller.beginExchange)) := by
  simp only [exec, execSendRequest, withVariant_indexOf, h]

section Rejected

variable (s : State) (c : CallerId) (e : Error)

theorem caller_rejectExchange_beginExchange :
    (rejectExchange c e (s.mapCaller c Caller.beginExchange)).caller c =
      (s.caller c).beginExchange.settle .rejected (.err e) := by
  simp only [rejectExchange, State.caller_mapCaller_self]

theorem packet_rejectExchange_beginExchange (r : PacketReg) :
    (rejectExchange c e (s.mapCaller c Caller.beginExchange)).packet c r = s.packet c r := by
  rw [State.packet, caller_rejectExchange_beginExchange, Caller.settle_packet, Caller.beginExchange_packet, State.packet]

/-- An exchange that is rejected as it begins has gone from the phase it found through `Rejected` to `Idle` (R95). -/
theorem sendStopped_rejectExchange_beginExchange :
    SendStopped s (rejectExchange c e (s.mapCaller c Caller.beginExchange)) c [.rejected, .idle] e := by
  refine ⟨rfl, rfl, fun c' hc => ?_, fun n => packet_rejectExchange_beginExchange s c e (.p n),
    packet_rejectExchange_beginExchange s c e .resp, ?_⟩
  · simp only [rejectExchange, State.caller_mapCaller_other _ _ hc]
  · rw [caller_rejectExchange_beginExchange]
    exact ⟨rfl, rfl, rfl, rfl, rfl, rfl⟩

end Rejected

/-- Settles O41: the checks are those of CONSTRUCT, and the state in which the exchange is then rejected differs from the one
it began in by the caller's exchange context and result alone. -/
theorem constructionErrorRejectsUnsent : Obligations.ConstructionErrorRejectsUnsent := by
  intro c v tid f a d e s he
  have herr := constructPacket_of_error ((constructError_eq v tid f a d).trans he)
  exact ⟨_, exec_sendRequest_of_err c s herr, rfl, rfl, rfl, packet_rejectExchange_beginExchange s c e .req,
    sendStopped_rejectExchange_beginExchange s c e⟩

/-! ### The request goes out and the response comes in -/

theorem sentPhases_transport (u : TransferUser) (c : CallerId) (s : State) :
    (sentPhases u c s).transport = s.transport := by
  cases u <;> rfl

/-- What a transfer that is answered whole on both sides leaves when it ends: `b` transmitted, `t` received, the two answers
used (R91). -/
def carriedWhole (u : TransferUser) (c : CallerId) (b t : Buffer) (ws : List WriteAnswer) (rs : List ReadAnswer)
    (s : State) : State :=
  { sentPhases u c s with
    transport := { s.transport with writes := ws, reads := rs }
    wire := s.wire ++ [.write c b .ok, .read c (.ok t)] }

/-- The two blocking steps of a transfer with a whole write and a whole read ready (R91). -/
theorem startTransfer_whole {c : CallerId} {t : Buffer} {ws : List WriteAnswer} {rs : List ReadAnswer} {s : State}
    (hs : s.session.state = .ready) (hw : s.transport.writes = .ok :: ws) (hr : s.transport.reads = .ok t :: rs)
    (u : TransferUser) (b : Buffer) :
    startTransfer u c b.toList s = endTransfer u c (.ok t) (carriedWhole u c b t ws rs s) := by
  rw [startTransfer_ready hs, beginTransmit_ready hw]
  rw [transmitStep, beginReceive_ready (a := .ok t) (rest := rs) (by rw [sentPhases_transport]; exact hr)]
  simp only [receiveStep, State.record, carriedWhole]
  cases u <;> simp only [sentPhases, State.mapCaller, State.caller_mk, List.append_assoc, List.cons_append, List.nil_append]

/-- A transfer for SEND_REQUEST takes its caller to `AwaitingResponse` (R97, R98). -/
theorem caller_carriedWhole_request_self (v : Variant) (tid a : Nat) (c : CallerId) (b t : Buffer) (ws : List WriteAnswer)
    (rs : List ReadAnswer) (s : State) :
    (carriedWhole (.request v tid a) c b t ws rs s).caller c = ((s.caller c).enter .sent).enter .awaitingResponse :=
  State.caller_mapCaller_self s c fun k => (k.enter .sent).enter .awaitingResponse

theorem caller_carriedWhole_of_ne (u : TransferUser) {c c' : CallerId} (hc : c' ≠ c) (b t : Buffer) (ws : List WriteAnswer)
    (rs : List ReadAnswer) (s : State) : (carriedWhole u c b t ws rs s).caller c' = s.caller c' := by
  cases u with
  | raw => rfl
  | exchange => rfl
  | request v tid a => exact State.caller_mapCaller_other s (fun k => (k.enter .sent).enter .awaitingResponse) hc

theorem encodedPacket_constructed (v : Variant) (tid f a d : Nat) :
    encodedPacket v (constructed v tid f a d) = requestPacket v tid f a d := by
  rw [requestPacket, ← encodedPacket_constructed_buf]
  rfl

theorem requestPacket_buf (v : Variant) (tid f a d : Nat) : (requestPacket v tid f a d).buf = requestBytes v tid f a d := by
  rw [requestPacket]

/-- A caller that has built its request `q`, as it takes the gate (R94, R96). -/
def builtCaller (k : Caller) (q : Packet) : Caller :=
  { k with xs := { k.xs with phase := .built, req := q, path := [k.xs.phase, .built] } }

/-- Beginning an exchange, writing `req` as constructed and again as encoded, is one change of the caller (R94). -/
theorem setPacket_req_enter_built (k : Caller) (p q : Packet) :
    ((k.beginExchange.setPacket .req p).enter .built).setPacket .req q = builtCaller k q := rfl

/-- A caller whose request `q` has been transmitted (R94, R97, R98). -/
def awaitingCaller (k : Caller) (q : Packet) : Caller :=
  { k with
    xs :=
      { k.xs with phase := .awaitingResponse, req := q, path := [k.xs.phase, .built, .sent, .awaitingResponse] } }

theorem enter_builtCaller (k : Caller) (q : Packet) :
    ((builtCaller k q).enter .sent).enter .awaitingResponse = awaitingCaller k q := rfl

/-- How `r` stands, next to the state `s` in which a SEND_REQUEST of caller `c` began, when the response `t` has been read
and the gate is free again, with nothing of the response looked at (R94, R98). -/
structure ResponseIn (s r : State) (c : CallerId) (v : Variant) (tid f a d : Nat) (ws : List WriteAnswer) (t : Buffer)
    (rs : List ReadAnswer) : Prop where
  session : r.session = s.session
  issued : r.issued = s.issued
  schedule : r.schedule = s.schedule
  transport : r.transport = { s.transport with writes := ws, reads := rs }
  wire : r.wire = s.wire ++ [.write c (requestBytes v tid f a d) .ok, .read c (.ok t)]
  others : ∀ c', c' ≠ c → r.caller c' = s.caller c'
  caller : r.caller c = awaitingCaller (s.caller c) (requestPacket v tid f a d)

section Received

variable {c : CallerId} {v : Variant} {tid f a d : Nat} {ws : List WriteAnswer} {t : Buffer} {rs : List ReadAnswer}
  {s : State}

/-- Operands that fit take SEND_REQUEST to the gate, with only its caller changed (R94, R96). -/
theorem exec_sendRequest_of_fits (c : CallerId) (s : State) (ha : a < 2 ^ addressWidth v) (hd : d < 2 ^ dataWidth v)
    (ht : tid < 256) (hf : f < 4) :
    ∃ r, exec (.sendRequest c (indexOf v) tid f a d) s =
        .next (takeGate (.request v tid a (requestBytes v tid f a d)) c r) ∧
      s.OnlyCaller r c ∧ r.caller c = builtCaller (s.caller c) (requestPacket v tid f a d) := by
  have hok := constructPacket_of_fits ha hd ht hf
  refine ⟨((s.mapCaller c Caller.beginExchange).mapCaller c fun k =>
    (k.setPacket .req (constructed v tid f a d)).enter .built).setPacket c .req (requestPacket v tid f a d), ?_, ?_, ?_⟩
  · simp only [exec, execSendRequest, withVariant_indexOf, hok, sendBuilt, encodedPacket_constructed, requestPacket_buf]
  · refine ⟨rfl, rfl, rfl, rfl, rfl, fun c' hc => ?_⟩
    simp only [State.setPacket, State.caller_mapCaller_other _ _ hc]
  · simp only [State.caller_setPacket_self, State.caller_mapCaller_self, setPacket_req_enter_built]

/-- A SEND_REQUEST that nothing stops before its response is in has its response to receive (R94). -/
theorem exec_sendRequest_of_sendReady (h : SendReady s v tid f a d ws t rs) (c : CallerId) :
    ∃ r, exec (.sendRequest c (indexOf v) tid f a d) s = .next (receiveResponse c v tid a t r) ∧
      ResponseIn s r c v tid f a d ws t rs := by
  obtain ⟨r, hexec, ⟨hsession, hissued, hschedule, htransport, hwire, hothers⟩, hcaller⟩ :=
    exec_sendRequest_of_fits c s h.addressFits h.dataFits h.targetFits h.flagsFit
  have hgate : r.session.holder = none := by rw [hsession, h.gateFree]
  have hready : (r.setHolder (some c)).session.state = .ready := by rw [State.setHolder_session, hsession, h.ready]
  have hwrites : (r.setHolder (some c)).transport.writes = .ok :: ws := by
    rw [State.setHolder_transport, htransport, h.writes]
  have hreads : (r.setHolder (some c)).transport.reads = .ok t :: rs := by
    rw [State.setHolder_transport, htransport, h.reads]
  refine ⟨(carriedWhole (.request v tid a) c (requestBytes v tid f a d) t ws rs (r.setHolder (some c))).setHolder none,
    ?_, ?_⟩
  · rw [hexec, takeGate_free hgate]
    simp only [grantGate, startTransfer_whole hready hwrites hreads, endTransfer]
  · refine ⟨?_, hissued, hschedule, ?_, ?_, fun c' hc => ?_, ?_⟩
    · rw [← hsession, ← hgate]
      rfl
    · rw [← htransport]
      rfl
    · rw [← hwire]
      rfl
    · rw [State.setHolder_caller, caller_carriedWhole_of_ne _ hc, State.setHolder_caller, hothers c' hc]
    · rw [State.setHolder_caller, caller_carriedWhole_request_self, State.setHolder_caller, hcaller, enter_builtCaller]

/-! ### The response is received -/

theorem getD_zero_toList (b : Buffer) : b.toList.getD 0 0 = byteAt b 0 := by
  rw [← byteAt_bufferOf_zero, bufferOf_toList]

/-- A caller whose exchange is over: the received bytes `b` are kept and `resp` holds `q` (R94, R98, R99, R100). -/
def respondedCaller (k : Caller) (b : Buffer) (q : Packet) (path : List Phase) (x : Result DecodedResponse) : Caller :=
  { k with
    xs :=
      { k.xs with phase := .idle, resp := q, respBytes := some b, result := some x, path := k.xs.path ++ path }
    held := none
    ret := some (resultMap .response x) }

/-- Bytes that `DECODE` refuses reject the exchange with `resp` as it was (R98, R100). -/
theorem receiveResponse_of_err {e : Error} (h : decodePacket v t.toList = .err e) (c : CallerId) (tid a : Nat) (s : State) :
    s.OnlyCaller (receiveResponse c v tid a t s) c ∧
      (receiveResponse c v tid a t s).caller c =
        respondedCaller (s.caller c) t (s.caller c).xs.resp [.rejected, .idle] (.err e) := by
  simp only [receiveResponse, h, rejectExchange]
  refine ⟨⟨rfl, rfl, rfl, rfl, rfl, fun c' hc => ?_⟩, ?_⟩
  · simp only [State.caller_mapCaller_other _ _ hc]
  · simp only [State.caller_mapCaller_self, Caller.settle, Caller.enter, Caller.finish, respondedCaller, List.append_assoc,
      List.cons_append, List.nil_append]

/-- The packet that a response of the request's variant becomes (R102). -/
def responsePacket (v : Variant) (t : Buffer) : Packet := { buf := t, desc := some v, status := .decoded }

/-- Bytes with the request's magic go into `resp`, and the exchange ends as they are judged (R98, R102). -/
theorem receiveResponse_of_magic (hm : byteAt t 0 = magicOf v) {c : CallerId} {tid a : Nat} {ph : Phase}
    {x : Result DecodedResponse}
    (hj : ∀ s, judgeResponse c v tid a (responsePacket v t) s = s.mapCaller c fun k => k.settle ph x) (s : State) :
    s.OnlyCaller (receiveResponse c v tid a t s) c ∧
      (receiveResponse c v tid a t s).caller c =
        respondedCaller (s.caller c) t (responsePacket v t) [.decoded, ph, .idle] x := by
  have hok : decodePacket v t.toList = .ok (responsePacket v t) := by
    rw [decodePacket_of_magic (toList_length t) ((getD_zero_toList t).trans hm), bufferOf_toList, responsePacket]
  simp only [receiveResponse, hok, hj]
  refine ⟨⟨rfl, rfl, rfl, rfl, rfl, fun c' hc => ?_⟩, ?_⟩
  · simp only [State.setPacket, State.caller_mapCaller_other _ _ hc]
  · simp only [State.setPacket, State.caller_mapCaller_self, Caller.setPacket, Caller.settle, Caller.enter, Caller.finish,
      respondedCaller, List.append_assoc, List.cons_append, List.nil_append]

/-! ### The response is judged -/

section Judged

variable {q : Packet} (c : CallerId) (s : State)

theorem judgeResponse_of_violation {x : Violation} (hv : violationOf v q = some x) :
    judgeResponse c v tid a q s = s.mapCaller c fun k => k.settle .rejected (.err (.validationError x)) := by
  simp only [judgeResponse, hv, rejectExchange]

theorem judgeResponse_of_mismatch (hv : violationOf v q = none) (he : targetOf q ≠ tid ∨ addressOf v q ≠ a) :
    judgeResponse c v tid a q s = s.mapCaller c fun k => k.settle .rejected (.err (.validationError .echoMismatch)) := by
  simp only [judgeResponse, hv, if_pos he, rejectExchange]

theorem judgeResponse_of_echo (hv : violationOf v q = none) (ht : targetOf q = tid) (ha : addressOf v q = a) :
    judgeResponse c v tid a q s = s.mapCaller c fun k => k.settle .validated (.ok (decodedResponse v q)) := by
  have he : ¬ (targetOf q ≠ tid ∨ addressOf v q ≠ a) := not_or.2 ⟨not_not.2 ht, not_not.2 ha⟩
  simp only [judgeResponse, hv, if_neg he, acceptExchange]

end Judged

/-- However a packet is judged, the exchange ends in one phase with one result, whatever the state. -/
theorem exists_judgeResponse_settles (c : CallerId) (v : Variant) (tid a : Nat) (q : Packet) :
    ∃ ph x, ∀ s, judgeResponse c v tid a q s = s.mapCaller c fun k => k.settle ph x := by
  cases hv : violationOf v q with
  | some x => exact ⟨_, _, fun s => judgeResponse_of_violation c s hv⟩
  | none =>
    by_cases he : targetOf q = tid ∧ addressOf v q = a
    · exact ⟨_, _, fun s => judgeResponse_of_echo c s hv he.1 he.2⟩
    · exact ⟨_, _, fun s => judgeResponse_of_mismatch c s hv (not_and_or.1 he)⟩

/-- A valid response violates nothing once it is decoded (R65). -/
theorem violationOf_responsePacket (h : responseValid v t) : violationOf v (responsePacket v t) = none := by
  obtain ⟨hm, hf, hp⟩ := h
  exact violationOf_eq_none hm hf hp

/-! ### Whole exchanges -/

/-- An exchange whose response came in and that has ended is described by its path, its result and `resp` (R94). -/
theorem sendReceived_of_respondedCaller {r u : State} {q : Packet} {path : List Phase} {x : Result DecodedResponse}
    (hr : ResponseIn s r c v tid f a d ws t rs) (hu : r.OnlyCaller u c)
    (hcaller : u.caller c = respondedCaller (r.caller c) t q path x) :
    SendReceived s u c v tid f a d ws t rs ([.built, .sent, .awaitingResponse] ++ path) x ∧ u.packet c .resp = q := by
  obtain ⟨hsession, hissued, hschedule, htransport, hwire, hothers⟩ := hu
  rw [hr.caller] at hcaller
  have hpacket (p : PacketReg) : u.packet c p = (respondedCaller (awaitingCaller (s.caller c)
      (requestPacket v tid f a d)) t q path x).packet p := by rw [State.packet, hcaller]
  refine ⟨⟨hsession.trans hr.session, hissued.trans hr.issued, hschedule.trans hr.schedule,
    htransport.trans hr.transport, hwire.trans hr.wire, fun c' hc => (hothers c' hc).trans (hr.others c' hc),
    fun n => hpacket (.p n), hpacket .req, ?_⟩, hpacket .resp⟩
  rw [hcaller]
  exact ⟨rfl, rfl, rfl, rfl, rfl, rfl⟩

/-- An exchange whose response `DECODE` refuses (R98, R100). -/
theorem exec_sendRequest_of_undecodable (h : SendReady s v tid f a d ws t rs) {e : Error}
    (he : decodePacket v t.toList = .err e) (c : CallerId) :
    ∃ u, exec (.sendRequest c (indexOf v) tid f a d) s = .next u ∧
      SendReceived s u c v tid f a d ws t rs [.built, .sent, .awaitingResponse, .rejected, .idle] (.err e) ∧
      u.packet c .resp = s.packet c .resp := by
  obtain ⟨r, hexec, hr⟩ := exec_sendRequest_of_sendReady h c
  obtain ⟨hu, hcaller⟩ := receiveResponse_of_err he c tid a r
  obtain ⟨hreceived, hresp⟩ := sendReceived_of_respondedCaller hr hu hcaller
  refine ⟨_, hexec, hreceived, ?_⟩
  rw [hresp, hr.caller]
  rfl

/-- An exchange whose response has the request's magic ends as the response is judged (R98 to R102). -/
theorem exec_sendRequest_of_judged (h : SendReady s v tid f a d ws t rs) (hm : byteAt t 0 = magicOf v) {c : CallerId}
    {ph : Phase} {x : Result DecodedResponse}
    (hj : ∀ s, judgeResponse c v tid a (responsePacket v t) s = s.mapCaller c fun k => k.settle ph x) :
    ∃ u, exec (.sendRequest c (indexOf v) tid f a d) s = .next u ∧
      SendReceived s u c v tid f a d ws t rs [.built, .sent, .awaitingResponse, .decoded, ph, .idle] x ∧
      u.packet c .resp = responsePacket v t := by
  obtain ⟨r, hexec, hr⟩ := exec_sendRequest_of_sendReady h c
  obtain ⟨hu, hcaller⟩ := receiveResponse_of_magic hm hj r
  exact ⟨_, hexec, sendReceived_of_respondedCaller hr hu hcaller⟩

/-- An exchange whose response is valid and echoes the request ends with the typed response, whatever the response's flags and
data (R99, R103). -/
theorem exec_sendRequest_of_echo (h : SendReady s v tid f a d ws t rs) (hvalid : responseValid v t)
    (ht : (byteAt t 2).toNat = tid) (ha : leValue t 3 (addressBytes v) = a) (c : CallerId) :
    ∃ u, exec (.sendRequest c (indexOf v) tid f a d) s = .next u ∧
      SendReceived s u c v tid f a d ws t rs [.built, .sent, .awaitingResponse, .decoded, .validated, .idle]
        (.ok (decodedResponse v (responsePacket v t))) ∧
      u.packet c .resp = responsePacket v t :=
  exec_sendRequest_of_judged h hvalid.1 fun s =>
    judgeResponse_of_echo c s (violationOf_responsePacket hvalid) ht ha

theorem result_of_sendReceived {u : State} {path : List Phase} {x : Result DecodedResponse}
    (h : SendReceived s u c v tid f a d ws t rs path x) :
    (u.caller c).xs.result = some x ∧ (u.caller c).ret = some (resultMap .response x) := by
  obtain ⟨_, _, _, _, _, _, _, _, _, _, _, hresult, _, hret⟩ := h
  exact ⟨hresult, hret⟩

theorem path_of_sendReceived {u : State} {path : List Phase} {x : Result DecodedResponse}
    (h : SendReceived s u c v tid f a d ws t rs path x) : (u.caller c).xs.path = (s.caller c).xs.phase :: path := by
  obtain ⟨_, _, _, _, _, _, _, _, _, _, hpath, _⟩ := h
  exact hpath

end Received

/-- Settles O37: the success flag is a field of the typed response, which is the result of every valid response that echoes the
request; neither VALIDATE nor the echo check looks at it. -/
theorem failureFlagIsData : Obligations.FailureFlagIsData := by
  intro c v tid f a d ws t rs s h hvalid ht ha hflag
  obtain ⟨u, hexec, hreceived, _⟩ := exec_sendRequest_of_echo h hvalid ht ha c
  obtain ⟨hresult, hret⟩ := result_of_sendReceived hreceived
  refine ⟨u, _, hexec, hflag, hresult, hret, ?_⟩
  simp [path_of_sendReceived hreceived]

/-- Settles O38: a valid response is decoded and violates nothing, so the echo check alone decides, and it reads only the
target id and the address. -/
theorem echoCheckComparesTargetAndAddress : Obligations.EchoCheckComparesTargetAndAddress := by
  intro c v tid f a d ws t rs s h hvalid
  have hnone := violationOf_responsePacket hvalid
  refine ⟨hnone, fun hdiffers => ?_, fun ht ha => ?_⟩
  · exact exec_sendRequest_of_judged h hvalid.1 fun s => judgeResponse_of_mismatch c s hnone hdiffers
  · obtain ⟨u, hexec, hreceived, _⟩ := exec_sendRequest_of_echo h hvalid ht ha c
    exact ⟨u, _, hexec, (result_of_sendReceived hreceived).2⟩

/-- Settles O40: DECODE of 16 bytes with the request's descriptor looks at byte 0 alone. With its own magic the response is
decoded however it is then judged; with another variant's it is refused, and no VALIDATE is reached. -/
theorem responseOfAnotherVariantIsMismatch : Obligations.ResponseOfAnotherVariantIsMismatch := by
  intro c v w tid f a d ws t rs s h
  refine ⟨fun hm => ?_, fun hvalid hne => ?_⟩
  · obtain ⟨ph, x, hj⟩ := exists_judgeResponse_settles c v tid a (responsePacket v t)
    obtain ⟨u, hexec, _, hresp⟩ := exec_sendRequest_of_judged h hm hj
    exact ⟨u, hexec, hresp⟩
  · have hother := decodePacket_of_other (toList_length t) ((getD_zero_toList t).trans hvalid.1) hne
    obtain ⟨u, hexec, hreceived, _⟩ := exec_sendRequest_of_undecodable h hother c
    exact ⟨u, hexec, result_of_sendReceived hreceived⟩

end Sys2Proof.Proofs

/-!
What a chain of moves keeps (Laws/Moves): the other callers and the inputs, the packets as their status says, the canonical form
and the number of callers. Every step is such a chain behind its agent's choice, so it keeps the same.
-/

namespace Sys2Proof.Proofs

open Sys2Proof Sys2Proof.Machine

/-! ### The frame of an operation -/

/-- What no operation of caller `c` touches: the other callers, the commands issued, the schedule, the packets on their way. -/
structure OperationFrame (c : CallerId) (s t : State) : Prop where
  others : ∀ c', c' ≠ c → t.caller c' = s.caller c'
  issued : t.issued = s.issued
  schedule : t.schedule = s.schedule
  inbound : t.transport.inbound = s.transport.inbound

theorem operationFrame_of_move {c : CallerId} {s t : State} (h : Move c s t) : OperationFrame c s t := by
  cases h with
  | own f _ => exact ⟨fun _ hc => State.caller_mapCaller_other s f hc, rfl, rfl, rfl⟩
  | takeGate => exact ⟨fun _ _ => rfl, rfl, rfl, rfl⟩
  | freeGate => exact ⟨fun _ _ => rfl, rfl, rfl, rfl⟩
  | degrade => exact ⟨fun _ _ => rfl, rfl, rfl, rfl⟩
  | unbind => exact ⟨fun _ _ => rfl, rfl, rfl, rfl⟩
  | bind hd => exact ⟨fun _ _ => rfl, rfl, rfl, rfl⟩
  | record e => exact ⟨fun _ _ => rfl, rfl, rfl, rfl⟩
  | answers tr hi => exact ⟨fun _ _ => rfl, rfl, rfl, hi⟩

theorem operationFrame_of_moves {c : CallerId} {s t : State} (h : Moves c s t) : OperationFrame c s t := by
  induction h with
  | refl => exact ⟨fun _ _ => rfl, rfl, rfl, rfl⟩
  | tail _ hm ih =>
    have hstep := operationFrame_of_move hm
    exact ⟨fun c' hc => (hstep.others c' hc).trans (ih.others c' hc), hstep.issued.trans ih.issued,
      hstep.schedule.trans ih.schedule, hstep.inbound.trans ih.inbound⟩

/-- Settles O22: a command is a chain of moves of its caller, none of which reaches another caller or an input. -/
theorem commandsLeaveOtherCallersAlone : Obligations.CommandsLeaveOtherCallersAlone := by
  intro i c s t hc h
  have hframe := operationFrame_of_moves (exec_moves hc h)
  exact ⟨hframe.others, hframe.issued, hframe.schedule, hframe.inbound⟩

/-! ### Invariants that read the callers alone -/

/-- A property of the callers that every move keeps is kept by every step: whatever the agent, its work is a chain of moves of
one caller, or touches no caller. -/
theorem step_keeps_of_move {P : State → Prop} (hcallers : ∀ s t : State, t.callers = s.callers → P s → P t)
    (hmove : ∀ c s t, Move c s t → P s → P t) {s t : State} (hs : P s) (h : step s = .next t) : P t := by
  obtain ⟨s0, hb, hcase⟩ := step_cases h
  have hs0 : P s0 := hcallers s s0 hb.callers hs
  rcases hcase with rfl | ⟨c, hd, _, rfl⟩ | ⟨c, cmd, left, i, _, _, hc, he⟩ | ⟨b, rest, _, rfl⟩
  · exact hs0
  · exact (resume_moves c hd s0).keeps (hmove c) hs0
  · exact (exec_moves hc he).keeps (hmove c) (hcallers s0 _ rfl hs0)
  · rcases deliverPacket_moves b { s0 with transport := { s0.transport with inbound := rest } } with he | ⟨c, _, _, _, hm, _⟩
    · rw [he]
      exact hcallers s0 _ rfl hs0
    · exact hm.keeps (hmove c) (hcallers s0 _ rfl hs0)

theorem packetsWf_of_callers {s t : State} (h : t.callers = s.callers) (hs : s.PacketsWf) : t.PacketsWf := by
  intro c r
  simp only [State.packet, State.caller, h]
  exact hs c r

theorem packetsWf_of_move {c : CallerId} {s t : State} (h : Move c s t) (hs : s.PacketsWf) : t.PacketsWf := by
  cases h with
  | own f hf =>
    intro c' r
    rw [State.packet, State.caller_mapCaller]
    split
    · exact hf.packets (hs c) r
    · exact hs c' r
  | takeGate => exact packetsWf_of_callers rfl hs
  | freeGate => exact packetsWf_of_callers rfl hs
  | degrade => exact packetsWf_of_callers rfl hs
  | unbind => exact packetsWf_of_callers rfl hs
  | bind hd => exact packetsWf_of_callers rfl hs
  | record e => exact packetsWf_of_callers rfl hs
  | answers tr hi => exact packetsWf_of_callers rfl hs

/-- Settles O53: every packet that a move writes is as its status says. -/
theorem stepKeepsPacketsBound : Obligations.StepKeepsPacketsBound := fun _ _ hs h =>
  step_keeps_of_move (fun _ _ => packetsWf_of_callers) (fun _ _ _ => packetsWf_of_move) hs h

theorem wf_of_callers {s t : State} (h : t.callers = s.callers) (hs : s.wf = true) : t.wf = true := by
  rw [State.wf, h]
  exact hs

/-- Settles O57: every write of a caller, and of a register in it, is a write to a store in canonical form. -/
theorem stepKeepsCanonicalForm : Obligations.StepKeepsCanonicalForm := fun _ _ hs h =>
  step_keeps_of_move (fun _ _ => wf_of_callers) (fun _ _ _ => Move.keeps_wf) hs h

/-! ### The number of callers -/

/-- A caller that is held, or holds the gate, is one of the machine's `n` (R10, R16). -/
theorem lt_of_held {s : State} {n : Nat} {c : CallerId} {hd : Held} (h : s.CallersBelow n)
    (hh : (s.caller c).held = some hd) : c < n := by
  by_contra hc
  obtain ⟨hcallers, _⟩ := h
  rw [hcallers c (Nat.le_of_not_lt hc)] at hh
  cases hh

/-- A move of one of the `n` callers brings no other into being. -/
theorem callersBelow_of_move {n : Nat} {c : CallerId} (hc : c < n) {s t : State} (hm : Move c s t) (h : s.CallersBelow n) :
    t.CallersBelow n := by
  obtain ⟨hcallers, hissued, hholder⟩ := h
  have hframe := operationFrame_of_move hm
  refine ⟨fun c' hle => ?_, fun cmd hcmd => hissued cmd (hframe.issued ▸ hcmd), ?_⟩
  · rw [hframe.others c' (Nat.ne_of_gt (Nat.lt_of_lt_of_le hc hle))]
    exact hcallers c' hle
  · cases hm with
    | own f _ => exact hholder
    | takeGate => exact fun c' hc' => Option.some.inj hc' ▸ hc
    | freeGate => exact fun c' hc' => nomatch hc'
    | degrade => exact hholder
    | unbind => exact hholder
    | bind hd => exact hholder
    | record e => exact hholder
    | answers tr hi => exact hholder

/-- Settles O58: who steps is one of the `n` callers already, since it is held, has issued a command or holds the gate. -/
theorem stepKeepsCallersBelow : Obligations.StepKeepsCallersBelow := by
  intro n s t hs h
  obtain ⟨s0, hb, hcase⟩ := step_cases h
  have hs0 : s0.CallersBelow n := by
    obtain ⟨hcallers, hissued, hholder⟩ := hs
    refine ⟨fun c hc => ?_, hb.issued ▸ hissued, hb.session ▸ hholder⟩
    rw [State.caller, hb.callers]
    exact hcallers c hc
  have hmoves {c : CallerId} (hc : c < n) {s' t' : State} (hm : Moves c s' t') : s'.CallersBelow n → t'.CallersBelow n :=
    hm.keeps fun _ _ => callersBelow_of_move hc
  rcases hcase with rfl | ⟨c, hd, hh, rfl⟩ | ⟨c, cmd, left, i, _, ht, hc, he⟩ | ⟨b, rest, _, rfl⟩
  · exact hs0
  · exact hmoves (lt_of_held hs0 hh) (resume_moves c hd s0) hs0
  · obtain ⟨hcallers, hissued, hholder⟩ := hs0
    obtain ⟨rfl, hmem, hleft⟩ := takeIssued_some ht
    exact hmoves (hissued cmd hmem) (exec_moves hc he) ⟨hcallers, fun x hx => hissued x (hleft x hx), hholder⟩
  · rcases deliverPacket_moves b { s0 with transport := { s0.transport with inbound := rest } } with
      he | ⟨c, _, hg, _, hm, _⟩
    · rw [he]
      exact hs0
    · have ⟨_, _, hholder⟩ := hs0
      exact hmoves (hholder c hg) hm hs0

end Sys2Proof.Proofs

/-!
The transfer (R84, R91, R92, R94): what each answer of the transport does to the session and the wire, whichever operation the
transfer belongs to, and how the operation then ends.
-/

namespace Sys2Proof.Proofs

open Sys2Proof Sys2Proof.Machine

/-! ### The residue rule -/

theorem drawClean_fst_of_ready {s : State} {clean : Bool} {rest : List Bool} (h : s.transport.cleans = clean :: rest) :
    (drawClean s).1 = clean := by
  rw [drawClean_ready h]

/-- What the residue rule draws depends on the transport alone (R84). -/
theorem drawClean_fst (s : State) :
    (drawClean s).1 = s.transport.cleans.headD (Config.freeClean s.transport.drawn) := by
  unfold drawClean
  cases s.transport.cleans <;> rfl

theorem applyResidue_session (s : State) :
    (applyResidue s).session =
      { s.session with state := if (drawClean s).1 then s.session.state else .degraded } := by
  unfold applyResidue
  split <;> simp

theorem drawClean_reads (s : State) : (drawClean s).2.transport.reads = s.transport.reads := by
  unfold drawClean
  split <;> rfl

theorem applyResidue_reads (s : State) : (applyResidue s).transport.reads = s.transport.reads := by
  rcases applyResidue_state s with h | h <;> simp [h, drawClean_reads]

theorem drawRead_cleans (s : State) : (drawRead s).2.transport.cleans = s.transport.cleans := by
  unfold drawRead
  split <;> rfl

theorem drawWrite_cleans (s : State) : (drawWrite s).2.transport.cleans = s.transport.cleans := by
  unfold drawWrite
  split <;> rfl

theorem drawWrite_reads (s : State) : (drawWrite s).2.transport.reads = s.transport.reads := by
  unfold drawWrite
  split <;> rfl

theorem drawWrite_fst_of_ready {s : State} {a : WriteAnswer} {rest : List WriteAnswer} (h : s.transport.writes = a :: rest) :
    (drawWrite s).1 = a := by
  rw [drawWrite_ready h]

theorem drawRead_fst_of_ready {s : State} {a : ReadAnswer} {rest : List ReadAnswer} (h : s.transport.reads = a :: rest) :
    (drawRead s).1 = a := by
  rw [drawRead_ready h]

/-! ### An answer of the transport, whatever the operation -/

/-- The state after an answer to a read: the event, and what the answer does to the session (R84, R91). -/
def afterReadAnswer (c : CallerId) (a : ReadAnswer) (s : State) : State :=
  match a with
  | .ok _ => s.record (.read c a)
  | .short _ => applyResidue (s.record (.read c a))
  | .busy => applyResidue (s.record (.read c a))
  | .timeout => applyResidue (s.record (.read c a))
  | .disconnected => (s.record (.read c a)).degrade

/-- What a transfer returns for an answer to its read (R91). -/
def readResult : ReadAnswer → Result Buffer
  | .ok t => .ok t
  | .short n => .err (.shortRead n.val)
  | .busy => .err .endpointBusy
  | .timeout => .err (.timeout .receive)
  | .disconnected => .err .degraded

/-- The RX step is the answer's effect, then the end of the transfer (R91). -/
theorem receiveStep_eq (u : TransferUser) (c : CallerId) (a : ReadAnswer) (s : State) :
    receiveStep u c a s = endTransfer u c (readResult a) (afterReadAnswer c a s) := by
  cases a <;> rfl

theorem readResult_of_error {a : ReadAnswer} {e : Error} (h : readErrorOf a = some e) : readResult a = .err e := by
  cases a <;> simp only [readErrorOf, reduceCtorEq, Option.some.injEq] at h <;> simp [readResult, h]

section AfterRead

variable (c : CallerId) (a : ReadAnswer) (s : State)

theorem afterReadAnswer_session :
    (afterReadAnswer c a s).session =
      { s.session with state := stateAfterRead s.session.state (drawClean s).1 a } := by
  have hclean : (drawClean (s.record (.read c a))).1 = (drawClean s).1 := by simp only [drawClean_fst, State.record_transport]
  cases a with
  | ok t => rfl
  | disconnected => rfl
  | short n => simp only [afterReadAnswer, applyResidue_session, hclean, State.record_session, stateAfterRead]
  | busy => simp only [afterReadAnswer, applyResidue_session, hclean, State.record_session, stateAfterRead]
  | timeout => simp only [afterReadAnswer, applyResidue_session, hclean, State.record_session, stateAfterRead]

theorem afterReadAnswer_callers : (afterReadAnswer c a s).callers = s.callers := by
  cases a <;> simp [afterReadAnswer]

theorem afterReadAnswer_caller (c' : CallerId) : (afterReadAnswer c a s).caller c' = s.caller c' := by
  rw [State.caller, afterReadAnswer_callers, State.caller]

theorem afterReadAnswer_wire : (afterReadAnswer c a s).wire = s.wire ++ [.read c a] := by
  cases a <;> simp [afterReadAnswer]

end AfterRead

/-- The state after an answer to a write (R84, R91). -/
def afterWriteAnswer (c : CallerId) (b : Buffer) (a : WriteAnswer) (s : State) : State :=
  match a with
  | .ok => s.record (.write c b a)
  | .busy => s.record (.write c b a)
  | .short _ => applyResidue (s.record (.write c b a))
  | .timeout => applyResidue (s.record (.write c b a))
  | .disconnected => (s.record (.write c b a)).degrade

/-- A TX step that fails is the answer's effect, then the end of the transfer (R91). -/
theorem transmitStep_of_error {a : WriteAnswer} {e : Error} (h : writeErrorOf a = some e) (u : TransferUser) (c : CallerId)
    (b : Buffer) (s : State) : transmitStep u c b a s = endTransfer u c (.err e) (afterWriteAnswer c b a s) := by
  cases a <;> simp only [writeErrorOf, reduceCtorEq, Option.some.injEq] at h <;> subst h <;> rfl

section AfterWrite

variable (c : CallerId) (b : Buffer) (a : WriteAnswer) (s : State)

theorem afterWriteAnswer_session :
    (afterWriteAnswer c b a s).session =
      { s.session with state := stateAfterWrite s.session.state (drawClean s).1 a } := by
  have hclean : (drawClean (s.record (.write c b a))).1 = (drawClean s).1 := by
    simp only [drawClean_fst, State.record_transport]
  cases a with
  | ok => rfl
  | busy => rfl
  | disconnected => rfl
  | short n => simp only [afterWriteAnswer, applyResidue_session, hclean, State.record_session, stateAfterWrite]
  | timeout => simp only [afterWriteAnswer, applyResidue_session, hclean, State.record_session, stateAfterWrite]

theorem afterWriteAnswer_callers : (afterWriteAnswer c b a s).callers = s.callers := by
  cases a <;> simp [afterWriteAnswer]

theorem afterWriteAnswer_caller (c' : CallerId) : (afterWriteAnswer c b a s).caller c' = s.caller c' := by
  rw [State.caller, afterWriteAnswer_callers, State.caller]

theorem afterWriteAnswer_wire : (afterWriteAnswer c b a s).wire = s.wire ++ [.write c b a] := by
  cases a <;> simp [afterWriteAnswer]

theorem afterWriteAnswer_reads : (afterWriteAnswer c b a s).transport.reads = s.transport.reads := by
  cases a <;> simp [afterWriteAnswer, applyResidue_reads]

end AfterWrite

/-! ### What SEND_REQUEST makes of the received bytes -/

/-- The phase in which an exchange with the decoded response `q` ends, and its result (R94, R99 to R104). -/
def judged (v : Variant) (tid a : Nat) (q : Packet) : Phase × Result DecodedResponse :=
  match violationOf v q with
  | some x => (.rejected, .err (.validationError x))
  | none =>
    if targetOf q = tid ∧ addressOf v q = a then (.validated, .ok (decodedResponse v q))
    else (.rejected, .err (.validationError .echoMismatch))

section Judged

variable {v : Variant} {tid a : Nat} {q : Packet}

theorem judged_of_violation {x : Violation} (h : violationOf v q = some x) :
    judged v tid a q = (.rejected, .err (.validationError x)) := by
  simp only [judged, h]

theorem judged_of_mismatch (h : violationOf v q = none) (he : targetOf q ≠ tid ∨ addressOf v q ≠ a) :
    judged v tid a q = (.rejected, .err (.validationError .echoMismatch)) := by
  simp only [judged, h, if_neg (not_and_or.2 he)]

theorem judged_of_echo (h : violationOf v q = none) (ht : targetOf q = tid) (ha : addressOf v q = a) :
    judged v tid a q = (.validated, .ok (decodedResponse v q)) := by
  simp only [judged, h, ht, ha, and_self, if_true]

theorem judgeResponse_eq (c : CallerId) (s : State) :
    judgeResponse c v tid a q s = s.mapCaller c fun k => k.settle (judged v tid a q).1 (judged v tid a q).2 := by
  cases hv : violationOf v q with
  | some x => rw [judgeResponse_of_violation c s hv, judged_of_violation hv]
  | none =>
    by_cases he : targetOf q = tid ∧ addressOf v q = a
    · rw [judgeResponse_of_echo c s hv he.1 he.2, judged_of_echo hv he.1 he.2]
    · have hne := not_and_or.1 he
      rw [judgeResponse_of_mismatch c s hv hne, judged_of_mismatch hv hne]

end Judged

/-- The phases that an exchange goes through once it has received `b`, and its result (R94, R98 to R104). -/
def exchangeEnd (v : Variant) (tid a : Nat) (b : Buffer) : List Phase × Result DecodedResponse :=
  match decodePacket v b.toList with
  | .err e => ([.rejected, .idle], .err e)
  | .ok q => ([.decoded, (judged v tid a q).1, .idle], (judged v tid a q).2)

/-- What `resp` holds once an exchange has received `b` (R102). -/
def respAfter (v : Variant) (b : Buffer) (q : Packet) : Packet := if byteAt b 0 = magicOf v then responsePacket v b else q

section Received

variable {v : Variant} {tid a : Nat} {b : Buffer}

theorem decodePacket_responsePacket (h : byteAt b 0 = magicOf v) :
    decodePacket v b.toList = .ok (responsePacket v b) := by
  rw [decodePacket_of_magic (toList_length b) ((getD_zero_toList b).trans h), bufferOf_toList, responsePacket]

theorem decodePacket_ne_magic (h : byteAt b 0 ≠ magicOf v) : ∃ e, decodePacket v b.toList = .err e := by
  cases hd : decodePacket v b.toList with
  | err e => exact ⟨e, rfl⟩
  | ok q =>
    obtain ⟨hm, _⟩ := decodePacket_eq_ok hd
    rw [bufferOf_toList] at hm
    exact absurd hm h

theorem exchangeEnd_of_err {e : Error} (h : decodePacket v b.toList = .err e) :
    exchangeEnd v tid a b = ([.rejected, .idle], .err e) := by
  simp only [exchangeEnd, h]

theorem exchangeEnd_of_magic (h : byteAt b 0 = magicOf v) :
    exchangeEnd v tid a b =
      ([.decoded, (judged v tid a (responsePacket v b)).1, .idle], (judged v tid a (responsePacket v b)).2) := by
  simp only [exchangeEnd, decodePacket_responsePacket h]

theorem decodePacket_unassigned (h : ∀ w, byteAt b 0 ≠ magicOf w) :
    decodePacket v b.toList = .err (.unknownVariant (byteAt b 0).toNat) := by
  rw [← getD_zero_toList] at h ⊢
  exact decodePacket_of_unassigned v (toList_length b) h

theorem decodePacket_other {w : Variant} (hne : w ≠ v) (h : byteAt b 0 = magicOf w) :
    decodePacket v b.toList = .err (.magicMismatch (magicOf v) (magicOf w)) :=
  decodePacket_of_other (toList_length b) ((getD_zero_toList b).trans h) hne

/-- The end of an exchange is what R94, R98 to R104 and R115 say of the received bytes. -/
theorem responseJudged_exchangeEnd (v : Variant) (tid a : Nat) (b : Buffer) :
    ResponseJudged v tid a b (exchangeEnd v tid a b).1 (exchangeEnd v tid a b).2 := by
  refine ⟨fun hm => ?_, fun w hw hm => ?_, fun hm hf => ?_, fun hm hf i hle hlt hne hzero => ?_, fun hvalid hne => ?_,
    fun hvalid ht ha => ?_⟩
  · rw [exchangeEnd_of_err (decodePacket_unassigned hm)]
    exact ⟨rfl, rfl⟩
  · rw [exchangeEnd_of_err (decodePacket_other hw hm)]
    exact ⟨rfl, rfl⟩
  · rw [exchangeEnd_of_magic hm, judged_of_violation (violationOf_reservedFlagBits (q := responsePacket v b) hm hf)]
    exact ⟨rfl, rfl⟩
  · have hx : violationOf v (responsePacket v b) = some (.reservedPadding i) := by
      rw [violationOf_padding (q := responsePacket v b) hm hf,
        firstNonzeroFrom_eq_some (buf := (responsePacket v b).buf) hle hlt hne hzero, Option.map_some]
    rw [exchangeEnd_of_magic hm, judged_of_violation hx]
    exact ⟨rfl, rfl⟩
  · rw [exchangeEnd_of_magic hvalid.1, judged_of_mismatch (violationOf_responsePacket hvalid) hne]
    exact ⟨rfl, rfl⟩
  · rw [exchangeEnd_of_magic hvalid.1, judged_of_echo (violationOf_responsePacket hvalid) ht ha]
    subst ht ha
    exact ⟨rfl, rfl⟩

/-- Receiving the response changes its caller alone (R94, R98). -/
theorem receiveResponse_ended (c : CallerId) (v : Variant) (tid a : Nat) (b : Buffer) (s : State) :
    s.OnlyCaller (receiveResponse c v tid a b s) c ∧
      (receiveResponse c v tid a b s).caller c =
        respondedCaller (s.caller c) b (respAfter v b (s.caller c).xs.resp) (exchangeEnd v tid a b).1
          (exchangeEnd v tid a b).2 := by
  by_cases hm : byteAt b 0 = magicOf v
  · rw [respAfter, if_pos hm, exchangeEnd_of_magic hm]
    exact receiveResponse_of_magic hm (judgeResponse_eq c) s
  · obtain ⟨e, he⟩ := decodePacket_ne_magic hm
    rw [respAfter, if_neg hm, exchangeEnd_of_err he]
    exact receiveResponse_of_err he c tid a s

end Received

/-! ### The end of a transfer -/

section EndTransfer

variable (u : TransferUser) (c : CallerId) (x : Result Buffer) (s : State)

/-- Whatever its result, the end of a transfer releases the gate, but for TRANSFER, and touches neither the rest of the session
nor the transport nor the wire (R91, R92, R94). -/
theorem endTransfer_frame :
    (endTransfer u c x s).session = { s.session with holder := gateAfter s.session.holder u } ∧
      (endTransfer u c x s).transport = s.transport ∧ (endTransfer u c x s).wire = s.wire := by
  cases u with
  | raw => exact ⟨rfl, rfl, rfl⟩
  | exchange => exact ⟨rfl, rfl, rfl⟩
  | request v tid a =>
    cases x with
    | err e => exact ⟨rfl, rfl, rfl⟩
    | ok b =>
      obtain ⟨⟨hsession, _, _, htransport, hwire, _⟩, _⟩ := receiveResponse_ended c v tid a b (s.setHolder none)
      exact ⟨hsession, htransport, hwire⟩

theorem endTransfer_others {c' : CallerId} (hc : c' ≠ c) : (endTransfer u c x s).caller c' = s.caller c' :=
  (operationFrame_of_moves (moves_endTransfer u c x s)).others c' hc

theorem endTransfer_err_caller (e : Error) :
    (endTransfer u c (.err e) s).caller c = afterTransferError (s.caller c) e u := by
  cases u with
  | raw => exact State.caller_mapCaller_self s c _
  | exchange => exact State.caller_mapCaller_self (s.setHolder none) c _
  | request v tid a =>
    refine (State.caller_mapCaller_self (s.setHolder none) c _).trans ?_
    simp only [State.setHolder_caller, afterTransferError, Caller.settle, Caller.enter, Caller.finish, List.append_assoc,
      List.cons_append, List.nil_append]
    rfl

theorem endTransfer_ok_caller (b : Buffer) : AfterReceive (s.caller c) ((endTransfer u c (.ok b) s).caller c) b u := by
  cases u with
  | raw => exact State.caller_mapCaller_self s c _
  | exchange => exact State.caller_mapCaller_self (s.setHolder none) c _
  | request v tid a =>
    obtain ⟨_, hcaller⟩ := receiveResponse_ended c v tid a b (s.setHolder none)
    exact ⟨_, _, responseJudged_exchangeEnd v tid a b, hcaller⟩

end EndTransfer

/-- However a transfer ends, its caller is held nowhere and has its result. -/
theorem afterTransferError_over (k : Caller) (e : Error) (u : TransferUser) :
    (afterTransferError k e u).held = none ∧ (afterTransferError k e u).ret ≠ none := by
  cases u <;> exact ⟨rfl, nofun⟩

theorem over_of_afterReceive {k k' : Caller} {b : Buffer} {u : TransferUser} (h : AfterReceive k k' b u) :
    k'.held = none ∧ k'.ret ≠ none := by
  cases u with
  | raw => exact h ▸ ⟨rfl, nofun⟩
  | exchange => exact h ▸ ⟨rfl, nofun⟩
  | request v tid a =>
    obtain ⟨_, _, _, rfl⟩ := h
    exact ⟨rfl, nofun⟩

/-! ### The RX step -/

theorem receiveStep_ended (u : TransferUser) (c : CallerId) (a : ReadAnswer) (s : State) :
    (receiveStep u c a s).wire = s.wire ++ [.read c a] ∧
      ReceiveEnded s (receiveStep u c a s) c (s.caller c) a (drawClean s).1 u := by
  rw [receiveStep_eq]
  obtain ⟨hsession, _, hwire⟩ := endTransfer_frame u c (readResult a) (afterReadAnswer c a s)
  rw [afterReadAnswer_session] at hsession
  rw [afterReadAnswer_wire] at hwire
  have hcaller := afterReadAnswer_caller c a s
  refine ⟨hwire, hsession, fun e he => ?_, fun b hb => ?_, fun c' hc => ?_⟩
  · rw [readResult_of_error he, endTransfer_err_caller, hcaller]
  · subst hb
    exact hcaller c ▸ endTransfer_ok_caller u c _ b
  · rw [endTransfer_others u c _ _ hc, hcaller]

/-- A caller in its RX step that goes on ends its transfer with one answer, the one that is ready or a free one (R91). -/
theorem receiveDrawn_ended (u : TransferUser) (c : CallerId) (s : State) :
    (receiveDrawn u c s).wire = s.wire ++ [.read c (drawRead s).1] ∧
      ReceiveEnded s (receiveDrawn u c s) c (s.caller c) (drawRead s).1 (drawClean (drawRead s).2).1 u := by
  have h := receiveStep_ended u c (drawRead s).1 (drawRead s).2
  simp only [ReceiveEnded, drawRead_wire, drawRead_session, drawRead_caller] at h
  exact h

/-- An RX step that begins with an answer ready ends at once (R91; log 5). -/
theorem beginReceive_ended (u : TransferUser) (c : CallerId) {s : State} {r : ReadAnswer} {rest : List ReadAnswer}
    (h : s.transport.reads = r :: rest) :
    (beginReceive u c s).wire = s.wire ++ [.read c r] ∧
      ReceiveEnded s (beginReceive u c s) c (s.caller c) r (drawClean s).1 u := by
  rw [beginReceive_ready h]
  have hended := receiveStep_ended u c r { s with transport := { s.transport with reads := rest } }
  rw [drawClean_fst] at hended ⊢
  exact hended

/-- Any answer to the read is an error or the bytes; either way the operation is over. -/
theorem over_of_receiveEnded {s t : State} {c : CallerId} {k : Caller} {a : ReadAnswer} {clean : Bool} {u : TransferUser}
    (h : ReceiveEnded s t c k a clean u) : (t.caller c).held = none ∧ (t.caller c).ret ≠ none := by
  obtain ⟨_, herr, hok, _⟩ := h
  cases hr : readErrorOf a with
  | some e => exact herr e hr ▸ afterTransferError_over k e u
  | none =>
    cases a with
    | ok b => exact over_of_afterReceive (hok b rfl)
    | short n => cases hr
    | busy => cases hr
    | timeout => cases hr
    | disconnected => cases hr

/-! ### The TX step -/

theorem sentPhases_session (u : TransferUser) (c : CallerId) (s : State) : (sentPhases u c s).session = s.session := by
  cases u <;> rfl

theorem sentPhases_wire (u : TransferUser) (c : CallerId) (s : State) : (sentPhases u c s).wire = s.wire := by
  cases u <;> rfl

theorem sentPhases_caller_self (u : TransferUser) (c : CallerId) (s : State) :
    (sentPhases u c s).caller c = afterTransmit (s.caller c) u := by
  cases u with
  | raw => rfl
  | exchange => rfl
  | request v tid a =>
    refine (State.caller_mapCaller_self s c fun k => (k.enter .sent).enter .awaitingResponse).trans ?_
    simp only [Caller.enter, afterTransmit, List.append_assoc, List.cons_append, List.nil_append]

theorem sentPhases_caller_of_ne (u : TransferUser) {c c' : CallerId} (hc : c' ≠ c) (s : State) :
    (sentPhases u c s).caller c' = s.caller c' :=
  (operationFrame_of_moves (moves_sentPhases u c s)).others c' hc

/-- The TX step ends with the transport's answer as R91, R92 and R94 say, for all three operations. -/
theorem transmitStep_ended (u : TransferUser) (c : CallerId) (b : Buffer) (a : WriteAnswer) (s : State) :
    TransmitEnded s (transmitStep u c b a s) c b a (drawClean s).1 u := by
  refine ⟨fun e he => ?_, ?_, ?_⟩
  · rw [transmitStep_of_error he]
    obtain ⟨hsession, _, hwire⟩ := endTransfer_frame u c (.err e) (afterWriteAnswer c b a s)
    rw [afterWriteAnswer_session] at hsession
    rw [afterWriteAnswer_wire] at hwire
    refine ⟨hwire, fun c' hc => ?_, hsession, ?_⟩
    · rw [endTransfer_others u c _ _ hc, afterWriteAnswer_caller]
    · rw [endTransfer_err_caller, afterWriteAnswer_caller]
  · rintro rfl hreads
    rw [transmitStep, beginReceive_blocks (by rw [sentPhases_transport]; exact hreads)]
    refine ⟨sentPhases_wire u c _, sentPhases_session u c _, fun c' hc => ?_, ?_⟩
    · rw [State.hold, State.caller_mapCaller_other _ _ hc, sentPhases_caller_of_ne u hc, State.record_caller]
    · rw [State.caller_hold_self, sentPhases_caller_self, State.record_caller, Caller.hold]
  · rintro rfl r rest hreads
    have hready : (sentPhases u c (s.record (.write c b .ok))).transport.reads = r :: rest := by
      rw [sentPhases_transport]
      exact hreads
    obtain ⟨hwire, hsession, herr, hok, hothers⟩ := beginReceive_ended u c hready
    simp only [drawClean_fst, sentPhases_transport, sentPhases_session, State.record_session, State.record_transport]
      at hsession
    simp only [sentPhases_wire, State.record_wire, List.append_assoc, List.cons_append, List.nil_append] at hwire
    simp only [sentPhases_caller_self, State.record_caller] at herr hok
    rw [← drawClean_fst] at hsession
    refine ⟨hwire, hsession, herr, hok, fun c' hc => ?_⟩
    rw [transmitStep, hothers c' hc, sentPhases_caller_of_ne u hc, State.record_caller]

/-- A caller in its TX step that goes on ends it with one answer, the one that is ready or a free one (R91). -/
theorem transmitDrawn_ended (u : TransferUser) (c : CallerId) (b : Buffer) (s : State) :
    TransmitEnded s (transmitDrawn u c b s) c b (drawWrite s).1 (drawClean (drawWrite s).2).1 u := by
  have h := transmitStep_ended u c b (drawWrite s).1 (drawWrite s).2
  simp only [TransmitEnded, ReceiveEnded, drawWrite_wire, drawWrite_session, drawWrite_caller, drawWrite_reads] at h
  exact h

end Sys2Proof.Proofs

/-!
TRANSFER and EXCHANGE (R91, R92): what they check, carry and return, with an answer ready, with none, and with any answer once
the caller is held in a blocking step; and LOCK, of which they and SEND_REQUEST are users (R88).
-/

namespace Sys2Proof.Proofs

open Sys2Proof Sys2Proof.Machine

/-! ### Operations that change one caller -/

theorem onlyCaller_refl (s : State) (c : CallerId) : s.OnlyCaller s c :=
  ⟨rfl, rfl, rfl, rfl, rfl, fun _ _ => rfl⟩

theorem onlyCaller_trans {s t r : State} {c : CallerId} (h : s.OnlyCaller t c) (h' : t.OnlyCaller r c) :
    s.OnlyCaller r c := by
  obtain ⟨h1, h2, h3, h4, h5, h6⟩ := h
  obtain ⟨h1', h2', h3', h4', h5', h6'⟩ := h'
  exact ⟨h1'.trans h1, h2'.trans h2, h3'.trans h3, h4'.trans h4, h5'.trans h5, fun c' hc => (h6' c' hc).trans (h6 c' hc)⟩

/-- Taking or freeing the gate before and after a change of one caller. -/
theorem onlyCaller_setHolder {s t : State} {c : CallerId} (x : Option CallerId) (h : s.OnlyCaller t c) :
    (s.setHolder x).OnlyCaller (t.setHolder x) c := by
  obtain ⟨hsession, hissued, hschedule, htransport, hwire, hothers⟩ := h
  exact ⟨by simp [hsession], hissued, hschedule, htransport, hwire, hothers⟩

theorem setHolder_eq_self {s : State} {x : Option CallerId} (h : s.session.holder = x) : s.setHolder x = s := by
  rw [State.setHolder, ← h]

/-! ### Starting a transfer -/

/-- A byte sequence of the wrong length is not sent (R91). -/
theorem startTransfer_length {u : TransferUser} {c : CallerId} {bytes : List Byte} {s : State} (hs : s.session.state = .ready)
    (hl : bytes.length ≠ 16) : startTransfer u c bytes s = endTransfer u c (.err (.lengthMismatch 16 bytes.length)) s := by
  simp only [startTransfer, hs]
  exact if_pos hl

/-- With no answer to the write ready the caller is held in its TX step (R9, R91). -/
theorem startTransfer_blocks {u : TransferUser} {c : CallerId} {b : Buffer} {s : State} (hs : s.session.state = .ready)
    (hw : s.transport.writes = []) : startTransfer u c b.toList s = s.hold c (.atTransmit u b) := by
  rw [startTransfer_ready hs, beginTransmit_blocks hw]

/-- With an answer ready the TX step ends at once (R91; log 5). -/
theorem startTransfer_answered {c : CallerId} {s : State} {a : WriteAnswer} {ws : List WriteAnswer}
    (hs : s.session.state = .ready) (hw : s.transport.writes = a :: ws) (u : TransferUser) (b : Buffer) :
    TransmitEnded s (startTransfer u c b.toList s) c b a (drawClean s).1 u := by
  rw [startTransfer_ready hs, beginTransmit_ready hw]
  have h := transmitStep_ended u c b a { s with transport := { s.transport with writes := ws } }
  rw [drawClean_fst] at h ⊢
  exact h

/-- A transfer that fails gives the gate back to where it was: the caller alone has changed (R92, R94, R110). -/
theorem endTransfer_err_granted {u : TransferUser} (hu : ∀ x, gateAfter x u = none) {s : State}
    (hs : s.session.holder = none) (c : CallerId) (e : Error) :
    s.OnlyCaller (endTransfer u c (.err e) (s.setHolder (some c))) c ∧
      (endTransfer u c (.err e) (s.setHolder (some c))).caller c = afterTransferError (s.caller c) e u := by
  obtain ⟨hsession, htransport, hwire⟩ := endTransfer_frame u c (.err e) (s.setHolder (some c))
  have hframe := operationFrame_of_moves (moves_endTransfer u c (.err e) (s.setHolder (some c)))
  refine ⟨⟨?_, hframe.issued, hframe.schedule, htransport, hwire, hframe.others⟩, endTransfer_err_caller u c _ e⟩
  rw [hsession, hu, ← hs]
  rfl

theorem writeErrorOf_of_ne_ok {w : WriteAnswer} (h : w ≠ .ok) : ∃ e, writeErrorOf w = some e := by
  cases w with
  | ok => exact absurd rfl h
  | short n => exact ⟨_, rfl⟩
  | busy => exact ⟨_, rfl⟩
  | timeout => exact ⟨_, rfl⟩
  | disconnected => exact ⟨_, rfl⟩

theorem readErrorOf_of_ne_ok {r : ReadAnswer} (h : ∀ x, r ≠ .ok x) : ∃ e, readErrorOf r = some e := by
  cases r with
  | ok x => exact absurd rfl (h x)
  | short n => exact ⟨_, rfl⟩
  | busy => exact ⟨_, rfl⟩
  | timeout => exact ⟨_, rfl⟩
  | disconnected => exact ⟨_, rfl⟩

/-! ### TRANSFER -/

theorem exec_transfer_of_holder {c : CallerId} {s : State} (hs : s.session.holder = some c) (bytes : List Byte) :
    exec (.transfer c bytes) s = .next (startTransfer .raw c bytes s) := by
  simp only [exec, execTransfer, if_pos hs]

theorem exec_transfer_of_not_holder {c : CallerId} {s : State} (hs : s.session.holder ≠ some c) (bytes : List Byte) :
    exec (.transfer c bytes) s = .fault .notHolder := by
  simp only [exec, execTransfer, if_neg hs]

/-- A TRANSFER that fails keeps the gate and only answers (R91). -/
theorem endTransfer_raw_err_answersOnly (c : CallerId) (e : Error) (s : State) :
    s.AnswersOnly (endTransfer .raw c (.err e) s) c (.err e) :=
  s.raise_answersOnly c e

/-- Settles O28: the three checks come before the TX step, and each ends the transfer where it stands. -/
theorem transferChecksBeforeSending : Obligations.TransferChecksBeforeSending := by
  intro c bytes s
  refine ⟨Laws.RoundTrip.transfer c bytes rfl, fun h => exec_transfer_of_not_holder h bytes, fun h hs => ?_,
    fun h hs => ?_, fun h hs hl => ?_⟩
  · refine ⟨_, exec_transfer_of_holder h bytes, ?_⟩
    rw [startTransfer_unacquired hs]
    exact endTransfer_raw_err_answersOnly c _ s
  · refine ⟨_, exec_transfer_of_holder h bytes, ?_⟩
    rw [startTransfer_degraded hs]
    exact endTransfer_raw_err_answersOnly c _ s
  · refine ⟨_, exec_transfer_of_holder h bytes, ?_⟩
    rw [startTransfer_length hs hl]
    exact endTransfer_raw_err_answersOnly c _ s

/-- Settles O29: with both answers whole the transfer is the request's write, the response's read, and its end. -/
theorem transferCarriesRequestThenResponse : Obligations.TransferCarriesRequestThenResponse := by
  intro c b r ws rs s hh hs hw hr
  refine ⟨_, exec_transfer_of_holder hh b.toList, ?_⟩
  rw [startTransfer_whole hs hw hr]
  exact ⟨rfl, rfl, rfl, rfl, rfl, fun c' hc => endTransfer_others _ c _ _ hc, endTransfer_ok_caller .raw c _ r⟩

/-- Settles O30: an answer other than `Ok` ends the transfer in the TX step, with its own error and its effect on the session. -/
theorem failedTransmitMapsToError : Obligations.FailedTransmitMapsToError := by
  intro c b w ws clean cs s hh hs hw hc hne
  obtain ⟨e, he⟩ := writeErrorOf_of_ne_ok hne
  have hframe := operationFrame_of_moves (moves_startTransfer .raw c b.toList s)
  obtain ⟨hfailed, _⟩ := startTransfer_answered (c := c) hs hw .raw b
  obtain ⟨hwire, hothers, hsession, hcaller⟩ := hfailed e he
  have hreads : (startTransfer .raw c b.toList s).transport.reads = s.transport.reads := by
    rw [startTransfer_ready hs, beginTransmit_ready hw, transmitStep_of_error he]
    obtain ⟨_, htransport, _⟩ := endTransfer_frame .raw c (.err e)
      (afterWriteAnswer c b w { s with transport := { s.transport with writes := ws } })
    rw [htransport, afterWriteAnswer_reads]
  rw [drawClean_fst_of_ready hc, hs] at hsession
  refine ⟨_, exec_transfer_of_holder hh b.toList, hwire, hsession.trans ?_, hcaller.trans ?_, hothers, hframe.issued,
    hframe.schedule, hreads⟩
  · cases w <;> rfl
  · cases w <;> cases he <;> rfl

/-- Settles O31: after a whole transmit an answer other than `Ok` ends the transfer in the RX step, likewise. -/
theorem failedReceiveMapsToError : Obligations.FailedReceiveMapsToError := by
  intro c b ws r rs clean cs s hh hs hw hr hc hne
  obtain ⟨e, he⟩ := readErrorOf_of_ne_ok hne
  have hframe := operationFrame_of_moves (moves_startTransfer .raw c b.toList s)
  obtain ⟨_, _, hreceived⟩ := startTransfer_answered (c := c) hs hw .raw b
  obtain ⟨hwire, hsession, herr, _, hothers⟩ := hreceived rfl r rs hr
  rw [drawClean_fst_of_ready hc, hs] at hsession
  refine ⟨_, exec_transfer_of_holder hh b.toList, hwire, hsession.trans ?_, (herr e he).trans ?_, hothers, hframe.issued,
    hframe.schedule⟩
  · cases r <;> rfl
  · cases r <;> cases he <;> rfl

/-! ### EXCHANGE -/

theorem exec_exchange_of_free {c : CallerId} {s : State} (hs : s.session.holder = none) (bytes : List Byte) :
    exec (.exchange c bytes) s = .next (startTransfer .exchange c bytes (s.setHolder (some c))) := by
  simp only [exec, execExchange, takeGate_free hs, grantGate]

/-- Settles O34: EXCHANGE takes the free gate, carries both packets as TRANSFER does, and frees the gate at the transfer's end. -/
theorem exchangeReturnsResponseAndFreesGate : Obligations.ExchangeReturnsResponseAndFreesGate := by
  intro c b r ws rs s hh hs hw hr
  refine ⟨_, exec_exchange_of_free hh b.toList, ?_⟩
  rw [startTransfer_whole (s := s.setHolder (some c)) hs hw hr]
  refine ⟨?_, rfl, rfl, rfl, rfl, fun c' hc => endTransfer_others _ c _ _ hc, endTransfer_ok_caller .exchange c _ r⟩
  obtain ⟨hsession, _⟩ := endTransfer_frame .exchange c (.ok r) (carriedWhole .exchange c b r ws rs (s.setHolder (some c)))
  rw [hsession, gateAfter, ← hh]
  rfl

/-! ### The gate -/

/-- The holder's own LOCK is refused, with the gate as it was (R88). -/
theorem takeGate_reentrant {u : GateUser} {c : CallerId} {s : State} (h : s.session.holder = some c) :
    takeGate u c s = reentrantGate u c s := by
  simp [takeGate, h]

/-- A waiter scheduled at a held gate moves the schedule alone (R88; log 19). -/
theorem step_atLock_held {s : State} {c : CallerId} {u : GateUser} {agents : List Agent}
    (hs : s.schedule = .caller c :: agents) (hh : (s.caller c).held = some (.atLock u)) (hg : s.session.holder ≠ none) :
    step s = .next { s with schedule := agents } := by
  rw [step_goOn hs hh]
  exact congrArg _ (resume_atLock_held (s := { s with schedule := agents }) hg)

/-- A waiter scheduled at a free gate is granted it (R88, R90). -/
theorem step_atLock_free {s : State} {c : CallerId} {u : GateUser} {agents : List Agent}
    (hs : s.schedule = .caller c :: agents) (hh : (s.caller c).held = some (.atLock u)) (hg : s.session.holder = none) :
    step s = .next (grantGate u c { s with schedule := agents }) := by
  rw [step_goOn hs hh]
  exact congrArg _ (resume_atLock_free (s := { s with schedule := agents }) hg)

/-- Settles O26: LOCK looks at the gate's holder alone, and so does a waiter that is scheduled. -/
theorem lockGrantsRejectsOrHolds : Obligations.LockGrantsRejectsOrHolds := by
  intro c s
  have hgrant (r : State) : (grantGate .lock c r).session = { r.session with holder := some c } ∧
      (∀ c', c' ≠ c → (grantGate .lock c r).caller c' = r.caller c') ∧
      (grantGate .lock c r).caller c = { r.caller c with held := none, ret := some (.ok .unit) } :=
    ⟨rfl, fun _ hc => caller_succeed_of_ne hc (r.setHolder (some c)) _, State.caller_succeed_self (r.setHolder (some c)) c _⟩
  refine ⟨Laws.RoundTrip.lock c rfl, fun hh => ?_, fun hh => ?_, fun ⟨c', hne, hh⟩ => ?_, fun agents hs hheld => ?_⟩
  · exact ⟨_, congrArg Host.Outcome.next (takeGate_reentrant hh), s.raise_answersOnly c _⟩
  · obtain ⟨hsession, hothers, hcaller⟩ := hgrant s
    exact ⟨_, congrArg Host.Outcome.next (takeGate_free hh), hsession, rfl, rfl, rfl, rfl, hothers, hcaller⟩
  · exact ⟨_, congrArg Host.Outcome.next (takeGate_held hh hne), s.hold_onlyCaller c _⟩
  · by_cases hg : s.session.holder = none
    · obtain ⟨hsession, hothers, hcaller⟩ := hgrant { s with schedule := agents }
      exact ⟨_, step_atLock_free hs hheld hg, rfl, rfl, rfl, rfl, hothers, fun h => absurd hg h,
        fun _ => ⟨hsession, hcaller⟩⟩
    · exact ⟨_, step_atLock_held hs hheld hg, rfl, rfl, rfl, rfl, fun _ _ => rfl, fun _ => ⟨rfl, rfl⟩,
        fun h => absurd h hg⟩

end Sys2Proof.Proofs

/-!
SEND_REQUEST where it stops or waits (R94 to R98): at the gate, in the session's state, in either blocking step; and the typed
response.
-/

namespace Sys2Proof.Proofs

open Sys2Proof Sys2Proof.Machine

/-! ### How an exchange stands when it stops -/

/-- The holder's own request is rejected, as a failed transfer is (R97, R100). -/
theorem settle_rejected_eq (k : Caller) (e : Error) (v : Variant) (tid a : Nat) :
    k.settle .rejected (.err e) = afterTransferError k e (.request v tid a) := by
  simp only [afterTransferError, Caller.settle, Caller.enter, Caller.finish, List.append_assoc, List.cons_append,
    List.nil_append]
  rfl

/-- An exchange that has stopped, from the caller that it stopped: a caller `k` on `path` that differs from the one in which the
exchange began by its phase, its request and its path alone. -/
theorem sendStopped_of_afterTransferError {s t : State} {c : CallerId} {k : Caller} {e : Error} {v : Variant} {tid a : Nat}
    {path : List Phase} (hissued : t.issued = s.issued) (hschedule : t.schedule = s.schedule)
    (hothers : ∀ c', c' ≠ c → t.caller c' = s.caller c')
    (hcaller : t.caller c = afterTransferError k e (.request v tid a)) (hregs : k.regs = (s.caller c).regs)
    (hresp : k.xs.resp = (s.caller c).xs.resp) (hbytes : k.xs.respBytes = (s.caller c).xs.respBytes)
    (hpath : k.xs.path = (s.caller c).xs.phase :: path) :
    SendStopped s t c (path ++ [.rejected, .idle]) e ∧ t.packet c .req = k.xs.req := by
  refine ⟨⟨hissued, hschedule, hothers, fun n => ?_, ?_, ?_⟩, ?_⟩
  · simp only [State.packet, Caller.packet, hcaller, afterTransferError, hregs]
  · simp only [State.packet, Caller.packet, hcaller, afterTransferError, hresp]
  · simp only [hcaller, afterTransferError, hbytes, hpath, List.cons_append, and_self]
  · simp only [State.packet, Caller.packet, hcaller, afterTransferError]

section Request

variable {c : CallerId} {v : Variant} {tid f a d : Nat} {s : State}

/-- The request that a caller has built is its own `req`. -/
theorem builtCaller_enter (k : Caller) (q : Packet) (v : Variant) (tid a : Nat) :
    afterTransmit (builtCaller k q) (.request v tid a) = awaitingCaller k q := rfl

/-- A SEND_REQUEST that finds the gate free and fails before its TX step leaves its caller alone changed (R95, R97). -/
theorem grantGate_request_fails {r : State} {b : Buffer} {e : Error} (hg : r.session.holder = none)
    (he : startTransfer (.request v tid a) c b.toList (r.setHolder (some c)) =
      endTransfer (.request v tid a) c (.err e) (r.setHolder (some c))) :
    r.OnlyCaller (grantGate (.request v tid a b) c r) c ∧
      (grantGate (.request v tid a b) c r).caller c = afterTransferError (r.caller c) e (.request v tid a) := by
  rw [grantGate, he]
  exact endTransfer_err_granted (fun _ => rfl) hg c e

/-- A SEND_REQUEST stopped in `Built` (R97): nothing of the session, the transport or the wire has changed. -/
theorem sendStopped_in_built {r t : State} {e : Error} (hr : s.OnlyCaller r c)
    (hbuilt : r.caller c = builtCaller (s.caller c) (requestPacket v tid f a d)) (ht : r.OnlyCaller t c)
    (hcaller : t.caller c = afterTransferError (r.caller c) e (.request v tid a)) :
    t.session = s.session ∧ t.wire = s.wire ∧ t.transport = s.transport ∧
      SendStopped s t c [.built, .rejected, .idle] e ∧ t.packet c .req = requestPacket v tid f a d := by
  obtain ⟨hsession, hissued, hschedule, htransport, hwire, hothers⟩ := onlyCaller_trans hr ht
  rw [hbuilt] at hcaller
  exact ⟨hsession, hwire, htransport,
    sendStopped_of_afterTransferError (path := [.built]) hissued hschedule hothers hcaller rfl rfl rfl rfl⟩

/-- A SEND_REQUEST that finds the gate free in a `Ready` session, with its answers ready, ends its TX step at once (R91). -/
theorem grantGate_request_ended {r : State} {w : WriteAnswer} {ws : List WriteAnswer} {clean : Bool} {cs : List Bool}
    (hr : s.OnlyCaller r c) (hs : s.session.state = .ready) (hw : s.transport.writes = w :: ws)
    (hc : s.transport.cleans = clean :: cs) (b : Buffer) :
    TransmitEnded (r.setHolder (some c)) (grantGate (.request v tid a b) c r) c b w clean (.request v tid a) := by
  obtain ⟨hsession, _, _, htransport, _⟩ := hr
  have hclean : (drawClean (r.setHolder (some c))).1 = clean :=
    drawClean_fst_of_ready (rest := cs) (by rw [State.setHolder_transport, htransport, hc])
  rw [← hclean]
  exact startTransfer_answered (by rw [State.setHolder_session, hsession, hs])
    (by rw [State.setHolder_transport, htransport, hw]) (.request v tid a) b

/-- A SEND_REQUEST whose transfer has failed, as `SendStopped` has it: the gate is free again, as it was found. -/
theorem sendStopped_after_transfer {r t : State} {k : Caller} {e : Error} {st : SessionState} {w : List WireEvent}
    {path : List Phase} (hr : s.OnlyCaller r c) (hg : s.session.holder = none) (hframe : OperationFrame c r t)
    (hsession : t.session = { (r.setHolder (some c)).session with
      state := st, holder := gateAfter (r.setHolder (some c)).session.holder (.request v tid a) })
    (hwire : t.wire = (r.setHolder (some c)).wire ++ w)
    (hcaller : t.caller c = afterTransferError k e (.request v tid a)) (hregs : k.regs = (s.caller c).regs)
    (hresp : k.xs.resp = (s.caller c).xs.resp) (hbytes : k.xs.respBytes = (s.caller c).xs.respBytes)
    (hpath : k.xs.path = (s.caller c).xs.phase :: path) :
    t.session = { s.session with state := st } ∧ t.wire = s.wire ++ w ∧ t.packet c .req = k.xs.req ∧
      SendStopped s t c (path ++ [.rejected, .idle]) e := by
  obtain ⟨hsession', hissued, hschedule, _, hwire', hothers⟩ := hr
  obtain ⟨hstopped, hreq⟩ := sendStopped_of_afterTransferError (hframe.issued.trans hissued)
    (hframe.schedule.trans hschedule) (fun c' hc' => (hframe.others c' hc').trans (hothers c' hc')) hcaller hregs hresp
    hbytes hpath
  refine ⟨?_, ?_, hreq, hstopped⟩
  · rw [hsession, State.setHolder_session, hsession', gateAfter, ← hg]
  · rw [hwire, State.setHolder_wire, hwire']

end Request

/-! ### The gate, the session's state, a failed transmit or receive -/

/-- Settles O42: the request is built and stands in `req` before the gate is asked; each of the four ends then leaves the caller
that error, and the gate as it was or free. -/
theorem sendRequestStopsAtGateOrTransfer : Obligations.SendRequestStopsAtGateOrTransfer := by
  intro c v tid f a d s ha hd ht hf
  obtain ⟨r, hexec, hr, hbuilt⟩ := exec_sendRequest_of_fits c s ha hd ht hf
  have ⟨hsession, _, _, htransport, _⟩ := hr
  have hframe := operationFrame_of_moves (moves_grantGate (.request v tid a (requestBytes v tid f a d)) c r)
  refine ⟨fun hh => ?_, fun hh hs => ?_, fun hh hs w ws clean cs e he hw hc => ?_,
    fun hh hs ws x rs clean cs e he hw hx hc => ?_⟩
  · rw [takeGate_reentrant (by rw [hsession, hh])] at hexec
    have hcaller : (rejectExchange c .reentrantLock r).caller c =
        afterTransferError (r.caller c) .reentrantLock (.request v tid a) :=
      (State.caller_mapCaller_self r c _).trans (settle_rejected_eq _ _ v tid a)
    obtain ⟨h1, h2, h3, h4, h5⟩ := sendStopped_in_built hr hbuilt (r.onlyCaller_mapCaller c _) hcaller
    exact ⟨_, hexec, h1, h2, h3, h5, h4⟩
  · have hg : r.session.holder = none := by rw [hsession, hh]
    rw [takeGate_free hg] at hexec
    obtain ⟨honly, hcaller⟩ := grantGate_request_fails hg
      (startTransfer_unacquired (u := .request v tid a) (c := c) (bytes := (requestBytes v tid f a d).toList)
        (s := r.setHolder (some c)) (by rw [State.setHolder_session, hsession, hs]))
    obtain ⟨h1, h2, h3, h4, h5⟩ := sendStopped_in_built hr hbuilt honly hcaller
    exact ⟨_, hexec, h1, h2, h3, h5, h4⟩
  · have hready : (r.setHolder (some c)).session.state = .ready := by rw [State.setHolder_session, hsession, hs]
    rw [takeGate_free (by rw [hsession, hh])] at hexec
    obtain ⟨hfailed, _⟩ := grantGate_request_ended (v := v) (tid := tid) (a := a) hr hs hw hc (requestBytes v tid f a d)
    obtain ⟨hwire, _, hsession', hcaller⟩ := hfailed e he
    rw [State.setHolder_caller, hbuilt] at hcaller
    rw [hready] at hsession'
    have hstopped := sendStopped_after_transfer (path := [.built]) hr hh hframe hsession' hwire hcaller rfl rfl rfl rfl
    exact ⟨_, hexec, hstopped⟩
  · have hready : (r.setHolder (some c)).session.state = .ready := by rw [State.setHolder_session, hsession, hs]
    rw [takeGate_free (by rw [hsession, hh])] at hexec
    obtain ⟨_, _, hreceived⟩ := grantGate_request_ended (v := v) (tid := tid) (a := a) hr hs hw hc (requestBytes v tid f a d)
    obtain ⟨hwire, hsession', herr, _, _⟩ := hreceived rfl x rs (by rw [State.setHolder_transport, htransport, hx])
    have hcaller := herr e he
    rw [State.setHolder_caller, hbuilt, builtCaller_enter] at hcaller
    rw [hready] at hsession'
    have hstopped := sendStopped_after_transfer (path := [.built, .sent, .awaitingResponse]) hr hh hframe hsession' hwire
      hcaller rfl rfl rfl rfl
    exact ⟨_, hexec, hstopped⟩

/-! ### The Degraded session -/

/-- An EXCHANGE that gets the gate in a `Degraded` session only answers (R110). -/
theorem startTransfer_exchange_degraded {s : State} (hs : s.session.state = .degraded) (hg : s.session.holder = none)
    (c : CallerId) (bytes : List Byte) :
    s.AnswersOnly (startTransfer .exchange c bytes (s.setHolder (some c))) c (.err .degraded) := by
  rw [startTransfer_degraded (s := s.setHolder (some c)) hs]
  exact endTransfer_err_granted (fun _ => rfl) hg c .degraded

/-- Settles O35: the session's state is looked at before anything is sent, by a command and by a waiter that is granted the gate
alike. -/
theorem degradedSessionFailsFast : Obligations.DegradedSessionFailsFast := by
  intro c s hs
  have hrequest {r : State} (hr : r.session.state = .degraded) (hg : r.session.holder = none) (v : Variant) (tid a : Nat)
      (b : Buffer) := grantGate_request_fails (v := v) (tid := tid) (a := a) (b := b) hg
    (startTransfer_degraded (c := c) (s := r.setHolder (some c)) hr)
  refine ⟨fun bytes hh => ?_, fun bytes hg => ?_, fun v tid f a d hg ha hd ht hf => ?_, fun agents hsched hg =>
    ⟨fun bytes hheld => ?_, fun v tid a b hheld => ?_⟩⟩
  · refine ⟨_, exec_transfer_of_holder hh bytes, ?_⟩
    rw [startTransfer_degraded hs]
    exact endTransfer_raw_err_answersOnly c _ s
  · exact ⟨_, exec_exchange_of_free hg bytes, startTransfer_exchange_degraded hs hg c bytes⟩
  · obtain ⟨r, hexec, hr, hbuilt⟩ := exec_sendRequest_of_fits c s ha hd ht hf
    have hsession : r.session = s.session := hr.1
    rw [takeGate_free (by rw [hsession, hg])] at hexec
    obtain ⟨honly, hcaller⟩ := hrequest (r := r) (by rw [hsession, hs]) (by rw [hsession, hg]) v tid a
      (requestBytes v tid f a d)
    obtain ⟨h1, h2, h3, h4, _⟩ := sendStopped_in_built hr hbuilt honly hcaller
    exact ⟨_, hexec, h1, h2, h3, h4⟩
  · exact ⟨_, step_atLock_free hsched hheld hg,
      startTransfer_exchange_degraded (s := { s with schedule := agents }) hs hg c bytes⟩
  · exact ⟨_, step_atLock_free hsched hheld hg, hrequest (r := { s with schedule := agents }) hs hg v tid a b⟩

/-! ### The response -/

/-- Settles O36: a valid response that echoes the request is decoded, validated and returned field by field. -/
theorem sendRequestReturnsTypedResponse : Obligations.SendRequestReturnsTypedResponse := by
  intro c v tid f a d ws t rs s
  refine ⟨Laws.RoundTrip.sendRequest c (indexOf v) tid f a d (ofIndex_indexOf v), fun h hvalid ht ha => ?_⟩
  obtain ⟨u, hexec, hreceived, hresp⟩ := exec_sendRequest_of_echo h hvalid ht ha c
  subst ht ha
  exact ⟨u, hexec, hreceived, hresp⟩

/-- Settles O39: what DECODE refuses ends the exchange with `resp` as it was; what VALIDATE refuses ends it with `resp` decoded. -/
theorem badResponseRejectsExchange : Obligations.BadResponseRejectsExchange := by
  intro c v tid f a d ws t rs s h
  have hundecodable {e : Error} (he : decodePacket v t.toList = .err e) :
      ∃ u, exec (.sendRequest c (indexOf v) tid f a d) s = .next u ∧ u.packet c .resp = s.packet c .resp ∧
        SendReceived s u c v tid f a d ws t rs [.built, .sent, .awaitingResponse, .rejected, .idle] (.err e) := by
    obtain ⟨u, hexec, hreceived, hresp⟩ := exec_sendRequest_of_undecodable h he c
    exact ⟨u, hexec, hresp, hreceived⟩
  have hviolates {x : Violation} (hm : byteAt t 0 = magicOf v) (hx : violationOf v (responsePacket v t) = some x) :
      ∃ u, exec (.sendRequest c (indexOf v) tid f a d) s = .next u ∧ u.packet c .resp = responsePacket v t ∧
        SendReceived s u c v tid f a d ws t rs [.built, .sent, .awaitingResponse, .decoded, .rejected, .idle]
          (.err (.validationError x)) := by
    obtain ⟨u, hexec, hreceived, hresp⟩ :=
      exec_sendRequest_of_judged h hm fun s => judgeResponse_of_violation c s hx
    exact ⟨u, hexec, hresp, hreceived⟩
  refine ⟨fun hm => hundecodable (decodePacket_unassigned hm), fun w hw hm => hundecodable (decodePacket_other hw hm),
    fun hm hf => hviolates hm (violationOf_reservedFlagBits hm hf), fun hm hf i hle hlt hne hzero => hviolates hm ?_⟩
  rw [violationOf_padding (q := responsePacket v t) hm hf,
    firstNonzeroFrom_eq_some (buf := (responsePacket v t).buf) hle hlt hne hzero, Option.map_some]

end Sys2Proof.Proofs

/-!
Operations in progress: a transfer in a blocking step goes on with any answer (R91), EXCHANGE is LOCK, TRANSFER and UNLOCK (R59,
R92), and a SEND_REQUEST that waits at the gate goes on with its own request (R96).
-/

namespace Sys2Proof.Proofs

open Sys2Proof Sys2Proof.Machine

/-! ### The blocking steps -/

/-- A granted EXCHANGE with no answer to its write ready is held in its TX step (R91, R92). -/
theorem grantGate_exchange_blocks {c : CallerId} {b : Buffer} {s : State} (hs : s.session.state = .ready)
    (hw : s.transport.writes = []) :
    grantGate (.exchange b.toList) c s = (s.setHolder (some c)).hold c (.atTransmit .exchange b) :=
  startTransfer_blocks (s := s.setHolder (some c)) hs hw

/-- A granted SEND_REQUEST likewise (R91, R94). -/
theorem grantGate_request_blocks {c : CallerId} {v : Variant} {tid a : Nat} {b : Buffer} {s : State}
    (hs : s.session.state = .ready) (hw : s.transport.writes = []) :
    grantGate (.request v tid a b) c s = (s.setHolder (some c)).hold c (.atTransmit (.request v tid a) b) :=
  startTransfer_blocks (s := s.setHolder (some c)) hs hw

/-- Settles O32: with no answer ready the caller is held at the step, and once it is scheduled one answer, whatever it is, ends
the step as R91, R92 and R94 say. -/
theorem transferBlocksUntilAnswered : Obligations.TransferBlocksUntilAnswered := by
  intro c b s
  refine ⟨fun hh hs hw => ?_, fun hg hs hw => ⟨?_, fun v tid f a d ha hd ht hf => ?_⟩, fun u agents hsched =>
    ⟨fun hheld => ?_, fun hheld => ?_⟩⟩
  · refine ⟨_, exec_transfer_of_holder hh b.toList, ?_⟩
    rw [startTransfer_blocks hs hw]
    exact s.hold_onlyCaller c _
  · refine ⟨_, congrArg Host.Outcome.next (takeGate_free hg), ?_⟩
    rw [grantGate_exchange_blocks hs hw]
    exact (s.setHolder (some c)).hold_onlyCaller c _
  · obtain ⟨r, hexec, hr, hbuilt⟩ := exec_sendRequest_of_fits c s ha hd ht hf
    have ⟨hsession, _, _, htransport, _, _⟩ := hr
    rw [takeGate_free (by rw [hsession, hg]),
      grantGate_request_blocks (by rw [hsession, hs]) (by rw [htransport, hw])] at hexec
    obtain ⟨honly, hcaller⟩ := (r.setHolder (some c)).hold_onlyCaller c
      (.atTransmit (.request v tid a) (requestBytes v tid f a d))
    rw [State.setHolder_caller, hbuilt] at hcaller
    exact ⟨_, hexec, onlyCaller_trans (onlyCaller_setHolder (some c) hr) honly, hcaller⟩
  · have hframe := operationFrame_of_moves (moves_transmitDrawn u c b { s with schedule := agents })
    refine ⟨_, _, _, step_goOn hsched hheld, hframe.issued, hframe.schedule, fun x rest hx => ?_, fun x rest hx => ?_,
      transmitDrawn_ended u c b { s with schedule := agents }⟩
    · exact drawWrite_fst_of_ready (s := { s with schedule := agents }) hx
    · exact drawClean_fst_of_ready ((drawWrite_cleans { s with schedule := agents }).trans hx)
  · have hframe := operationFrame_of_moves (moves_receiveDrawn u c { s with schedule := agents })
    refine ⟨_, _, _, step_goOn hsched hheld, hframe.issued, hframe.schedule, fun x rest hx => ?_, fun x rest hx => ?_,
      receiveDrawn_ended u c { s with schedule := agents }⟩
    · exact drawRead_fst_of_ready (s := { s with schedule := agents }) hx
    · exact drawClean_fst_of_ready ((drawRead_cleans { s with schedule := agents }).trans hx)

/-! ### EXCHANGE is LOCK, TRANSFER and UNLOCK -/

/-- The state with other callers: what the transport, the session and the wire do does not depend on them. -/
def withCallers (s : State) (ks : List (Nat × Caller)) : State := { s with callers := ks }

theorem caller_withCallers (r s : State) (c : CallerId) : (withCallers r s.callers).caller c = s.caller c := rfl

theorem applyResidue_withCallers (s : State) (ks : List (Nat × Caller)) :
    applyResidue (withCallers s ks) = withCallers (applyResidue s) ks := by
  cases h : s.transport.cleans with
  | nil =>
    simp only [applyResidue, drawClean, withCallers, h]
    split <;> rfl
  | cons clean rest =>
    rw [applyResidue_ready h, applyResidue_ready (s := withCallers s ks) h]
    split <;> rfl

theorem afterReadAnswer_withCallers (c : CallerId) (a : ReadAnswer) (s : State) (ks : List (Nat × Caller)) :
    afterReadAnswer c a (withCallers s ks) = withCallers (afterReadAnswer c a s) ks := by
  have hrecord : (withCallers s ks).record (.read c a) = withCallers (s.record (.read c a)) ks := rfl
  cases a with
  | ok t => rfl
  | disconnected => rfl
  | short n => simp only [afterReadAnswer, hrecord, applyResidue_withCallers]
  | busy => simp only [afterReadAnswer, hrecord, applyResidue_withCallers]
  | timeout => simp only [afterReadAnswer, hrecord, applyResidue_withCallers]

theorem afterWriteAnswer_withCallers (c : CallerId) (b : Buffer) (a : WriteAnswer) (s : State) (ks : List (Nat × Caller)) :
    afterWriteAnswer c b a (withCallers s ks) = withCallers (afterWriteAnswer c b a s) ks := by
  have hrecord : (withCallers s ks).record (.write c b a) = withCallers (s.record (.write c b a)) ks := rfl
  cases a with
  | ok => rfl
  | busy => rfl
  | disconnected => rfl
  | short n => simp only [afterWriteAnswer, hrecord, applyResidue_withCallers]
  | timeout => simp only [afterWriteAnswer, hrecord, applyResidue_withCallers]

/-- A TRANSFER among callers `ks` and an EXCHANGE's transfer among callers `ks'`, otherwise begun alike, end alike, or the
TRANSFER is held and has no result yet (R91, R92). -/
inductive EndAlike (c : CallerId) (ks ks' : List (Nat × Caller)) : State → State → Prop
  | ended (x : Result Buffer) (s : State) :
      EndAlike c ks ks' (endTransfer .raw c x (withCallers s ks)) (endTransfer .exchange c x (withCallers s ks'))
  | held {t t' : State} (h : (t.caller c).ret = none) : EndAlike c ks ks' t t'

section EndAlike

variable (c : CallerId) (ks ks' : List (Nat × Caller)) (s : State)

theorem receiveStep_endAlike (a : ReadAnswer) :
    EndAlike c ks ks' (receiveStep .raw c a (withCallers s ks)) (receiveStep .exchange c a (withCallers s ks')) := by
  rw [receiveStep_eq, receiveStep_eq, afterReadAnswer_withCallers, afterReadAnswer_withCallers]
  exact .ended _ _

theorem beginReceive_endAlike :
    EndAlike c ks ks' (beginReceive .raw c (withCallers s ks)) (beginReceive .exchange c (withCallers s ks')) := by
  cases hr : s.transport.reads with
  | nil =>
    rw [beginReceive_blocks (s := withCallers s ks) hr]
    exact .held (by simp)
  | cons a rest =>
    rw [beginReceive_ready (s := withCallers s ks) hr, beginReceive_ready (s := withCallers s ks') hr]
    exact receiveStep_endAlike c ks ks' { s with transport := { s.transport with reads := rest } } a

theorem transmitStep_endAlike (b : Buffer) (a : WriteAnswer) :
    EndAlike c ks ks' (transmitStep .raw c b a (withCallers s ks)) (transmitStep .exchange c b a (withCallers s ks')) := by
  by_cases ha : a = .ok
  · subst ha
    exact beginReceive_endAlike c ks ks' (s.record (.write c b .ok))
  · obtain ⟨e, he⟩ := writeErrorOf_of_ne_ok ha
    rw [transmitStep_of_error he, transmitStep_of_error he, afterWriteAnswer_withCallers, afterWriteAnswer_withCallers]
    exact .ended _ _

theorem startTransfer_endAlike (bytes : List Byte) :
    EndAlike c ks ks' (startTransfer .raw c bytes (withCallers s ks))
      (startTransfer .exchange c bytes (withCallers s ks')) := by
  cases hs : s.session.state with
  | unacquired =>
    rw [startTransfer_unacquired (s := withCallers s ks) hs, startTransfer_unacquired (s := withCallers s ks') hs]
    exact .ended _ s
  | degraded =>
    rw [startTransfer_degraded (s := withCallers s ks) hs, startTransfer_degraded (s := withCallers s ks') hs]
    exact .ended _ s
  | ready =>
    by_cases hl : bytes.length = 16
    · rw [← toList_bufferOf hl, startTransfer_ready (s := withCallers s ks) hs, startTransfer_ready (s := withCallers s ks') hs]
      cases hw : s.transport.writes with
      | nil =>
        rw [beginTransmit_blocks (s := withCallers s ks) hw]
        exact .held (by simp)
      | cons a rest =>
        rw [beginTransmit_ready (s := withCallers s ks) hw, beginTransmit_ready (s := withCallers s ks') hw]
        exact transmitStep_endAlike c ks ks' { s with transport := { s.transport with writes := rest } } _ a
    · rw [startTransfer_length (s := withCallers s ks) hs hl, startTransfer_length (s := withCallers s ks') hs hl]
      exact .ended _ s

end EndAlike

/-- An EXCHANGE that takes the free gate ends as LOCK, TRANSFER and UNLOCK do one after the other (R59, R92). -/
theorem exchange_alike_lock_transfer_unlock {c : CallerId} {bytes : List Byte} {s s2 s3 : State} {x : Result Value}
    (htransfer : exec (.transfer c bytes) ((s.setHolder (some c)).succeed c .unit) = .next s2)
    (hret : (s2.caller c).ret = some x) (hunlock : exec (.unlock c) s2 = .next s3) :
    (startTransfer .exchange c bytes (s.setHolder (some c))).Alike (s3.mapCaller c fun k => { k with ret := some x }) := by
  rw [exec_transfer_of_holder rfl] at htransfer
  have hs2 := Host.Outcome.next.inj htransfer
  have hlike : EndAlike c ((s.setHolder (some c)).succeed c .unit).callers s.callers s2
      (startTransfer .exchange c bytes (s.setHolder (some c))) :=
    hs2 ▸ startTransfer_endAlike c _ s.callers (s.setHolder (some c)) bytes
  generalize startTransfer .exchange c bytes (s.setHolder (some c)) = t at hlike
  cases hlike with
  | held h =>
    rw [h] at hret
    cases hret
  | ended y r =>
    have hholder : (endTransfer .raw c y (withCallers r ((s.setHolder (some c)).succeed c .unit).callers)).session.holder =
        some c := by
      by_contra hne
      rw [exec_unlock_of_not_holder hne] at hunlock
      cases hunlock
    rw [exec_unlock_of_holder hholder] at hunlock
    obtain rfl := Host.Outcome.next.inj hunlock
    rw [endTransfer, State.caller_mapCaller_self, Caller.finish_ret] at hret
    obtain rfl := Option.some.inj hret
    refine ⟨rfl, rfl, rfl, rfl, rfl, fun c' => ?_⟩
    by_cases hc : c' = c
    · subst hc
      simp only [endTransfer, State.caller_mapCaller_self, State.caller_succeed_self, State.setHolder_caller,
        caller_withCallers]
      rfl
    · simp only [endTransfer, State.caller_mapCaller_other _ _ hc, caller_succeed_of_ne hc, State.setHolder_caller,
        caller_withCallers]

/-- Settles O33: EXCHANGE is a user of LOCK, at the gate and as a waiter, and its transfer is TRANSFER's. -/
theorem exchangeIsLockTransferUnlock : Obligations.ExchangeIsLockTransferUnlock := by
  intro c bytes s
  refine ⟨Laws.RoundTrip.exchange c bytes rfl, fun hh => ?_, fun ⟨c', hne, hh⟩ => ?_, fun agents hsched hheld =>
    ⟨step_atLock_held hsched hheld, fun hg => ?_⟩, fun s1 s2 s3 x hg hlock htransfer hret hunlock => ?_⟩
  · exact ⟨_, congrArg Host.Outcome.next (takeGate_reentrant hh), s.raise_answersOnly c _⟩
  · exact ⟨_, congrArg Host.Outcome.next (takeGate_held hh hne), s.hold_onlyCaller c _⟩
  · rw [step_atLock_free hsched hheld hg, exec_exchange_of_free (s := { s with schedule := agents }) hg]
    rfl
  · have hlock' : exec (.lock c) s = .next ((s.setHolder (some c)).succeed c .unit) :=
      congrArg Host.Outcome.next (takeGate_free hg)
    rw [hlock'] at hlock
    obtain rfl := Host.Outcome.next.inj hlock
    exact ⟨_, exec_exchange_of_free hg bytes, exchange_alike_lock_transfer_unlock htransfer hret hunlock⟩

/-! ### A SEND_REQUEST that waits -/

/-- What a transfer that received a request's response leaves of its caller (R94, R98 to R103). -/
theorem caller_of_received_response {s t : State} {c : CallerId} {k : Caller} {v : Variant} {tid a : Nat} {x : Buffer}
    {clean : Bool} (h : ReceiveEnded s t c k (.ok x) clean (.request v tid a)) :
    t.session = { s.session with holder := none } ∧
      ∃ path y, ResponseJudged v tid a x path y ∧ (t.caller c).xs.result = some y ∧
        (t.caller c).ret = some (resultMap .response y) ∧ t.packet c .req = k.xs.req ∧ (t.caller c).held = none ∧
        (t.caller c).xs.phase = .idle ∧ (t.caller c).xs.respBytes = some x := by
  obtain ⟨hsession, _, hok, _⟩ := h
  obtain ⟨path, y, hj, hcaller⟩ := hok x rfl
  refine ⟨hsession, path, y, hj, ?_⟩
  simp only [State.packet, Caller.packet, hcaller, and_self]

/-- Settles O43: the request stands in `req` and in the hold, and whatever the session is by the time the gate is granted, the
waiter goes on with it as R91 and R94 say. -/
theorem sendRequestWaitsInBuilt : Obligations.SendRequestWaitsInBuilt := by
  rintro c v tid f a d s ha hd ht hf ⟨c', hne, hh⟩
  obtain ⟨r, hexec, hr, hbuilt⟩ := exec_sendRequest_of_fits c s ha hd ht hf
  rw [takeGate_held (c' := c') (by rw [hr.1, hh]) hne] at hexec
  obtain ⟨honly, hcaller⟩ := r.hold_onlyCaller c (.atLock (.request v tid a (requestBytes v tid f a d)))
  rw [hbuilt] at hcaller
  have hheld := congrArg Caller.held hcaller
  have hreq : (((r.hold c (.atLock (.request v tid a (requestBytes v tid f a d)))).caller c).xs.req) =
    requestPacket v tid f a d := congrArg (fun k => k.xs.req) hcaller
  refine ⟨_, hexec, onlyCaller_trans hr honly, congrArg (fun k => k.xs.phase) hcaller, hheld, congrArg Caller.ret hcaller,
    hreq, fun agents w hcallers hsched => ?_⟩
  generalize r.hold c (.atLock (.request v tid a (requestBytes v tid f a d))) = u at *
  have hw : w.caller c = u.caller c := congrArg (fun ks => storeGet Caller.fresh ks c) hcallers
  have hwheld := (congrArg Caller.held hw).trans hheld
  have hanswered (hs : w.session.state = .ready) {x : WriteAnswer} {ws : List WriteAnswer}
      (hx : w.transport.writes = x :: ws) := startTransfer_answered (c := c)
    (s := { w with schedule := agents, session := { w.session with holder := some c } }) hs hx (.request v tid a)
    (requestBytes v tid f a d)
  refine ⟨fun hg => ?_, fun hg hs => ?_, fun hg hs hwr => ?_, fun hg hs x ws hx => ?_, fun hg hs ws x rs hws hrs => ?_⟩
  · exact ⟨_, step_atLock_held hsched hwheld hg, onlyCaller_refl _ c, hw⟩
  · obtain ⟨h1, h2⟩ := grantGate_request_fails (v := v) (tid := tid) (a := a) (b := requestBytes v tid f a d)
      (r := { w with schedule := agents }) hg
      (startTransfer_unacquired (c := c) (s := State.setHolder { w with schedule := agents } (some c)) hs)
    exact ⟨_, step_atLock_free hsched hwheld hg, h1, h2.trans (hw ▸ rfl)⟩
  · refine ⟨_, step_atLock_free hsched hwheld hg, ?_⟩
    rw [grantGate_request_blocks (s := { w with schedule := agents }) hs hwr]
    obtain ⟨h1, h2⟩ := (State.setHolder { w with schedule := agents } (some c)).hold_onlyCaller c
      (.atTransmit (.request v tid a) (requestBytes v tid f a d))
    exact ⟨h1, h2.trans (hw ▸ rfl)⟩
  · have hframe := operationFrame_of_moves
      (moves_grantGate (.request v tid a (requestBytes v tid f a d)) c { w with schedule := agents })
    refine ⟨_, _, step_atLock_free hsched hwheld hg, hframe.issued, hframe.schedule, fun y rest hy => ?_, hanswered hs hx⟩
    exact drawClean_fst_of_ready hy
  · obtain ⟨_, _, hreceived⟩ := hanswered hs hws
    obtain ⟨hwire, hended⟩ := hreceived rfl (.ok x) rs hrs
    obtain ⟨hsession, path, y, hj, hresult, hret, hq, hover⟩ := caller_of_received_response hended
    refine ⟨_, path, y, step_atLock_free hsched hwheld hg, hwire, hsession.trans ?_, hj, hresult, hret, hq.trans ?_, hover⟩
    · rw [← hg]
    · exact (congrArg (fun k => k.xs.req) hw).trans hreq

end Sys2Proof.Proofs

/-!
REESTABLISH (R87); what holds at reset (R31, R123); and a step of each agent (R43, R116, R124).
-/

namespace Sys2Proof.Proofs

open Sys2Proof Sys2Proof.Machine

/-! ### REESTABLISH -/

/-- Behind the hold the session is restored, with the claim's answer that is ready or a free one (R87; log 15). -/
theorem sessionRestored_restoreSession (c : CallerId) (h : Handle) (s : State) :
    SessionRestored s (restoreSession c h s) c h ∧ (restoreSession c h s).schedule = s.schedule := by
  obtain ⟨htransport, hwire, hissued, hschedule, hothers⟩ := claimFor_frame c h (releaseHandle s)
  have hreleased := releaseHandle_transport s
  refine ⟨⟨(drawClaim (releaseHandle s)).1, fun x rest hx => ?_, fun hx => ?_, ?_, ?_, fun c' hc => ?_, fun ha => ?_,
    fun ha => ?_⟩, ?_⟩
  · rw [restoreSession, htransport, drawClaim_ready (by rw [hreleased, hx]), hreleased]
    exact ⟨rfl, rfl⟩
  · rw [restoreSession, htransport, drawClaim_free (by rw [hreleased, hx]), hreleased]
  · rw [restoreSession, hwire, releaseHandle_wire]
    cases s.session.handle <;> rfl
  · rw [restoreSession, hissued, releaseHandle_issued]
  · rw [restoreSession, hothers c' hc, releaseHandle_caller]
  · obtain ⟨hsession, hcaller⟩ := claimFor_of_ok c h ha
    rw [releaseHandle_session] at hsession
    rw [releaseHandle_caller] at hcaller
    exact ⟨hsession, hcaller⟩
  · obtain ⟨hsession, hcaller⟩ := claimFor_of_ne_ok c h ha
    rw [releaseHandle_session] at hsession
    rw [releaseHandle_caller] at hcaller
    exact ⟨hsession, hcaller⟩
  · rw [restoreSession, hschedule, releaseHandle_schedule]

section Reestablish

variable {c : CallerId} {s : State}

theorem exec_reestablish_of_unacquired (hs : s.session.state = .unacquired) (h : Handle) :
    exec (.reestablish c h) s = exec (.acquireOnce c h) s := by
  simp only [exec, execReestablish, reestablishSession, hs, execAcquireOnce]

theorem exec_reestablish_of_ready (hs : s.session.state = .ready) (h : Handle) :
    exec (.reestablish c h) s = .next (s.succeed c .unit) := by
  simp only [exec, execReestablish, reestablishSession, hs]

theorem exec_reestablish_of_holder (hs : s.session.state = .degraded) (hh : s.session.holder = some c) (h : Handle) :
    exec (.reestablish c h) s = .next (s.raise c .reentrantLock) := by
  simp only [exec, execReestablish, reestablishSession, hs, if_pos hh]

theorem exec_reestablish_of_held {c' : CallerId} (hs : s.session.state = .degraded) (hne : c' ≠ c)
    (hh : s.session.holder = some c') (h : Handle) :
    exec (.reestablish c h) s = .next (s.hold c (.atReestablish h)) := by
  simp [exec, execReestablish, reestablishSession, hs, hh, hne]

theorem exec_reestablish_of_free (hs : s.session.state = .degraded) (hh : s.session.holder = none) (h : Handle) :
    exec (.reestablish c h) s = .next (restoreSession c h s) := by
  simp [exec, execReestablish, reestablishSession, hs, hh]

end Reestablish

/-- A caller at REESTABLISH goes on exactly when the gate is free (R87). -/
theorem resume_atReestablish (c : CallerId) (h : Handle) (s : State) :
    resume c (.atReestablish h) s = if s.session.holder = none then restoreSession c h s else s := rfl

/-- Settles O25: the session's state decides what the command does, and the gate alone what the held caller does; where either
restores the session it is by one release and one claim. -/
theorem reestablishRestoresDegradedSession : Obligations.ReestablishRestoresDegradedSession := by
  intro c h s
  refine ⟨Laws.RoundTrip.reestablish c h rfl, fun hs => exec_reestablish_of_unacquired hs h, fun hs => ?_,
    fun hs hh => ?_, fun hs ⟨c', hne, hh⟩ => ?_, fun hs hg => ?_, fun agents hsched hheld => ⟨fun hg => ?_, fun hg => ?_⟩⟩
  · exact ⟨_, exec_reestablish_of_ready hs h, s.succeed_answersOnly c _⟩
  · exact ⟨_, exec_reestablish_of_holder hs hh h, s.raise_answersOnly c _⟩
  · exact ⟨_, exec_reestablish_of_held hs hne hh h, s.hold_onlyCaller c _⟩
  · exact ⟨_, exec_reestablish_of_free hs hg h, sessionRestored_restoreSession c h s⟩
  · refine ⟨_, step_goOn hsched hheld, ?_⟩
    rw [resume_atReestablish, if_neg hg]
    exact ⟨⟨rfl, rfl, rfl, rfl, rfl, fun _ => rfl⟩, rfl⟩
  · refine ⟨_, step_goOn hsched hheld, ?_⟩
    rw [resume_atReestablish, if_pos hg]
    exact sessionRestored_restoreSession c h { s with schedule := agents }

/-! ### Reset -/

/-- After reset every caller reads as one that has done nothing (R31). -/
theorem reset_caller (c : CallerId) : State.reset.caller c = Caller.fresh := rfl

theorem fresh_packet (r : PacketReg) : Caller.fresh.packet r = Packet.fresh := by
  cases r <;> rfl

/-- Settles O1: no caller is listed after reset, and an unlisted one reads as fresh. -/
theorem resetLeavesNothingStarted : Obligations.ResetLeavesNothingStarted := by
  refine ⟨rfl, fun c => ⟨rfl, rfl, rfl, fun r => ?_⟩⟩
  rw [State.packet, reset_caller, fresh_packet]
  exact ⟨rfl, rfl⟩

/-- Settles O3: the table's columns, read off its rows. -/
theorem variantTableHasSixRows : Obligations.VariantTableHasSixRows :=
  ⟨rfl, rfl, variantAt_indexOf, fun _ => variantAt_of_ge⟩

/-- Settles O52: after reset no caller is held, the wire is empty and every packet is fresh. -/
theorem invariantsHoldAtReset : Obligations.InvariantsHoldAtReset := by
  refine ⟨fun c r => ?_, ⟨rfl, rfl⟩, fun c h hh => ?_, ⟨rfl, fun c => ⟨nofun, ?_⟩⟩, fun c => ⟨rfl, trivial⟩,
    reset_wf, fun n => ⟨fun _ _ => rfl, nofun, nofun⟩⟩
  · rw [State.packet, reset_caller, fresh_packet]
    exact packetWf_fresh
  · rw [reset_caller] at hh
    cases hh
  · rintro ⟨u, hu⟩
    cases hu

/-! ### A step of each agent -/

/-- Settles O46: what the agent takes is decoded, and where it decodes it is run. -/
theorem stepRunsDecodedInstruction : Obligations.StepRunsDecodedInstruction := by
  refine fun s agents i => ⟨fun c cmd left hs hh ht hd => ?_, fun b rest hs hi hd => ?_⟩
  · rw [step_command hs hh ht]
    simp only [runFrame, hd]
  · rw [step_packet hs hi]
    simp only [runFrame, hd]

/-- An agent with nothing to do leaves the state that it was picked in (R124). -/
theorem step_of_idle {s : State} (hissued : s.issued = []) (hinbound : s.transport.inbound = [])
    (hheld : ∀ c, (s.caller c).held = none) : step s = .next (nextAgent s).2 := by
  have hb := nextAgent_begun s
  have hheld' (c : CallerId) : ((nextAgent s).2.caller c).held = none := by
    rw [State.caller, hb.callers]
    exact hheld c
  cases ha : (nextAgent s).1 with
  | caller c => simp only [step, fetch, ha, workOf, hheld', hb.issued, hissued, takeIssued]
  | transport => simp only [step, fetch, ha, workOf, hb.inbound, hinbound]

/-- Settles O47: whichever agent is picked, by the schedule or freely, it has nothing to do. -/
theorem stepWaitsForCommands : Obligations.StepWaitsForCommands := by
  intro s hissued hinbound hheld
  rw [step_of_idle hissued hinbound hheld]
  unfold nextAgent
  split
  · exact ⟨_, s.transport.drawn, rfl⟩
  · next hs => exact ⟨[], s.transport.drawn + 1, by rw [← hs]⟩

/-! ### Words -/

/-- Settles O48, by evaluating the decoder on the five words. -/
theorem writtenWordsDecode : Obligations.WrittenWordsDecode := by
  unfold Obligations.WrittenWordsDecode
  decide

/-- Settles O49, one instruction at a time. -/
theorem decodeInvertsEncode : Obligations.DecodeInvertsEncode := by
  intro i
  cases i with
  | pkt8x8 f t a d p => exact Laws.RoundTrip.pkt8x8 f t a d p
  | pkt8x16 f t a d p => exact Laws.RoundTrip.pkt8x16 f t a d p
  | pkt8x32 f t a d p => exact Laws.RoundTrip.pkt8x32 f t a d p
  | pkt8x64 f t a d p => exact Laws.RoundTrip.pkt8x64 f t a d p
  | pkt16x64 f t a d p => exact Laws.RoundTrip.pkt16x64 f t a d p
  | pkt32x32 f t a d p => exact Laws.RoundTrip.pkt32x32 f t a d p
  | lookup c m => exact Laws.RoundTrip.lookup c m
  | descInfo c d => exact Laws.RoundTrip.descInfo c d
  | construct c p d t f a v => exact Laws.RoundTrip.construct c p d t f a v
  | encode c p => exact Laws.RoundTrip.encode c p
  | decode c p d b => exact Laws.RoundTrip.decode c p d b
  | validate c p => exact Laws.RoundTrip.validate c p
  | reuse c p => exact Laws.RoundTrip.reuse c p
  | getTarget c p => exact Laws.RoundTrip.getTarget c p
  | getAddress c p => exact Laws.RoundTrip.getAddress c p
  | getData c p => exact Laws.RoundTrip.getData c p
  | isWrite c p => exact Laws.RoundTrip.isWrite c p
  | isSuccess c p => exact Laws.RoundTrip.isSuccess c p
  | setTarget c p v => exact Laws.RoundTrip.setTarget c p v
  | setAddress c p v => exact Laws.RoundTrip.setAddress c p v
  | setData c p v => exact Laws.RoundTrip.setData c p v
  | setWrite c p b => exact Laws.RoundTrip.setWrite c p b
  | setSuccess c p b => exact Laws.RoundTrip.setSuccess c p b
  | acquireOnce c h => exact Laws.RoundTrip.acquireOnce c h
  | reestablish c h => exact Laws.RoundTrip.reestablish c h
  | lock c => exact Laws.RoundTrip.lock c
  | unlock c => exact Laws.RoundTrip.unlock c
  | transfer c b => exact Laws.RoundTrip.transfer c b
  | exchange c b => exact Laws.RoundTrip.exchange c b
  | sendRequest c d t f a v => exact Laws.RoundTrip.sendRequest c d t f a v

end Sys2Proof.Proofs

/-!
The wire packet (R47, R51): encode inverts decode, byte 0 alone selects the variant, and what a packet does that arrives from the
device (R83; log 9).
-/

namespace Sys2Proof.Proofs

open Sys2Proof Sys2Proof.Machine

/-! ### Decoding 16 bytes -/

theorem decode_wire_of_magic {b : Buffer} {v : Variant} (h : byteAt b 0 = magicOf v) :
    decode (.wire b.toList) = .ok (wireFields v b) := by
  simp only [decode, decodeWire, toList_length, bufferOf_toList, h, variantOfMagic_magicOf, if_true]

theorem decode_wire_of_no_magic {b : Buffer} (h : ∀ v, byteAt b 0 ≠ magicOf v) :
    decode (.wire b.toList) = .error (.unassignedMagic (byteAt b 0)) := by
  have hnone : variantOfMagic (byteAt b 0).toNat = none :=
    variantOfMagic_eq_none.2 fun v hv => h v (BitVec.eq_of_toNat_eq hv.symm)
  simp only [decode, decodeWire, toList_length, bufferOf_toList, hnone, if_true]

/-- What 16 bytes decode to is their fields as the variant of byte 0 has them (R51). -/
theorem decode_wire_eq_ok {b : Buffer} {i : Instr} (h : decode (.wire b.toList) = .ok i) :
    ∃ v, byteAt b 0 = magicOf v ∧ i = wireFields v b := by
  by_cases hm : ∃ v, byteAt b 0 = magicOf v
  · obtain ⟨v, hv⟩ := hm
    rw [decode_wire_of_magic hv] at h
    exact ⟨v, hv, (Except.ok.inj h).symm⟩
  · rw [decode_wire_of_no_magic (not_exists.1 hm)] at h
    cases h

/-- Fields in range are encoded as their layout (R47). -/
theorem encode_packetInstr (v : Variant) (f t : Byte) (a d p : Nat) (ha : a < 256 ^ addressBytes v)
    (hd : d < 256 ^ dataBytes v) (hp : p < 256 ^ (16 - paddingStart v)) :
    encode (packetInstr f t a d p v) = packetOf v f t a d p := by
  cases v <;> simp only [packetInstr, encode, BitVec.toNat_ofNat] <;>
    exact congr (congr (congrArg _ (Nat.mod_eq_of_lt ha)) (Nat.mod_eq_of_lt hd)) (Nat.mod_eq_of_lt hp)

/-- Settles O50: the fields of 16 bytes are in range, and laying them out gives the bytes back. -/
theorem encodeInvertsWireDecode : Obligations.EncodeInvertsWireDecode := by
  intro b i h
  obtain ⟨v, hv, rfl⟩ := decode_wire_eq_ok h
  rw [wireFields, encode_packetInstr v _ _ _ _ _ (leValue_lt b 3 _) (leValue_lt b _ _) (leValue_lt b _ _), packetOf]
  exact congrArg (fun x : Buffer => Frame.wire x.toList) (wireLayout_fields v b hv)

/-- Settles O51: each magic byte selects its variant, whose fields stand at its offsets; the six are all there are. -/
theorem byteZeroSelectsVariant : Obligations.ByteZeroSelectsVariant := by
  refine fun b => ⟨fun h => decode_wire_of_magic (v := .v8x8) h, fun h => decode_wire_of_magic (v := .v8x16) h,
    fun h => decode_wire_of_magic (v := .v8x32) h, fun h => decode_wire_of_magic (v := .v8x64) h,
    fun h => decode_wire_of_magic (v := .v16x64) h, fun h => decode_wire_of_magic (v := .v32x32) h,
    fun h => decode_wire_of_no_magic fun v hv => h ?_⟩
  rw [hv]
  cases v <;> decide

/-! ### A packet that arrives -/

/-- The layout of a packet is R47's, byte by byte. -/
theorem laidOut_wireLayout (v : Variant) (f t : Byte) (a d p : Nat) : LaidOut v f t a d p (wireLayout v f t a d p) :=
  fun i hi => byteAt_wireLayout v f t a d p i hi

/-- While no caller is in its RX step an arriving packet is kept as the answer of a later read (log 9). -/
theorem deliverPacket_of_no_receiver {s : State} (h : ∀ c u, (s.caller c).held ≠ some (.atReceive u)) (b : Buffer) :
    deliverPacket b s = { s with transport := { s.transport with reads := s.transport.reads ++ [.ok b] } } := by
  rcases deliverPacket_moves b s with he | ⟨c, u, _, hu, _⟩
  · exact he
  · exact absurd hu (h c u)

/-- Settles O44: a wire row is the delivery of its layout, which no caller is there to receive. -/
theorem arrivingPacketAwaitsItsRead : Obligations.ArrivingPacketAwaitsItsRead := by
  intro f t s h
  have hkept (v : Variant) (a d p : Nat) : ∃ b, LaidOut v f t a d p b ∧
      Host.Outcome.next (deliverPacket (wireLayout v f t a d p) s) =
        (.next { s with transport := { s.transport with reads := s.transport.reads ++ [.ok b] } } : Step) :=
    ⟨_, laidOut_wireLayout v f t a d p, congrArg _ (deliverPacket_of_no_receiver h _)⟩
  exact ⟨fun a d p => hkept .v8x8 _ _ _, fun a d p => hkept .v8x16 _ _ _, fun a d p => hkept .v8x32 _ _ _,
    fun a d p => hkept .v8x64 _ _ _, fun a d p => hkept .v16x64 _ _ _, fun a d p => hkept .v32x32 _ _ _⟩

/-- Where the gate's holder is in its RX step and no answer is before it, an arriving packet is that step's answer (log 9). -/
theorem deliverPacket_to_receiver {s : State} {c : CallerId} {u : TransferUser} (hg : s.session.holder = some c)
    (hh : (s.caller c).held = some (.atReceive u)) (hr : s.transport.reads = []) (b : Buffer) :
    deliverPacket b s = endTransfer u c (.ok b) (s.record (.read c (.ok b))) := by
  have hs : { s with transport := { s.transport with reads := [] } } = s := by rw [← hr]
  have hd : drawRead { s with transport := { s.transport with reads := s.transport.reads ++ [.ok b] } } = (.ok b, s) := by
    rw [drawRead_ready (a := .ok b) (rest := []) (by rw [hr]; rfl)]
    exact congrArg _ hs
  simp only [deliverPacket, hg, State.caller_mk, hh, receiveDrawn, hd, receiveStep]

/-- An instruction that is encoded as a packet is that packet's arrival (R32, R34; log 9). -/
theorem exec_of_encode_wire {i : Instr} {b : Buffer} (h : encode i = .wire b.toList) (s : State) :
    exec i s = .next (deliverPacket b s) := by
  have hb {x : Buffer} (hx : Frame.wire x.toList = .wire b.toList) :
      Host.Outcome.next (deliverPacket x s) = (.next (deliverPacket b s) : Step) := by
    have hxb : bufferOf x.toList = bufferOf b.toList := congrArg bufferOf (Frame.wire.inj hx)
    rw [bufferOf_toList, bufferOf_toList] at hxb
    rw [hxb]
  cases i with
  | pkt8x8 f t a d p => exact hb h
  | pkt8x16 f t a d p => exact hb h
  | pkt8x32 f t a d p => exact hb h
  | pkt8x64 f t a d p => exact hb h
  | pkt16x64 f t a d p => exact hb h
  | pkt32x32 f t a d p => exact hb h
  | _ => cases h

/-- Settles O45: the packet is the receiver's answer, and the transfer ends with it as with any whole read. -/
theorem arrivingPacketEndsReceive : Obligations.ArrivingPacketEndsReceive := by
  intro c u s i b hg hh hr hi
  have hdeliver := deliverPacket_to_receiver hg hh hr b
  obtain ⟨hsession, htransport, hwire⟩ := endTransfer_frame u c (.ok b) (s.record (.read c (.ok b)))
  have hframe := operationFrame_of_moves (moves_endTransfer u c (.ok b) (s.record (.read c (.ok b))))
  refine ⟨_, exec_of_encode_wire hi s, ?_⟩
  rw [hdeliver]
  exact ⟨hwire, htransport, hframe.issued, hframe.schedule, hsession, endTransfer_ok_caller u c _ b, hframe.others⟩

end Sys2Proof.Proofs

/-!
The codec's commands, accessors and mutators together (R109, R111): each answers only, or writes its own register; what an
ill-formed operand does; and that nothing of a reused packet survives a CONSTRUCT.
-/

namespace Sys2Proof.Proofs

open Sys2Proof Sys2Proof.Machine

/-! ### What a codec command leaves -/

/-- A codec operation that commits either writes its register and answers `Ok`, or answers with its error alone (R109). -/
theorem commit_cases (s : State) (c : CallerId) (r : PacketReg) (x : Result Packet) :
    (∃ y, s.AnswersOnly (s.commit c r x) c y) ∨ ∃ q v, s.WritesOnly (s.commit c r x) c r q (.ok v) := by
  cases x with
  | ok q => exact .inr ⟨q, _, s.commit_ok c r q⟩
  | err e => exact .inl ⟨_, s.commit_err c r e⟩

/-- The codec commands that write no packet: VALIDATE and the accessors. -/
def OnlyReads (c : CallerId) (r : PacketReg) (i : Instr) : Prop :=
  i = .validate c r ∨ i = .getTarget c r ∨ i = .getAddress c r ∨ i = .getData c r ∨ i = .isWrite c r ∨ i = .isSuccess c r

theorem exists_bound_of_next {i : Instr} {c : CallerId} {r : PacketReg} {s t : State} (hi : RequiresBound c r i)
    (h : exec i s = .next t) : ∃ v, boundTo (s.packet c r) = some v := by
  cases hb : boundTo (s.packet c r) with
  | some v => exact ⟨v, rfl⟩
  | none =>
    rw [exec_of_unbound hi hb] at h
    cases h

theorem answersOnly_of_onlyReads {i : Instr} {c : CallerId} {r : PacketReg} {s t : State} (hi : OnlyReads c r i)
    (h : exec i s = .next t) : ∃ x, s.AnswersOnly t c x := by
  have hnext {t' : State} {x : Result Value} (ht : exec i s = .next t') (hx : s.AnswersOnly t' c x) :
      ∃ x, s.AnswersOnly t c x := ⟨x, Host.Outcome.next.inj (ht.symm.trans h) ▸ hx⟩
  rcases hi with rfl | rfl | rfl | rfl | rfl | rfl
  · obtain ⟨v, hv⟩ := exists_bound_of_next (.validate r) h
    cases hx : violationOf v (s.packet c r) with
    | some x => exact hnext (exec_validate_of_violation hv hx) (s.raise_answersOnly c _)
    | none => exact hnext (exec_validate_of_valid hv hx) (s.succeed_answersOnly c _)
  · obtain ⟨v, hv⟩ := exists_bound_of_next (.getTarget r) h
    exact hnext (exec_getTarget_of_bound hv) (s.succeed_answersOnly c _)
  · obtain ⟨v, hv⟩ := exists_bound_of_next (.getAddress r) h
    exact hnext (exec_getAddress_of_bound hv) (s.succeed_answersOnly c _)
  · obtain ⟨v, hv⟩ := exists_bound_of_next (.getData r) h
    exact hnext (exec_getData_of_bound hv) (s.succeed_answersOnly c _)
  · obtain ⟨v, hv⟩ := exists_bound_of_next (.isWrite r) h
    exact hnext (exec_isWrite_of_bound hv) (s.succeed_answersOnly c _)
  · obtain ⟨v, hv⟩ := exists_bound_of_next (.isSuccess r) h
    exact hnext (exec_isSuccess_of_bound hv) (s.succeed_answersOnly c _)

/-- A codec command only answers, or it writes a numbered register that is its own and answers `Ok` (R25, R109). -/
theorem codec_cases {i : Instr} {c : CallerId} {r : PacketReg} {s t : State} (hc : callerOf i = some c)
    (hr : codecReg i = some r) (h : exec i s = .next t) :
    (∃ x, s.AnswersOnly t c x) ∨ ∃ n q v, r = .p n ∧ s.WritesOnly t c r q (.ok v) := by
  have hcommit {n : Nat} {x : Result Packet} (hp : r = .p n) : (∃ x', s.AnswersOnly (s.commit c (.p n) x) c x') ∨
      ∃ m q v, r = .p m ∧ s.WritesOnly (s.commit c (.p n) x) c r q (.ok v) := by
    rcases commit_cases s c (.p n) x with hx | ⟨q, v, hw⟩
    · exact .inl hx
    · exact .inr ⟨n, q, v, hp, hp ▸ hw⟩
  cases i <;> simp only [callerOf, codecReg, Option.some.injEq, reduceCtorEq] at hc hr <;> subst hc hr
  case construct c p d t f a x =>
    obtain ⟨n, rfl, h⟩ := withWritten_next h
    obtain ⟨v, _, h⟩ := withVariant_next h
    obtain rfl := Host.Outcome.next.inj h
    exact hcommit rfl
  case encode c p =>
    obtain ⟨n, rfl, h⟩ := withWritten_next h
    obtain ⟨v, _, rfl⟩ := withBound_next h
    exact .inr ⟨n, _, _, rfl, s.setPacket_succeed_writesOnly c _ _ _⟩
  case decode c p d bytes =>
    obtain ⟨n, rfl, h⟩ := withWritten_next h
    obtain ⟨v, _, h⟩ := withVariant_next h
    obtain rfl := Host.Outcome.next.inj h
    exact hcommit rfl
  case validate c p => exact .inl (answersOnly_of_onlyReads (.inl rfl) h)
  case reuse c p =>
    obtain ⟨n, rfl, h⟩ := withWritten_next h
    obtain rfl := Host.Outcome.next.inj h
    exact .inr ⟨n, _, _, rfl, s.setPacket_succeed_writesOnly c _ _ _⟩
  case getTarget c p => exact .inl (answersOnly_of_onlyReads (.inr (.inl rfl)) h)
  case getAddress c p => exact .inl (answersOnly_of_onlyReads (.inr (.inr (.inl rfl))) h)
  case getData c p => exact .inl (answersOnly_of_onlyReads (.inr (.inr (.inr (.inl rfl)))) h)
  case isWrite c p => exact .inl (answersOnly_of_onlyReads (.inr (.inr (.inr (.inr (.inl rfl))))) h)
  case isSuccess c p => exact .inl (answersOnly_of_onlyReads (.inr (.inr (.inr (.inr (.inr rfl))))) h)
  case setTarget c p x =>
    obtain ⟨n, rfl, h⟩ := withWritten_next h
    obtain ⟨v, _, rfl⟩ := withBound_next h
    exact hcommit rfl
  case setAddress c p x =>
    obtain ⟨n, rfl, h⟩ := withWritten_next h
    obtain ⟨v, _, rfl⟩ := withBound_next h
    exact hcommit rfl
  case setData c p x =>
    obtain ⟨n, rfl, h⟩ := withWritten_next h
    obtain ⟨v, _, rfl⟩ := withBound_next h
    exact hcommit rfl
  case setWrite c p b =>
    obtain ⟨n, rfl, h⟩ := withWritten_next h
    obtain ⟨x, h⟩ := withBoolean_next h
    obtain ⟨v, _, rfl⟩ := withBound_next h
    exact hcommit rfl
  case setSuccess c p b =>
    obtain ⟨n, rfl, h⟩ := withWritten_next h
    obtain ⟨x, h⟩ := withBoolean_next h
    obtain ⟨v, _, rfl⟩ := withBound_next h
    exact hcommit rfl

/-- Settles O19: a codec command that writes a packet answers `Ok`, so one that answers with an error only answers. -/
theorem codecErrorsCommitNothing : Obligations.CodecErrorsCommitNothing := by
  intro i c r e s t hc hr h hret
  rcases codec_cases hc hr h with ⟨x, hx⟩ | ⟨_, _, _, _, hw⟩
  · rw [ret_of_answersOnly hx] at hret
    exact Option.some.inj hret ▸ hx
  · rw [ret_of_writesOnly hw] at hret
    cases hret

theorem packet_of_answersOnly {s t : State} {c : CallerId} {x : Result Value} (h : s.AnswersOnly t c x) (r : PacketReg) :
    t.packet c r = s.packet c r := by
  rw [State.packet, h.2]
  cases r <;> rfl

/-- Settles O23: what a codec command may write is one numbered register and its result. -/
theorem codecCommandsChangeOnlyTheirRegister : Obligations.CodecCommandsChangeOnlyTheirRegister := by
  intro i c r s t hc hr h
  have hreads (hi : OnlyReads c r i) : t.packet c r = s.packet c r := by
    obtain ⟨x, hx⟩ := answersOnly_of_onlyReads hi h
    exact packet_of_answersOnly hx r
  rcases codec_cases hc hr h with ⟨x, hx⟩ | ⟨n, q, v, rfl, honly, hheld, _, hphase, hbytes, hresult, hpath, _, hothers⟩
  · have hpacket := packet_of_answersOnly hx
    obtain ⟨honly, hcaller⟩ := hx
    rw [hcaller]
    exact ⟨honly, rfl, rfl, rfl, rfl, rfl, fun r' _ => hpacket r', hpacket .req, hpacket .resp, hreads⟩
  · exact ⟨honly, hheld, hphase, hbytes, hresult, hpath, hothers, hothers .req nofun, hothers .resp nofun, hreads⟩

/-! ### Ill-formed operands -/

theorem le_of_ofIndex_ne_none {d : Nat} (h : Defect.ofIndex d ≠ none) : 6 ≤ d := by
  by_contra hd
  exact h (if_pos (Nat.lt_of_not_le hd))

theorem le_of_ofBoolean_ne_none {b : Nat} (h : Defect.ofBoolean b ≠ none) : 2 ≤ b := by
  by_contra hb
  exact h (if_pos (Nat.lt_of_not_le hb))

/-- A command on a register that it may not write stops, whatever else it would do (R25; log 12). -/
theorem withWritten_of_fault {p : PacketReg} {f : Step} (h : ∀ n, p = .p n → f = .fault .illegalCommand) :
    withWritten p f = .fault .illegalCommand := by
  cases p with
  | p n => exact h n rfl
  | req => rfl
  | resp => rfl

/-- An instruction with a defect stops before it looks at a packet (R56, R75; log 21). -/
theorem exec_of_illFormed {i : Instr} (h : ¬ i.WellFormed) (s : State) : exec i s = .fault .illegalCommand := by
  have hwritten {p : PacketReg} {f : Step} (hp : Defect.ofWritten p ≠ none) : withWritten p f = .fault .illegalCommand :=
    withWritten_of_fault fun n hn => absurd (hn ▸ rfl) hp
  cases i <;> simp only [Instr.WellFormed, Instr.defect, not_true] at h
  case descInfo c d => exact withVariant_of_ge (le_of_ofIndex_ne_none h) _
  case construct c p d t f a v =>
    exact withWritten_of_fault fun n hn => withVariant_of_ge (le_of_ofIndex_ne_none (by subst hn; exact h)) _
  case encode c p => exact hwritten h
  case decode c p d b =>
    exact withWritten_of_fault fun n hn => withVariant_of_ge (le_of_ofIndex_ne_none (by subst hn; exact h)) _
  case reuse c p => exact hwritten h
  case setTarget c p x => exact hwritten h
  case setAddress c p x => exact hwritten h
  case setData c p x => exact hwritten h
  case setWrite c p b =>
    exact withWritten_of_fault fun n hn => withBoolean_of_ge (le_of_ofBoolean_ne_none (by subst hn; exact h)) _
  case setSuccess c p b =>
    exact withWritten_of_fault fun n hn => withBoolean_of_ge (le_of_ofBoolean_ne_none (by subst hn; exact h)) _
  case sendRequest c d t f a v => exact withVariant_of_ge (le_of_ofIndex_ne_none h) _

/-- A Boolean operand other than 0 or 1 is a defect, whichever register it goes with (R75). -/
theorem exists_defect_written_boolean (p : PacketReg) {b : Nat} (h : 2 ≤ b) :
    ∃ x, (Defect.ofWritten p).or (Defect.ofBoolean b) = some x := by
  rw [show Defect.ofBoolean b = some (.notBoolean b) from if_neg (Nat.not_lt.2 h)]
  cases p <;> exact ⟨_, rfl⟩

/-- A register of the exchange context is a defect where the command would write it (R25; log 12). -/
theorem ofWritten_of_context {p : PacketReg} (h : p = .req ∨ p = .resp) :
    Defect.ofWritten p = some (.contextRegister p) := by
  rcases h with rfl | rfl <;> rfl

theorem ofWritten_or_of_context {p : PacketReg} (h : p = .req ∨ p = .resp) (x : Option Defect) :
    (Defect.ofWritten p).or x = some (.contextRegister p) := by
  rw [ofWritten_of_context h, Option.some_or]

/-- The codes 0x30 to 0x34 are the mutators' (R55). -/
theorem mutator_code {op : Byte} (h : 0x30 ≤ op.toNat ∧ op.toNat ≤ 0x34) :
    op = 0x30 ∨ op = 0x31 ∨ op = 0x32 ∨ op = 0x33 ∨ op = 0x34 := by
  have hvalue (n : Nat) (hn : n < 256) (hop : op.toNat = n) : op = BitVec.ofNat 8 n :=
    BitVec.eq_of_toNat_eq (hop.trans (toNat_ofNat_byte hn).symm)
  obtain hop | hop | hop | hop | hop :
      op.toNat = 0x30 ∨ op.toNat = 0x31 ∨ op.toNat = 0x32 ∨ op.toNat = 0x33 ∨ op.toNat = 0x34 := by omega
  · exact .inl (hvalue _ (by decide) hop)
  · exact .inr (.inl (hvalue _ (by decide) hop))
  · exact .inr (.inr (.inl (hvalue _ (by decide) hop)))
  · exact .inr (.inr (.inr (.inl (hvalue _ (by decide) hop))))
  · exact .inr (.inr (.inr (.inr (hvalue _ (by decide) hop))))

/-- A mutator of a register that it may not write is rejected (R25; log 12). -/
theorem decodeCommand_mutator_of_context {op : Byte} (hop : 0x30 ≤ op.toNat ∧ op.toNat ≤ 0x34) {p : PacketReg}
    (hp : p = .req ∨ p = .resp) (c : CallerId) (x : Nat) : ∃ e, decodeCommand ⟨op, c, [.packet p, .num x]⟩ = .error e := by
  rcases mutator_code hop with rfl | rfl | rfl | rfl | rfl
  · exact ⟨_, decodeCommand_illFormed (o := .setTarget) rfl (ofWritten_of_context hp)⟩
  · exact ⟨_, decodeCommand_illFormed (o := .setAddress) rfl (ofWritten_of_context hp)⟩
  · exact ⟨_, decodeCommand_illFormed (o := .setData) rfl (ofWritten_of_context hp)⟩
  · exact ⟨_, decodeCommand_illFormed (o := .setWrite) rfl (ofWritten_or_of_context hp _)⟩
  · exact ⟨_, decodeCommand_illFormed (o := .setSuccess) rfl (ofWritten_or_of_context hp _)⟩

/-- Settles O20: the meanings stop at a defect, and the decoder rejects a command that has one. -/
theorem illFormedCommandsFault : Obligations.IllFormedCommandsFault := by
  refine ⟨fun i s h => exec_of_illFormed h s, ?_⟩
  rintro c ⟨op, c', operands⟩ agents left s hs hh ht hcase
  obtain ⟨e, he⟩ : ∃ e, decodeCommand ⟨op, c', operands⟩ = .error e := by
    rcases hcase with ⟨p, b, hb, rfl | rfl, rfl⟩ | ⟨p, hp, ⟨rfl | rfl, rfl⟩ | ⟨x, hop, rfl⟩ | ⟨d, t, f, a, x, rfl, rfl⟩ |
      ⟨d, b, rfl, rfl⟩⟩
    · obtain ⟨y, hy⟩ := exists_defect_written_boolean p hb
      exact ⟨_, decodeCommand_illFormed (o := .setWrite) rfl hy⟩
    · obtain ⟨y, hy⟩ := exists_defect_written_boolean p hb
      exact ⟨_, decodeCommand_illFormed (o := .setSuccess) rfl hy⟩
    · exact ⟨_, decodeCommand_illFormed (o := .encode) rfl (ofWritten_of_context hp)⟩
    · exact ⟨_, decodeCommand_illFormed (o := .reuse) rfl (ofWritten_of_context hp)⟩
    · exact decodeCommand_mutator_of_context hop hp c' x
    · exact ⟨_, decodeCommand_illFormed (o := .construct) rfl (ofWritten_or_of_context hp _)⟩
    · exact ⟨_, decodeCommand_illFormed (o := .decode) rfl (ofWritten_or_of_context hp _)⟩
  exact step_command_rejected hs hh ht he

/-! ### REUSE, then CONSTRUCT -/

theorem storeInsert_storeInsert {α : Type} (m : List (Nat × α)) (a : Nat) (v w : α) :
    storeInsert a w (storeInsert a v m) = storeInsert a w m := by
  induction m with
  | nil => simp [storeInsert]
  | cons kx rest ih =>
    obtain ⟨k, x⟩ := kx
    rcases Nat.lt_trichotomy a k with hlt | rfl | hgt
    · simp [storeInsert, hlt]
    · simp [storeInsert]
    · simp [storeInsert, Nat.not_lt_of_gt hgt, Nat.ne_of_gt hgt, ih]

/-- A packet written over another leaves nothing of it, where neither is as newly allocated (log 3). -/
theorem setPacket_setPacket {q q' : Packet} (hq : q ≠ .fresh) (hq' : q' ≠ .fresh) (k : Caller) (n : Nat) (x : Result Value) :
    ((k.setPacket (.p n) q).finish x).setPacket (.p n) q' = { k.setPacket (.p n) q' with held := none, ret := some x } := by
  simp only [Caller.setPacket, Caller.finish, storeSet, if_neg hq, if_neg hq', storeInsert_storeInsert]

theorem constructed_ne_fresh (v : Variant) (t f a x : Nat) : constructed v t f a x ≠ .fresh := fun e =>
  nomatch (congrArg Packet.status e : PacketStatus.constructed = .empty)

theorem reusedPacket_ne_fresh (q : Packet) : reusedPacket q ≠ .fresh := fun e =>
  nomatch (congrArg Packet.status e : PacketStatus.stale = .empty)

/-- Settles O18: CONSTRUCT writes the register whole, and it reads nothing of the packet that was there. -/
theorem reuseThenConstructLeaksNothing : Obligations.ReuseThenConstructLeaksNothing := by
  intro c n d t f a x s s1 s2 s2' hreuse hconstruct hret hdirect
  rw [exec_reuse_p] at hreuse
  obtain rfl := Host.Outcome.next.inj hreuse
  obtain ⟨v, hv, _⟩ := withVariant_next hdirect
  obtain rfl := variantAt_eq_some hv
  rw [exec_construct_indexOf] at hconstruct hdirect
  obtain rfl := Host.Outcome.next.inj hconstruct
  obtain rfl := Host.Outcome.next.inj hdirect
  obtain ⟨q, hq⟩ := exists_ok_of_commit_ret hret
  obtain ⟨_, rfl⟩ := constructPacket_eq_ok hq
  rw [hq]
  have hreused := s.setPacket_succeed_writesOnly c (.p n) (reusedPacket (s.packet c (.p n))) (.packet (.p n))
  obtain ⟨hsession, hissued, hschedule, htransport, hwire, hothers⟩ :=
    onlyCaller_trans hreused.1 (State.commit_ok _ c (.p n) (constructed v t f a x)).1
  obtain ⟨hsession', hissued', hschedule', htransport', hwire', hothers'⟩ := (s.commit_ok c (.p n) (constructed v t f a x)).1
  refine ⟨hsession'.trans hsession.symm, hissued'.trans hissued.symm, hschedule'.trans hschedule.symm,
    htransport'.trans htransport.symm, hwire'.trans hwire.symm, fun c' => ?_⟩
  by_cases hc : c' = c
  · subst hc
    simp only [State.commit, State.caller_succeed_self, State.caller_setPacket_self]
    rw [setPacket_setPacket (reusedPacket_ne_fresh _) (constructed_ne_fresh v t f a x)]
    simp only [Caller.finish]
  · rw [hothers c' hc, hothers' c' hc]

end Sys2Proof.Proofs

/-!
What one step does to the gate, the session, the wire and the caller that steps, said once for all instructions: the operations
that an instruction can be (`Operation`), the effects that an operation can have (`Effect`), and the steps (`StepDid`).
-/

namespace Sys2Proof.Proofs

open Sys2Proof Sys2Proof.Machine

/-! ### Callers and their phases -/

/-- An operation is over: its caller is held nowhere and has a result (R15). -/
structure Over (k : Caller) : Prop where
  held : k.held = none
  ret : k.ret ≠ none

theorem over_finish (k : Caller) (x : Result Value) : Over (k.finish x) := ⟨rfl, nofun⟩

theorem over_settle (k : Caller) (ph : Phase) (x : Result DecodedResponse) : Over (k.settle ph x) := ⟨rfl, nofun⟩

theorem over_of_answersOnly {s t : State} {c : CallerId} {x : Result Value} (h : s.AnswersOnly t c x) : Over (t.caller c) := by
  rw [h.2]
  exact ⟨rfl, nofun⟩

/-- A caller's phase is that of its operation, and what it carries on is its request (R30, R94): `State.ExchangesWf` of one
caller. -/
def CallerWf (k : Caller) : Prop := k.xs.phase = phaseOf k.held ∧ requestWf k

theorem exchangesWf_iff {s : State} : s.ExchangesWf ↔ ∀ c, CallerWf (s.caller c) := Iff.rfl

theorem callerWf_of_not_held {k : Caller} (hh : k.held = none) (hp : k.xs.phase = .idle) : CallerWf k := by
  refine ⟨by rw [hp, hh]; rfl, ?_⟩
  rw [requestWf, hh]
  trivial

theorem idle_of_callerWf {k : Caller} (h : CallerWf k) (hh : k.held = none) : k.xs.phase = .idle := by
  rw [h.1, hh]
  rfl

/-! ### What an instruction can be -/

/-- What an instruction of caller `c` can be in state `s`, and the state it leaves. -/
inductive Operation (c : CallerId) (s : State) : State → Prop
  /-- It ends at once, and only its caller has changed. -/
  | answers {t : State} (honly : s.OnlyCaller t c) (hover : Over (t.caller c))
      (hphase : (s.caller c).xs.phase = .idle → (t.caller c).xs.phase = .idle) : Operation c s t
  /-- The first claim (R86). -/
  | claims (h : Handle) (hs : s.session.state = .unacquired) : Operation c s (claimFor c h s)
  /-- A restoration at a free gate (R87). -/
  | restores (h : Handle) (hs : s.session.state = .degraded) (hg : s.session.holder = none) :
      Operation c s (restoreSession c h s)
  /-- A restoration that waits for the gate (R87). -/
  | waits (h : Handle) (hs : s.session.state = .degraded) (hg : s.session.holder ≠ some c) :
      Operation c s (s.hold c (.atReestablish h))
  /-- A user of the gate, with its request built where it has one (R88, R92, R96). -/
  | takesGate (u : GateUser) {r : State} (hr : s.OnlyCaller r c)
      (hwf : (s.caller c).xs.phase = .idle → CallerWf { r.caller c with held := some (.atLock u) }) :
      Operation c s (takeGate u c r)
  /-- UNLOCK by the holder (R89). -/
  | unlocks (hg : s.session.holder = some c) : Operation c s ((s.setHolder none).succeed c .unit)
  /-- TRANSFER by the holder (R91). -/
  | transfers (bytes : List Byte) (hg : s.session.holder = some c) : Operation c s (startTransfer .raw c bytes s)

theorem operation_of_answersOnly {c : CallerId} {s t : State} {x : Result Value} (h : s.AnswersOnly t c x) :
    Operation c s t :=
  .answers h.1 (over_of_answersOnly h) fun hp => by rw [h.2]; exact hp

theorem operation_acquireSession (c : CallerId) (h : Handle) (s : State) : Operation c s (acquireSession c h s) := by
  cases hs : s.session.state with
  | unacquired =>
    simp only [acquireSession, hs]
    exact .claims h hs
  | ready =>
    simp only [acquireSession, hs]
    exact operation_of_answersOnly (s.succeed_answersOnly c _)
  | degraded =>
    simp only [acquireSession, hs]
    exact operation_of_answersOnly (s.succeed_answersOnly c _)

theorem operation_reestablishSession (c : CallerId) (h : Handle) (s : State) :
    Operation c s (reestablishSession c h s) := by
  cases hs : s.session.state with
  | unacquired =>
    simp only [reestablishSession, hs]
    exact operation_acquireSession c h s
  | ready =>
    simp only [reestablishSession, hs]
    exact operation_of_answersOnly (s.succeed_answersOnly c _)
  | degraded =>
    simp only [reestablishSession, hs]
    split
    · exact operation_of_answersOnly (s.raise_answersOnly c _)
    · next hne =>
      split
      · next hg => exact .restores h hs hg
      · exact .waits h hs hne

/-- A request that has been built is the one that the hold at the gate carries on (R94, R96). -/
theorem callerWf_builtCaller (k : Caller) {v : Variant} {tid f a d : Nat} (ha : a < 2 ^ addressWidth v) (ht : tid < 256) :
    CallerWf { builtCaller k (requestPacket v tid f a d) with
      held := some (.atLock (.request v tid a (requestBytes v tid f a d))) } := by
  refine ⟨rfl, rfl, ?_, ?_, rfl⟩
  · exact targetOf_of_layout (q := requestPacket v tid f a d) rfl ht
  · exact addressOf_of_layout (q := requestPacket v tid f a d) rfl ha

theorem operation_sendRequest (c : CallerId) (v : Variant) (tid f a d : Nat) {s t : State}
    (h : exec (.sendRequest c (indexOf v) tid f a d) s = .next t) : Operation c s t := by
  cases hx : constructPacket v tid f a d with
  | err e =>
    rw [exec_sendRequest_of_err c s hx] at h
    obtain rfl := Host.Outcome.next.inj h
    refine .answers ⟨rfl, rfl, rfl, rfl, rfl, fun c' hc => ?_⟩ ?_ fun _ => ?_
    · simp only [rejectExchange, State.caller_mapCaller_other _ _ hc]
    · rw [caller_rejectExchange_beginExchange]
      exact over_settle _ _ _
    · rw [caller_rejectExchange_beginExchange]
      rfl
  | ok q =>
    obtain ⟨⟨ha, hd, ht, hf⟩, _⟩ := constructPacket_eq_ok hx
    obtain ⟨r, hexec, hr, hbuilt⟩ := exec_sendRequest_of_fits c s ha hd ht hf
    obtain rfl := Host.Outcome.next.inj (h.symm.trans hexec)
    exact .takesGate _ hr fun _ => hbuilt ▸ callerWf_builtCaller _ ha ht

/-- LOCK and EXCHANGE go to the gate as they are (R88, R92). -/
theorem operation_takeGate_of_no_request (c : CallerId) (s : State) {u : GateUser}
    (hu : ∀ v tid a b, u ≠ .request v tid a b) : Operation c s (takeGate u c s) := by
  refine .takesGate u (onlyCaller_refl s c) fun hp => ?_
  cases u with
  | lock => exact ⟨hp, trivial⟩
  | exchange bytes => exact ⟨hp, trivial⟩
  | request v tid a b => exact absurd rfl (hu v tid a b)

/-- Every instruction of a caller is one of these operations. -/
theorem operation_of_exec {i : Instr} {c : CallerId} {s t : State} (hc : callerOf i = some c) (h : exec i s = .next t) :
    Operation c s t := by
  have hcodec {r : PacketReg} (hr : codecReg i = some r) : Operation c s t := by
    rcases codec_cases hc hr h with ⟨x, hx⟩ | ⟨n, q, v, _, honly, hheld, hret, hphase, _⟩
    · exact operation_of_answersOnly hx
    · exact .answers honly ⟨hheld, by rw [hret]; exact nofun⟩ fun hp => hphase.trans hp
  have hanswers {t' : State} {x : Result Value} (ht : exec i s = .next t') (hx : s.AnswersOnly t' c x) :
      Operation c s t := Host.Outcome.next.inj (ht.symm.trans h) ▸ operation_of_answersOnly hx
  cases i with
  | lookup c m =>
    obtain rfl := Option.some.inj hc
    by_cases hm : ∃ v, (magicOf v).toNat = m
    · obtain ⟨v, hv⟩ := hm
      exact hanswers (exec_lookup_of_magic hv c s) (s.succeed_answersOnly c _)
    · exact hanswers (exec_lookup_of_no_magic (not_exists.1 hm) c s) (s.raise_answersOnly c _)
  | descInfo c d =>
    obtain rfl := Option.some.inj hc
    obtain ⟨v, hv, _⟩ := withVariant_next h
    obtain rfl := variantAt_eq_some hv
    exact hanswers (exec_descInfo_indexOf c v s) (s.succeed_answersOnly c _)
  | acquireOnce c hd =>
    obtain rfl := Option.some.inj hc
    obtain rfl := Host.Outcome.next.inj h
    exact operation_acquireSession c hd s
  | reestablish c hd =>
    obtain rfl := Option.some.inj hc
    obtain rfl := Host.Outcome.next.inj h
    exact operation_reestablishSession c hd s
  | lock c =>
    obtain rfl := Option.some.inj hc
    obtain rfl := Host.Outcome.next.inj h
    exact operation_takeGate_of_no_request c s nofun
  | unlock c =>
    obtain rfl := Option.some.inj hc
    by_cases hg : s.session.holder = some c
    · rw [exec_unlock_of_holder hg] at h
      obtain rfl := Host.Outcome.next.inj h
      exact .unlocks hg
    · rw [exec_unlock_of_not_holder hg] at h
      cases h
  | transfer c bytes =>
    obtain rfl := Option.some.inj hc
    by_cases hg : s.session.holder = some c
    · rw [exec_transfer_of_holder hg] at h
      obtain rfl := Host.Outcome.next.inj h
      exact .transfers bytes hg
    · rw [exec_transfer_of_not_holder hg] at h
      cases h
  | exchange c bytes =>
    obtain rfl := Option.some.inj hc
    obtain rfl := Host.Outcome.next.inj h
    exact operation_takeGate_of_no_request c s nofun
  | sendRequest c d tid f a x =>
    obtain rfl := Option.some.inj hc
    obtain ⟨v, hv, _⟩ := withVariant_next h
    obtain rfl := variantAt_eq_some hv
    exact operation_sendRequest c v tid f a x h
  | pkt8x8 | pkt8x16 | pkt8x32 | pkt8x64 | pkt16x64 | pkt32x32 => cases hc
  | _ => exact hcodec rfl

/-! ### What a transfer can do -/

/-- A transfer may leave the session's state or make it `Degraded`, and may keep the gate or free it (R84, R91, R92). -/
def SessionAfter (ses ses' : Session) : Prop :=
  ∃ st x, ses' = { ses with state := st, holder := x } ∧ (st = ses.state ∨ st = .degraded) ∧ (x = ses.holder ∨ x = none)

theorem stateAfterWrite_cases (st : SessionState) (clean : Bool) (a : WriteAnswer) :
    stateAfterWrite st clean a = st ∨ stateAfterWrite st clean a = .degraded := by
  cases a <;> cases clean <;> simp [stateAfterWrite]

theorem stateAfterRead_cases (st : SessionState) (clean : Bool) (a : ReadAnswer) :
    stateAfterRead st clean a = st ∨ stateAfterRead st clean a = .degraded := by
  cases a <;> cases clean <;> simp [stateAfterRead]

theorem gateAfter_cases (x : Option CallerId) (u : TransferUser) : gateAfter x u = x ∨ gateAfter x u = none := by
  cases u <;> simp [gateAfter]

theorem sessionAfter_of_receiveEnded {s t : State} {c : CallerId} {k : Caller} {a : ReadAnswer} {clean : Bool}
    {u : TransferUser} (h : ReceiveEnded s t c k a clean u) : SessionAfter s.session t.session :=
  ⟨_, _, h.1, stateAfterRead_cases _ _ _, gateAfter_cases _ _⟩

/-- How the TX step in which caller `c` transmits ends: with an error, in the RX step, or with the RX step's end (R91). The
session is `ses` and the wire `w` as it begins. -/
inductive Transmitted (ses : Session) (w : List WireEvent) (t : State) (c : CallerId) : Prop
  | failed (b : Buffer) (a : WriteAnswer) (ha : a ≠ .ok) (hwire : t.wire = w ++ [.write c b a])
      (hsession : SessionAfter ses t.session) (hover : Over (t.caller c))
  | sent (u : TransferUser) (b : Buffer) (hwire : t.wire = w ++ [.write c b .ok]) (hsession : t.session = ses)
      (hheld : (t.caller c).held = some (.atReceive u))
  | carried (b : Buffer) (a : ReadAnswer) (hwire : t.wire = w ++ [.write c b .ok, .read c a])
      (hsession : SessionAfter ses t.session) (hover : Over (t.caller c))

theorem transmitted_of_transmitEnded {s t : State} {c : CallerId} {b : Buffer} {a : WriteAnswer} {clean : Bool}
    {u : TransferUser} (h : TransmitEnded s t c b a clean u) : Transmitted s.session s.wire t c := by
  obtain ⟨hfailed, hsent, hcarried⟩ := h
  by_cases ha : a = .ok
  · cases hr : s.transport.reads with
    | nil =>
      obtain ⟨hwire, hsession, _, hcaller⟩ := hsent ha hr
      exact .sent u b hwire hsession (by rw [hcaller])
    | cons r rest =>
      obtain ⟨hwire, hended⟩ := hcarried ha r rest hr
      obtain ⟨hheld, hret⟩ := over_of_receiveEnded hended
      exact .carried b r hwire (sessionAfter_of_receiveEnded hended) ⟨hheld, hret⟩
  · obtain ⟨e, he⟩ := writeErrorOf_of_ne_ok ha
    obtain ⟨hwire, _, hsession, hcaller⟩ := hfailed e he
    obtain ⟨hheld, hret⟩ := afterTransferError_over (s.caller c) e u
    exact .failed b a ha hwire ⟨_, _, hsession, stateAfterWrite_cases _ _ _, gateAfter_cases _ _⟩
      (by rw [hcaller]; exact ⟨hheld, hret⟩)

/-- How a transfer that has just begun stands (R91). -/
inductive TransferBegun (s t : State) (c : CallerId) (u : TransferUser) (bytes : List Byte) : Prop
  | refused (e : Error) (ht : t = endTransfer u c (.err e) s)
  | blocked (hs : s.session.state = .ready) (ht : t = s.hold c (.atTransmit u (bufferOf bytes)))
  | transmitted (hs : s.session.state = .ready) (a : WriteAnswer) (clean : Bool)
      (ht : TransmitEnded s t c (bufferOf bytes) a clean u)

theorem transferBegun_startTransfer (u : TransferUser) (c : CallerId) (bytes : List Byte) (s : State) :
    TransferBegun s (startTransfer u c bytes s) c u bytes := by
  cases hs : s.session.state with
  | unacquired => exact .refused _ (startTransfer_unacquired hs)
  | degraded => exact .refused _ (startTransfer_degraded hs)
  | ready =>
    by_cases hl : bytes.length = 16
    · obtain ⟨b, rfl⟩ : ∃ b : Buffer, bytes = b.toList := ⟨bufferOf bytes, (toList_bufferOf hl).symm⟩
      cases hw : s.transport.writes with
      | nil =>
        refine .blocked hs ?_
        rw [bufferOf_toList, startTransfer_blocks hs hw]
      | cons a ws =>
        refine .transmitted hs a (drawClean s).1 ?_
        rw [bufferOf_toList]
        exact startTransfer_answered hs hw u b
    · exact .refused _ (startTransfer_length hs hl)

/-! ### The effects of an operation -/

/-- Caller `c` may have the gate: it is free, or `c`'s (R88). -/
def MayHold (c : CallerId) (x : Option CallerId) : Prop := x = none ∨ x = some c

/-- The effect of an operation of caller `c` on the session, the wire and the caller itself: they were `ses`, `w` and, of the
caller, held as `k` says, and are now those of `t`. -/
inductive Effect (ses : Session) (w : List WireEvent) (k : Option Held) (t : State) (c : CallerId) : Prop
  /-- The operation is over with nothing carried; at most the gate has been taken or freed. -/
  | settles (x : Option CallerId) (hgate : x = ses.holder ∨ MayHold c ses.holder ∧ MayHold c x)
      (hsession : t.session = { ses with holder := x }) (hwire : t.wire = w) (hover : Over (t.caller c))
  /-- The caller waits for the gate, which it does not hold. -/
  | waitsAtLock (u : GateUser) (hgate : ses.holder ≠ some c) (hsession : t.session = ses) (hwire : t.wire = w)
      (hheld : (t.caller c).held = some (.atLock u))
  | waitsAtReestablish (h : Handle) (hs : ses.state = .degraded) (hgate : ses.holder ≠ some c) (hsession : t.session = ses)
      (hwire : t.wire = w) (hheld : (t.caller c).held = some (.atReestablish h))
  /-- The first claim. -/
  | claims (h : Handle) (a : ClaimAnswer) (hs : ses.state = .unacquired) (hwire : t.wire = w ++ [.claim h a])
      (hsession : t.session = { ses with handle := some h, claims := ses.claims + 1, state := .ready } ∨ t.session = ses)
      (hover : Over (t.caller c))
  /-- A restoration, of a `Degraded` session or behind a hold. -/
  | restores (h : Handle) (a : ClaimAnswer) (hgate : ses.holder = none)
      (hs : ses.state = .degraded ∨ k = some (.atReestablish h))
      (hwire : t.wire = w ++ (ses.handle.map WireEvent.release).toList ++ [.claim h a])
      (hok : a = .ok → t.session = { ses with state := .ready, handle := some h, claims := ses.claims + 1 })
      (herr : a ≠ .ok → t.session = { ses with handle := none }) (hover : Over (t.caller c))
  /-- The caller holds the gate, in its TX step. -/
  | blocks (u : TransferUser) (b : Buffer) (hgate : MayHold c ses.holder) (hs : ses.state = .ready)
      (hsession : t.session = { ses with holder := some c }) (hwire : t.wire = w)
      (hheld : (t.caller c).held = some (.atTransmit u b))
  /-- A TX step has ended of an operation that has just got the gate, or has it. -/
  | transmitsAtOnce (hgate : MayHold c ses.holder) (hs : ses.state = .ready)
      (hfrom : k = none ∨ ∃ u, k = some (.atLock u)) (ht : Transmitted { ses with holder := some c } w t c)
  /-- A TX step has ended in which the caller was held. -/
  | transmits (u : TransferUser) (b : Buffer) (hfrom : k = some (.atTransmit u b)) (ht : Transmitted ses w t c)

theorem effect_restoreSession (c : CallerId) (h : Handle) (s : State) {k : Option Held} (hgate : s.session.holder = none)
    (hs : s.session.state = .degraded ∨ k = some (.atReestablish h)) :
    Effect s.session s.wire k (restoreSession c h s) c := by
  obtain ⟨⟨a, _, _, hwire, _, _, hok, herr⟩, _⟩ := sessionRestored_restoreSession c h s
  refine .restores h a hgate hs hwire (fun ha => (hok ha).1) (fun ha => (herr ha).1) ?_
  by_cases ha : a = .ok
  · rw [(hok ha).2]
    exact ⟨rfl, nofun⟩
  · rw [(herr ha).2]
    exact ⟨rfl, nofun⟩

theorem effect_claimFor {s : State} {k : Option Held} (hs : s.session.state = .unacquired) (c : CallerId) (h : Handle) :
    Effect s.session s.wire k (claimFor c h s) c := by
  obtain ⟨_, hwire, _⟩ := claimFor_frame c h s
  by_cases ha : (drawClaim s).1 = .ok
  · obtain ⟨hsession, hcaller⟩ := claimFor_of_ok c h ha
    exact .claims h _ hs hwire (.inl hsession) (hcaller ▸ over_finish _ _)
  · obtain ⟨hsession, hcaller⟩ := claimFor_of_ne_ok c h ha
    exact .claims h _ hs hwire (.inr hsession) (hcaller ▸ over_finish _ _)

theorem effect_of_onlyCaller {s t : State} {c : CallerId} {k : Option Held} (h : s.OnlyCaller t c)
    (hover : Over (t.caller c)) : Effect s.session s.wire k t c := by
  obtain ⟨hsession, _, _, _, hwire, _⟩ := h
  exact .settles _ (.inl rfl) hsession hwire hover

theorem onlyCaller_reentrantGate (u : GateUser) (c : CallerId) (s : State) :
    s.OnlyCaller (reentrantGate u c s) c ∧ Over ((reentrantGate u c s).caller c) := by
  cases u with
  | lock => exact ⟨s.onlyCaller_mapCaller c _, over_of_answersOnly (s.raise_answersOnly c _)⟩
  | exchange bytes => exact ⟨s.onlyCaller_mapCaller c _, over_of_answersOnly (s.raise_answersOnly c _)⟩
  | request v tid a b =>
    refine ⟨s.onlyCaller_mapCaller c _, ?_⟩
    rw [reentrantGate, rejectExchange, State.caller_mapCaller_self]
    exact over_settle _ _ _

section Gate

variable {s r : State} {c : CallerId} {k : Option Held}

/-- A transfer of a caller that has the gate, whatever the caller has done on its way there. -/
theorem effect_startTransfer (hr : s.OnlyCaller r c) (hgate : MayHold c s.session.holder)
    (hfrom : k = none ∨ ∃ u, k = some (.atLock u)) (u : TransferUser) (bytes : List Byte) :
    Effect s.session s.wire k (startTransfer u c bytes (r.setHolder (some c))) c := by
  obtain ⟨hsession, _, _, _, hwire, _⟩ := hr
  have hses : (r.setHolder (some c)).session = { s.session with holder := some c } := by
    rw [State.setHolder_session, hsession]
  cases transferBegun_startTransfer u c bytes (r.setHolder (some c)) with
  | refused e ht =>
    obtain ⟨hsession', _, hwire'⟩ := endTransfer_frame u c (.err e) (r.setHolder (some c))
    rw [hses] at hsession'
    obtain ⟨hheld, hret⟩ := afterTransferError_over (r.caller c) e u
    rw [ht]
    refine .settles _ (.inr ⟨hgate, ?_⟩) hsession' (hwire'.trans hwire) ?_
    · rcases gateAfter_cases (some c) u with h | h
      · exact .inr h
      · exact .inl h
    · rw [endTransfer_err_caller]
      exact ⟨hheld, hret⟩
  | blocked hs ht =>
    rw [ht]
    exact .blocks u _ hgate (by rw [← hs, hses]) hses hwire (by rw [State.caller_hold_self, Caller.hold_held])
  | transmitted hs a clean ht =>
    have htr := transmitted_of_transmitEnded ht
    rw [hses, State.setHolder_wire, hwire] at htr
    exact .transmitsAtOnce hgate (by rw [← hs, hses]) hfrom htr

theorem effect_grantGate (hr : s.OnlyCaller r c) (hgate : s.session.holder = none)
    (hfrom : k = none ∨ ∃ u, k = some (.atLock u)) (u : GateUser) :
    Effect s.session s.wire k (grantGate u c r) c := by
  cases u with
  | lock =>
    obtain ⟨hsession, _, _, _, hwire, _⟩ := hr
    refine .settles (some c) (.inr ⟨.inl hgate, .inr rfl⟩) ?_ hwire (over_of_answersOnly (State.succeed_answersOnly _ c _))
    rw [← hsession]
    rfl
  | exchange bytes => exact effect_startTransfer hr (.inl hgate) hfrom _ _
  | request v tid a b => exact effect_startTransfer hr (.inl hgate) hfrom _ _

theorem effect_takeGate (hr : s.OnlyCaller r c) (u : GateUser) : Effect s.session s.wire none (takeGate u c r) c := by
  have ⟨hsession, _, _, _, hwire, _⟩ := hr
  by_cases hh : s.session.holder = some c
  · rw [takeGate_reentrant (by rw [hsession, hh])]
    obtain ⟨honly, hover⟩ := onlyCaller_reentrantGate u c r
    exact effect_of_onlyCaller (onlyCaller_trans hr honly) hover
  · cases hg : s.session.holder with
    | none =>
      rw [takeGate_free (by rw [hsession, hg])]
      exact effect_grantGate hr hg (.inl rfl) u
    | some c' =>
      have hne : c' ≠ c := fun e => hh (by rw [hg, e])
      rw [takeGate_held (by rw [hsession, hg]) hne]
      exact .waitsAtLock u hh hsession hwire (by rw [State.caller_hold_self, Caller.hold_held])

end Gate

/-- The effect of an instruction of a caller that is not held. -/
theorem effect_of_operation {c : CallerId} {s t : State} (h : Operation c s t) : Effect s.session s.wire none t c := by
  cases h with
  | answers honly hover _ => exact effect_of_onlyCaller honly hover
  | claims h hs => exact effect_claimFor hs c h
  | restores h hs hg => exact effect_restoreSession c h s hg (.inl hs)
  | waits h hs hg => exact .waitsAtReestablish h hs hg rfl rfl (by rw [State.caller_hold_self, Caller.hold_held])
  | takesGate u hr _ => exact effect_takeGate hr u
  | unlocks hg =>
    exact .settles none (.inr ⟨.inr hg, .inl rfl⟩) rfl rfl (over_of_answersOnly (State.succeed_answersOnly _ c _))
  | transfers bytes hg =>
    have h := effect_startTransfer (onlyCaller_refl s c) (.inr hg) (.inl (rfl : none = none)) .raw bytes
    rwa [setHolder_eq_self hg] at h

/-! ### The effects of a step -/

/-- What a step from `s` to `t` did. -/
inductive StepDid (s t : State) : Prop
  /-- Nothing to the callers, the session or the wire. -/
  | waited (hcallers : ∀ c, t.caller c = s.caller c) (hsession : t.session = s.session) (hwire : t.wire = s.wire)
  /-- A caller's operation: its next command, or one in which it was held, but not in its RX step. -/
  | operated (c : CallerId) (hothers : ∀ c', c' ≠ c → t.caller c' = s.caller c')
      (hfrom : ∀ u, (s.caller c).held ≠ some (.atReceive u))
      (hnext : (s.caller c).held = none → ∃ cmd left, takeIssued c s.issued = some (cmd, left) ∧ t.issued = left)
      (heffect : Effect s.session s.wire (s.caller c).held t c)
  /-- The end of an RX step. -/
  | received (c : CallerId) (u : TransferUser) (a : ReadAnswer) (hothers : ∀ c', c' ≠ c → t.caller c' = s.caller c')
      (hfrom : (s.caller c).held = some (.atReceive u)) (hwire : t.wire = s.wire ++ [.read c a])
      (hsession : SessionAfter s.session t.session) (hover : Over (t.caller c))

section Steps

variable {s s0 t : State} {c : CallerId}

/-- What a step did does not depend on the schedule or the transport in which it began. -/
theorem stepDid_of_begun (hsession : s0.session = s.session) (hcallers : s0.callers = s.callers)
    (hissued : s0.issued = s.issued) (hwire : s0.wire = s.wire) (h : StepDid s0 t) : StepDid s t := by
  have hcaller (c : CallerId) : s0.caller c = s.caller c := by rw [State.caller, hcallers, State.caller]
  cases h with
  | waited h1 h2 h3 => exact .waited (fun c => (h1 c).trans (hcaller c)) (h2.trans hsession) (h3.trans hwire)
  | operated c hothers hfrom hnext heffect =>
    simp only [hsession, hissued, hwire, hcaller] at hothers hfrom hnext heffect
    exact .operated c hothers hfrom hnext heffect
  | received c u a hothers hfrom hwire' hsession' hover =>
    simp only [hsession, hwire, hcaller] at hothers hfrom hwire' hsession'
    exact .received c u a hothers hfrom hwire' hsession' hover

theorem stepDid_receiveDrawn {u : TransferUser} (hfrom : (s.caller c).held = some (.atReceive u)) :
    StepDid s (receiveDrawn u c s) := by
  obtain ⟨hwire, hended⟩ := receiveDrawn_ended u c s
  have hsession := sessionAfter_of_receiveEnded hended
  obtain ⟨hheld, hret⟩ := over_of_receiveEnded hended
  exact .received c u _ (operationFrame_of_moves (moves_receiveDrawn u c s)).others hfrom hwire hsession ⟨hheld, hret⟩

theorem stepDid_resume {hd : Held} (hheld : (s.caller c).held = some hd) : StepDid s (resume c hd s) := by
  have hframe := operationFrame_of_moves (resume_moves c hd s)
  have hnone : (s.caller c).held ≠ none := by rw [hheld]; exact nofun
  have hoperated {t : State} (ht : resume c hd s = t) (hhd : ∀ u, hd ≠ .atReceive u)
      (heffect : Effect s.session s.wire (some hd) t c) : StepDid s (resume c hd s) := by
    refine .operated c hframe.others (fun u hu => hhd u ?_) (fun h => absurd h hnone) ?_
    · rw [hheld] at hu
      exact Option.some.inj hu
    · rwa [ht, hheld]
  cases hd with
  | atLock u =>
    by_cases hg : s.session.holder = none
    · exact hoperated (resume_atLock_free hg) nofun (effect_grantGate (onlyCaller_refl s c) hg (.inr ⟨u, rfl⟩) u)
    · rw [resume_atLock_held hg]
      exact .waited (fun _ => rfl) rfl rfl
  | atReestablish h =>
    by_cases hg : s.session.holder = none
    · refine hoperated ?_ nofun (effect_restoreSession c h s hg (.inr rfl))
      rw [resume_atReestablish, if_pos hg]
    · rw [resume_atReestablish, if_neg hg]
      exact .waited (fun _ => rfl) rfl rfl
  | atTransmit u b =>
    exact hoperated rfl nofun (.transmits u b rfl (transmitted_of_transmitEnded (transmitDrawn_ended u c b s)))
  | atReceive u => exact stepDid_receiveDrawn hheld

theorem stepDid_deliverPacket (b : Buffer) (s : State) : StepDid s (deliverPacket b s) := by
  rcases deliverPacket_moves b s with he | ⟨c, u, _, hu, _, he⟩
  · rw [he]
    exact .waited (fun _ => rfl) rfl rfl
  · rw [he]
    refine stepDid_of_begun (s0 := { s with transport := { s.transport with reads := s.transport.reads ++ [.ok b] } })
      rfl rfl rfl rfl (stepDid_receiveDrawn hu)

theorem stepDid_exec {cmd : Command} {left : List Command} {i : Instr} (hheld : (s.caller c).held = none)
    (htake : takeIssued c s.issued = some (cmd, left)) (hc : callerOf i = some c)
    (h : exec i { s with issued := left } = .next t) : StepDid s t := by
  have hframe := operationFrame_of_moves (exec_moves hc h)
  refine .operated c hframe.others (fun u hu => ?_) (fun _ => ⟨cmd, left, htake, hframe.issued⟩) ?_
  · rw [hheld] at hu
    cases hu
  · rw [hheld]
    exact effect_of_operation (s := { s with issued := left }) (operation_of_exec hc h)

/-- A step is one of these, with these effects. -/
theorem stepDid_of_step (h : step s = .next t) : StepDid s t := by
  obtain ⟨s0, hb, hcase⟩ := step_cases h
  refine stepDid_of_begun hb.session hb.callers hb.issued hb.wire ?_
  rcases hcase with rfl | ⟨c, hd, hheld, rfl⟩ | ⟨c, cmd, left, i, hheld, htake, hc, he⟩ | ⟨b, rest, _, rfl⟩
  · exact .waited (fun _ => rfl) rfl rfl
  · exact stepDid_resume hheld
  · exact stepDid_exec hheld htake hc he
  · exact stepDid_of_begun (s0 := { s0 with transport := { s0.transport with inbound := rest } }) rfl rfl rfl rfl
      (stepDid_deliverPacket b _)

end Steps

end Sys2Proof.Proofs

/-!
What every step keeps of the session's registers, of the gate and of the order of the wire, and how often a step transmits: read
from what a step did (`StepDid`).
-/

namespace Sys2Proof.Proofs

open Sys2Proof Sys2Proof.Machine

/-! ### The session's registers -/

theorem sessionWf_iff {s : State} : s.SessionWf ↔
    (s.session.state = .unacquired → s.session.handle = none ∧ s.session.claims = 0) ∧
      (s.session.state ≠ .unacquired → 1 ≤ s.session.claims) := by
  unfold State.SessionWf
  split <;> simp [*]

/-- What a step may do to the session's registers (R26, R28, R109): they agree after it, no claim is lost, and a `Ready` session
has a handle unless `lost` says why not. -/
structure RegistersKept (s t : State) (lost : Prop) : Prop where
  wf : t.SessionWf
  claims : s.session.claims ≤ t.session.claims
  ready : t.session.state = .ready → t.session.handle = none → s.session.state = .ready ∧ (s.session.handle = none ∨ lost)

section Registers

variable {s t : State} {lost : Prop}

/-- A step that neither binds nor releases keeps the registers. -/
theorem registersKept_of_no_claim (hs : s.SessionWf) (hhandle : t.session.handle = s.session.handle)
    (hclaims : t.session.claims = s.session.claims)
    (hstate : t.session.state = s.session.state ∨ s.session.state ≠ .unacquired ∧ t.session.state = .degraded) :
    RegistersKept s t lost := by
  obtain ⟨hun, hac⟩ := sessionWf_iff.1 hs
  refine ⟨sessionWf_iff.2 ?_, hclaims.ge, ?_⟩
  · rcases hstate with he | ⟨hne, hd⟩
    · rw [he, hhandle, hclaims]
      exact ⟨hun, hac⟩
    · rw [hd, hclaims]
      exact ⟨nofun, fun _ => hac hne⟩
  · intro hready hnone
    rcases hstate with he | ⟨_, hd⟩
    · exact ⟨he.symm.trans hready, .inl (hhandle.symm.trans hnone)⟩
    · rw [hd] at hready
      cases hready

/-- A step that binds a handle keeps the registers. -/
theorem registersKept_of_bind (h : Handle) (hclaims : t.session.claims = s.session.claims + 1)
    (hstate : t.session.state = .ready) (hhandle : t.session.handle = some h) : RegistersKept s t lost := by
  refine ⟨sessionWf_iff.2 ?_, by omega, fun _ hnone => ?_⟩
  · rw [hstate, hclaims]
    exact ⟨nofun, fun _ => by omega⟩
  · rw [hhandle] at hnone
    cases hnone

/-- A step that loses the handle keeps the registers of a session that has been claimed. -/
theorem registersKept_of_unbind (hs : s.SessionWf) (hne : s.session.state ≠ .unacquired)
    (hsession : t.session = { s.session with handle := none }) (hlost : s.session.state = .ready → lost) :
    RegistersKept s t lost := by
  obtain ⟨_, hac⟩ := sessionWf_iff.1 hs
  refine ⟨sessionWf_iff.2 ?_, by rw [hsession], fun hready _ => ?_⟩
  · rw [hsession]
    exact ⟨fun h => absurd h hne, fun _ => hac hne⟩
  · rw [hsession] at hready
    exact ⟨hready, .inr (hlost hready)⟩

theorem registersKept_of_sessionAfter {x : Option CallerId} (hs : s.SessionWf) (hready : s.session.state = .ready)
    (h : SessionAfter { s.session with holder := x } t.session) : RegistersKept s t lost := by
  obtain ⟨st, x', hses, hst, _⟩ := h
  refine registersKept_of_no_claim hs (by rw [hses]) (by rw [hses]) ?_
  rw [hses]
  exact hst.imp_right fun hd => ⟨by rw [hready]; exact nofun, hd⟩

theorem registersKept_of_transmitted {x : Option CallerId} {c : CallerId} {w : List WireEvent} (hs : s.SessionWf)
    (hready : s.session.state = .ready) (h : Transmitted { s.session with holder := x } w t c) : RegistersKept s t lost := by
  cases h with
  | failed b a ha hwire hsession hover => exact registersKept_of_sessionAfter hs hready hsession
  | sent u b hwire hsession hheld =>
    exact registersKept_of_no_claim hs (by rw [hsession]) (by rw [hsession]) (.inl (by rw [hsession]))
  | carried b a hwire hsession hover => exact registersKept_of_sessionAfter hs hready hsession

end Registers

/-- A session keeps its registers when an operation leaves them out. -/
theorem registersKept_of_effect {s t : State} {c : CallerId} (hs : s.SessionWf) (hgate : s.GateWf)
    (h : Effect s.session s.wire (s.caller c).held t c) :
    RegistersKept s t (∃ c h a, (s.caller c).held = some (.atReestablish h) ∧ a ≠ .ok ∧
      t.wire = s.wire ++ (s.session.handle.map WireEvent.release).toList ++ [.claim h a]) := by
  have hkept {x : Option CallerId} {P : Prop} (h : t.session = { s.session with holder := x }) : RegistersKept s t P :=
    registersKept_of_no_claim hs (by rw [h]) (by rw [h]) (.inl (by rw [h]))
  cases h with
  | settles x _ hsession _ _ => exact hkept hsession
  | waitsAtLock u _ hsession _ _ => exact hkept hsession
  | waitsAtReestablish h _ _ hsession _ _ => exact hkept hsession
  | blocks u b _ _ hsession _ _ => exact hkept hsession
  | claims h a _ _ hsession _ =>
    rcases hsession with hses | hses
    · exact registersKept_of_bind h (by rw [hses]) (by rw [hses]) (by rw [hses])
    · exact hkept hses
  | restores h a _ hfrom hwire hok herr _ =>
    by_cases ha : a = .ok
    · have hses := hok ha
      exact registersKept_of_bind h (by rw [hses]) (by rw [hses]) (by rw [hses])
    · refine registersKept_of_unbind hs (fun hun => ?_) (herr ha) fun hready => ?_
      · rcases hfrom with hd | hheld
        · rw [hun] at hd
          cases hd
        · obtain ⟨_, hne⟩ := hgate c _ hheld
          exact hne hun
      · rcases hfrom with hd | hheld
        · rw [hready] at hd
          cases hd
        · exact ⟨c, h, a, hheld, ha, hwire⟩
  | transmitsAtOnce _ hready _ ht => exact registersKept_of_transmitted hs hready ht
  | transmits u b hfrom ht =>
    obtain ⟨_, hready⟩ := hgate c _ hfrom
    exact registersKept_of_transmitted (x := s.session.holder) hs hready ht

/-- Settles O54: a step binds, or releases and claims, or leaves the handle and the count as they were. -/
theorem stepKeepsSessionRegisters : Obligations.StepKeepsSessionRegisters := by
  intro s t hs hgate h
  have hkept : RegistersKept s t (∃ c h a, (s.caller c).held = some (.atReestablish h) ∧ a ≠ .ok ∧
      t.wire = s.wire ++ (s.session.handle.map WireEvent.release).toList ++ [.claim h a]) := by
    cases stepDid_of_step h with
    | waited _ hsession _ =>
      exact registersKept_of_no_claim hs (by rw [hsession]) (by rw [hsession]) (.inl (by rw [hsession]))
    | operated c _ _ _ heffect => exact registersKept_of_effect hs hgate heffect
    | received c u a _ hfrom _ hsession _ =>
      obtain ⟨_, hready⟩ := hgate c _ hfrom
      exact registersKept_of_sessionAfter (x := s.session.holder) hs hready hsession
  exact ⟨hkept.wf, hkept.claims, hkept.ready⟩

/-! ### The gate -/

/-- The gate and the session are as held operation `h` of caller `c` needs them: `State.GateWf` of one caller. -/
def GateOk (ses : Session) (c : CallerId) : Held → Prop
  | .atLock _ => ses.holder ≠ some c
  | .atReestablish _ => ses.holder ≠ some c ∧ ses.state ≠ .unacquired
  | .atTransmit _ _ => ses.holder = some c ∧ ses.state = .ready
  | .atReceive _ => ses.holder = some c ∧ ses.state = .ready

theorem gateWf_iff {s : State} : s.GateWf ↔ ∀ c h, (s.caller c).held = some h → GateOk s.session c h := by
  constructor
  · intro hs c h hh
    cases h <;> exact hs c _ hh
  · intro hs c h hh
    cases h <;> exact hs c _ hh

/-- What an operation of caller `c` may do to the gate and the session's state: take or free a gate that it may have, and change
the state only of its own gate or of a session that is not `Ready`. -/
structure GateMoves (c : CallerId) (ses ses' : Session) : Prop where
  holder : ses'.holder = ses.holder ∨ MayHold c ses.holder ∧ MayHold c ses'.holder
  state : ses'.state = ses.state ∨ ses'.state ≠ .unacquired ∧ (MayHold c ses.holder ∨ ses.state ≠ .ready)

section GateMoves

variable {c c' : CallerId} {ses ses' : Session}

theorem gateMoves_of_holder {x : Option CallerId} (hx : x = ses.holder ∨ MayHold c ses.holder ∧ MayHold c x) :
    GateMoves c ses { ses with holder := x } := ⟨hx, .inl rfl⟩

theorem mayHold_some (c : CallerId) : MayHold c (some c) := .inr rfl

theorem eq_of_mayHold_some (h : MayHold c (some c')) : c' = c := by
  rcases h with h | h
  · cases h
  · exact Option.some.inj h

theorem gateMoves_of_sessionAfter (hgate : MayHold c ses.holder) (h : SessionAfter { ses with holder := some c } ses') :
    GateMoves c ses ses' := by
  obtain ⟨st, x, rfl, hst, hx⟩ := h
  refine ⟨.inr ⟨hgate, ?_⟩, hst.imp_right ?_⟩
  · rcases hx with rfl | rfl
    · exact mayHold_some c
    · exact .inl rfl
  · rintro rfl
    exact ⟨nofun, .inl hgate⟩

/-- What another caller's operation may do to the gate leaves a held caller's operation as it needs it. -/
theorem gateOk_of_gateMoves (hm : GateMoves c ses ses') (hc : c' ≠ c) {h : Held} (hok : GateOk ses c' h) :
    GateOk ses' c' h := by
  have hnot {x : Option CallerId} (hx : MayHold c x) : x ≠ some c' := by
    rintro rfl
    exact hc (eq_of_mayHold_some hx)
  obtain ⟨hholder, hstate⟩ := hm
  have hwaits (hne : ses.holder ≠ some c') : ses'.holder ≠ some c' := by
    rcases hholder with he | ⟨_, hx⟩
    · rwa [he]
    · exact hnot hx
  have htransfers (hg : ses.holder = some c') (hr : ses.state = .ready) : ses'.holder = some c' ∧ ses'.state = .ready := by
    have hmay : ¬ MayHold c ses.holder := fun hx => hnot hx hg
    refine ⟨?_, ?_⟩
    · rcases hholder with he | ⟨hx, _⟩
      · rwa [he]
      · exact absurd hx hmay
    · rcases hstate with he | ⟨_, hx | hne⟩
      · rwa [he]
      · exact absurd hx hmay
      · exact absurd hr hne
  cases h with
  | atLock u => exact hwaits hok
  | atReestablish hd =>
    obtain ⟨hne, hun⟩ := hok
    refine ⟨hwaits hne, ?_⟩
    rcases hstate with he | ⟨hne', _⟩
    · rwa [he]
    · exact hne'
  | atTransmit u b => exact htransfers hok.1 hok.2
  | atReceive u => exact htransfers hok.1 hok.2

end GateMoves

section KeepsGate

variable {s t : State} {c : CallerId}

/-- An operation keeps the gate's invariant when its own caller has what it is held for. -/
theorem gateWf_of_gateMoves (hs : s.GateWf) (hothers : ∀ c', c' ≠ c → t.caller c' = s.caller c')
    (hm : GateMoves c s.session t.session) (hown : ∀ h, (t.caller c).held = some h → GateOk t.session c h) : t.GateWf := by
  refine gateWf_iff.2 fun c' h hh => ?_
  by_cases hc : c' = c
  · subst hc
    exact hown h hh
  · rw [hothers c' hc] at hh
    exact gateOk_of_gateMoves hm hc (gateWf_iff.1 hs c' h hh)

theorem gateOk_of_over {ses : Session} (h : Over (t.caller c)) (hd : Held) (hh : (t.caller c).held = some hd) :
    GateOk ses c hd := by
  rw [h.held] at hh
  cases hh

theorem gateOk_of_held {ses : Session} {hd : Held} (hheld : (t.caller c).held = some hd) (hok : GateOk ses c hd) (hd' : Held)
    (hh : (t.caller c).held = some hd') : GateOk ses c hd' := by
  rw [hheld] at hh
  obtain rfl := Option.some.inj hh
  exact hok

theorem gateWf_of_transmitted {w : List WireEvent} (hs : s.GateWf) (hothers : ∀ c', c' ≠ c → t.caller c' = s.caller c')
    (hgate : MayHold c s.session.holder) (hready : s.session.state = .ready)
    (h : Transmitted { s.session with holder := some c } w t c) : t.GateWf := by
  cases h with
  | failed b a _ _ hsession hover =>
    exact gateWf_of_gateMoves hs hothers (gateMoves_of_sessionAfter hgate hsession) (gateOk_of_over hover)
  | sent u b _ hsession hheld =>
    refine gateWf_of_gateMoves hs hothers ?_ ?_
    · rw [hsession]
      exact gateMoves_of_holder (.inr ⟨hgate, mayHold_some c⟩)
    · rw [hsession]
      exact gateOk_of_held hheld ⟨rfl, hready⟩
  | carried b a _ hsession hover =>
    exact gateWf_of_gateMoves hs hothers (gateMoves_of_sessionAfter hgate hsession) (gateOk_of_over hover)

/-- A session in which `c` holds the gate is itself with the gate taken by `c`. -/
theorem session_of_holder {ses : Session} (h : ses.holder = some c) : { ses with holder := some c } = ses := by
  cases ses
  subst h
  rfl

theorem gateWf_of_effect (hs : s.GateWf) (hothers : ∀ c', c' ≠ c → t.caller c' = s.caller c')
    (h : Effect s.session s.wire (s.caller c).held t c) : t.GateWf := by
  cases h with
  | settles x hgate hsession _ hover =>
    refine gateWf_of_gateMoves hs hothers ?_ (gateOk_of_over hover)
    rw [hsession]
    exact gateMoves_of_holder hgate
  | waitsAtLock u hgate hsession _ hheld =>
    refine gateWf_of_gateMoves hs hothers ?_ ?_
    · rw [hsession]
      exact gateMoves_of_holder (.inl rfl)
    · rw [hsession]
      exact gateOk_of_held hheld hgate
  | waitsAtReestablish hd hd' hgate hsession _ hheld =>
    refine gateWf_of_gateMoves hs hothers ?_ ?_
    · rw [hsession]
      exact gateMoves_of_holder (.inl rfl)
    · rw [hsession]
      exact gateOk_of_held hheld ⟨hgate, by rw [hd']; exact nofun⟩
  | claims hd a hun _ hsession hover =>
    refine gateWf_of_gateMoves hs hothers ?_ (gateOk_of_over hover)
    rcases hsession with hses | hses
    · rw [hses]
      exact ⟨.inl rfl, .inr ⟨nofun, .inr (by rw [hun]; exact nofun)⟩⟩
    · rw [hses]
      exact ⟨.inl rfl, .inl rfl⟩
  | restores hd a hgate _ _ hok herr hover =>
    refine gateWf_of_gateMoves hs hothers ?_ (gateOk_of_over hover)
    by_cases ha : a = .ok
    · rw [hok ha]
      exact ⟨.inl rfl, .inr ⟨nofun, .inl (.inl hgate)⟩⟩
    · rw [herr ha]
      exact ⟨.inl rfl, .inl rfl⟩
  | blocks u b hgate hready hsession _ hheld =>
    refine gateWf_of_gateMoves hs hothers ?_ ?_
    · rw [hsession]
      exact gateMoves_of_holder (.inr ⟨hgate, mayHold_some c⟩)
    · rw [hsession]
      exact gateOk_of_held hheld ⟨rfl, hready⟩
  | transmitsAtOnce hgate hready _ ht => exact gateWf_of_transmitted hs hothers hgate hready ht
  | transmits u b hfrom ht =>
    obtain ⟨hg, hready⟩ := hs c _ hfrom
    rw [← session_of_holder hg] at ht
    exact gateWf_of_transmitted hs hothers (.inr hg) hready ht

theorem gateWf_of_stepDid (hs : s.GateWf) (h : StepDid s t) : t.GateWf := by
  cases h with
  | waited hcallers hsession _ =>
    intro c hd hh
    rw [hcallers] at hh
    rw [hsession]
    exact hs c hd hh
  | operated c hothers _ _ heffect => exact gateWf_of_effect hs hothers heffect
  | received c u a hothers hfrom _ hsession hover =>
    obtain ⟨hg, _⟩ := hs c _ hfrom
    rw [← session_of_holder hg] at hsession
    exact gateWf_of_gateMoves hs hothers (gateMoves_of_sessionAfter (.inr hg) hsession) (gateOk_of_over hover)

end KeepsGate

/-! ### The order of the wire -/

theorem openTransfer_append (w w' : List WireEvent) : openTransfer (w ++ w') = w'.foldl openAfter (openTransfer w) := by
  rw [openTransfer, List.foldl_append, openTransfer]

theorem wireOrderedFrom_append (o : Option CallerId) (w w' : List WireEvent) :
    wireOrderedFrom o (w ++ w') = (wireOrderedFrom o w && wireOrderedFrom (w.foldl openAfter o) w') := by
  induction w generalizing o with
  | nil => rfl
  | cons e w ih => simp only [List.cons_append, wireOrderedFrom, ih, List.foldl_cons, Bool.and_assoc]

theorem ne_atReceive_of_over {k : Caller} (h : Over k) (u : TransferUser) : k.held ≠ some (.atReceive u) := by
  rw [h.held]
  exact nofun

theorem ne_atReceive_of_held {k : Caller} {hd : Held} (h : k.held = some hd) (hne : ∀ u, hd ≠ .atReceive u)
    (u : TransferUser) : k.held ≠ some (.atReceive u) := by
  rw [h]
  exact fun he => hne u (Option.some.inj he)

section KeepsWire

variable {s t : State} {c : CallerId}

/-- An open transfer is that of the gate's holder, in the RX step of a `Ready` session. -/
theorem holds_of_openTransfer (hg : s.GateWf) (hw : s.WireWf) (ho : openTransfer s.wire = some c) :
    s.session.holder = some c ∧ s.session.state = .ready ∧ ∃ u, (s.caller c).held = some (.atReceive u) := by
  obtain ⟨u, hu⟩ := (hw.2 c).1 ho
  obtain ⟨hholder, hready⟩ := hg c _ hu
  exact ⟨hholder, hready, u, hu⟩

theorem no_openTransfer_of_state (hg : s.GateWf) (hw : s.WireWf) (h : s.session.state ≠ .ready) :
    openTransfer s.wire = none := by
  refine Option.eq_none_iff_forall_ne_some.2 fun c ho => ?_
  obtain ⟨_, hready, _⟩ := holds_of_openTransfer hg hw ho
  exact h hready

/-- No transfer is open at a gate that a caller may have that is not in its RX step. -/
theorem no_openTransfer_of_gate (hg : s.GateWf) (hw : s.WireWf) (hgate : MayHold c s.session.holder)
    (hfrom : ∀ u, (s.caller c).held ≠ some (.atReceive u)) : openTransfer s.wire = none := by
  refine Option.eq_none_iff_forall_ne_some.2 fun c' ho => ?_
  obtain ⟨hholder, _, u, hu⟩ := holds_of_openTransfer hg hw ho
  rw [hholder] at hgate
  obtain rfl := eq_of_mayHold_some hgate
  exact hfrom u hu

/-- A step that carries nothing keeps the order, where its caller is not in an RX step before or after. -/
theorem wireWf_of_quiet (hw : s.WireWf) (hothers : ∀ c', c' ≠ c → t.caller c' = s.caller c') (hwire : t.wire = s.wire)
    (hfrom : ∀ u, (s.caller c).held ≠ some (.atReceive u)) (hto : ∀ u, (t.caller c).held ≠ some (.atReceive u)) :
    t.WireWf := by
  obtain ⟨hordered, hopen⟩ := hw
  refine ⟨by rw [hwire]; exact hordered, fun c' => ?_⟩
  rw [hwire, hopen c']
  by_cases hc : c' = c
  · subst hc
    exact ⟨fun ⟨u, hu⟩ => absurd hu (hfrom u), fun ⟨u, hu⟩ => absurd hu (hto u)⟩
  · rw [hothers c' hc]

/-- A step that carries `w` while no transfer is open keeps the order, where `w` is in order itself and leaves open what its
caller is held for. -/
theorem wireWf_of_carries (hw : s.WireWf) (hnone : openTransfer s.wire = none)
    (hothers : ∀ c', c' ≠ c → t.caller c' = s.caller c') {w : List WireEvent} (hwire : t.wire = s.wire ++ w)
    (hordered : wireOrderedFrom none w = true)
    (hopen : w.foldl openAfter none = none ∧ (t.caller c).held = none ∨
      w.foldl openAfter none = some c ∧ ∃ u, (t.caller c).held = some (.atReceive u)) : t.WireWf := by
  have hidle (c' : CallerId) : ¬ ∃ u, (s.caller c').held = some (.atReceive u) := fun h => by
    have ho := (hw.2 c').2 h
    rw [hnone] at ho
    cases ho
  refine ⟨?_, fun c' => ?_⟩
  · rw [hwire, wireOrderedFrom_append, hw.1, Bool.true_and]
    exact (congrArg (wireOrderedFrom · w) hnone).trans hordered
  · rw [hwire, openTransfer_append, hnone]
    by_cases hc : c' = c
    · subst hc
      rcases hopen with ⟨ho, hh⟩ | ⟨ho, hu⟩
      · rw [ho, hh]
        exact ⟨nofun, nofun⟩
      · exact ⟨fun _ => hu, fun _ => ho⟩
    · rw [hothers c' hc]
      refine ⟨fun ho => ?_, fun h => absurd h (hidle c')⟩
      rcases hopen with ⟨ho', _⟩ | ⟨ho', _⟩
      · rw [ho'] at ho
        cases ho
      · rw [ho'] at ho
        exact absurd (Option.some.inj ho).symm hc

theorem openAfter_write_of_ne_ok (o : Option CallerId) (b : Buffer) {a : WriteAnswer} (ha : a ≠ .ok) :
    openAfter o (.write c b a) = none := by
  cases a with
  | ok => exact absurd rfl ha
  | _ => rfl

theorem wireWf_of_transmitted {ses : Session} (hw : s.WireWf) (hnone : openTransfer s.wire = none)
    (hothers : ∀ c', c' ≠ c → t.caller c' = s.caller c') (h : Transmitted ses s.wire t c) : t.WireWf := by
  cases h with
  | failed b a ha hwire _ hover =>
    exact wireWf_of_carries hw hnone hothers hwire rfl (.inl ⟨openAfter_write_of_ne_ok none b ha, hover.held⟩)
  | sent u b hwire _ hheld => exact wireWf_of_carries hw hnone hothers hwire rfl (.inr ⟨rfl, u, hheld⟩)
  | carried b a hwire _ hover =>
    refine wireWf_of_carries hw hnone hothers hwire ?_ (.inl ⟨rfl, hover.held⟩)
    simp [wireOrderedFrom, inOrder, openAfter]

/-- A release, where there is a handle, and a claim: neither opens or closes a transfer. -/
theorem restoration_carries_no_transfer (x : Option Handle) (h : Handle) (a : ClaimAnswer) :
    wireOrderedFrom none ((x.map WireEvent.release).toList ++ [.claim h a]) = true ∧
      ((x.map WireEvent.release).toList ++ [WireEvent.claim h a]).foldl openAfter none = none ∧
      transfersIn ((x.map WireEvent.release).toList ++ [WireEvent.claim h a]) = [] := by
  cases x with
  | none => exact ⟨rfl, rfl, rfl⟩
  | some y => exact ⟨rfl, rfl, rfl⟩

theorem wireWf_of_effect (hg : s.GateWf) (hw : s.WireWf) (hothers : ∀ c', c' ≠ c → t.caller c' = s.caller c')
    (hfrom : ∀ u, (s.caller c).held ≠ some (.atReceive u)) (h : Effect s.session s.wire (s.caller c).held t c) :
    t.WireWf := by
  cases h with
  | settles x _ _ hwire hover =>
    exact wireWf_of_quiet hw hothers hwire hfrom (ne_atReceive_of_over hover)
  | waitsAtLock u _ _ hwire hheld =>
    exact wireWf_of_quiet hw hothers hwire hfrom (ne_atReceive_of_held hheld nofun)
  | waitsAtReestablish hd _ _ _ hwire hheld =>
    exact wireWf_of_quiet hw hothers hwire hfrom (ne_atReceive_of_held hheld nofun)
  | blocks u b _ _ _ hwire hheld =>
    exact wireWf_of_quiet hw hothers hwire hfrom (ne_atReceive_of_held hheld nofun)
  | claims hd a hun hwire _ hover =>
    have hnone := no_openTransfer_of_state hg hw (by rw [hun]; exact nofun)
    exact wireWf_of_carries hw hnone hothers hwire rfl (.inl ⟨rfl, hover.held⟩)
  | restores hd a hgate _ hwire _ _ hover =>
    obtain ⟨hordered, hopen, _⟩ := restoration_carries_no_transfer s.session.handle hd a
    rw [List.append_assoc] at hwire
    exact wireWf_of_carries hw (no_openTransfer_of_gate hg hw (.inl hgate) hfrom) hothers hwire hordered
      (.inl ⟨hopen, hover.held⟩)
  | transmitsAtOnce hgate _ _ ht => exact wireWf_of_transmitted hw (no_openTransfer_of_gate hg hw hgate hfrom) hothers ht
  | transmits u b hheld ht =>
    obtain ⟨hholder, _⟩ := hg c _ hheld
    exact wireWf_of_transmitted hw (no_openTransfer_of_gate hg hw (.inr hholder) hfrom) hothers ht

/-- The end of an RX step closes the transfer that is open. -/
theorem wireWf_of_received {u : TransferUser} {a : ReadAnswer} (hw : s.WireWf)
    (hothers : ∀ c', c' ≠ c → t.caller c' = s.caller c') (hfrom : (s.caller c).held = some (.atReceive u))
    (hwire : t.wire = s.wire ++ [.read c a]) (hover : Over (t.caller c)) : t.WireWf := by
  have hopen : openTransfer s.wire = some c := (hw.2 c).2 ⟨u, hfrom⟩
  refine ⟨?_, fun c' => ?_⟩
  · rw [hwire, wireOrderedFrom_append, hw.1, Bool.true_and]
    refine (congrArg (wireOrderedFrom · [.read c a]) hopen).trans ?_
    simp [wireOrderedFrom, inOrder]
  · rw [hwire, openTransfer_append]
    refine ⟨nofun, fun ⟨u', hu'⟩ => ?_⟩
    by_cases hc : c' = c
    · subst hc
      rw [hover.held] at hu'
      cases hu'
    · rw [hothers c' hc] at hu'
      have ho := (hw.2 c').2 ⟨u', hu'⟩
      rw [hopen] at ho
      exact absurd (Option.some.inj ho).symm hc

theorem wireWf_of_stepDid (hg : s.GateWf) (hw : s.WireWf) (h : StepDid s t) : t.WireWf := by
  cases h with
  | waited hcallers _ hwire =>
    refine ⟨by rw [hwire]; exact hw.1, fun c => ?_⟩
    rw [hwire, hcallers]
    exact hw.2 c
  | operated c hothers hfrom _ heffect => exact wireWf_of_effect hg hw hothers hfrom heffect
  | received c u a hothers hfrom hwire _ hover => exact wireWf_of_received hw hothers hfrom hwire hover

end KeepsWire

/-- Settles O55: who carries something has the gate, and then no transfer is open, or its own is, which its receive ends. -/
theorem stepNeverInterleavesTransfers : Obligations.StepNeverInterleavesTransfers := by
  intro s t hg hw h
  have hdid := stepDid_of_step h
  exact ⟨gateWf_of_stepDid hg hdid, wireWf_of_stepDid hg hw hdid⟩

/-! ### One transmit and one receive -/

/-- The transfers among the events `w` of a step from `s` to `t`: none; one transmit, one receive or a whole transmit and its
receive, of an operation that may (R91, R93). -/
def TransfersOnce (s t : State) (w : List WireEvent) : Prop :=
  transfersIn w = [] ∨
    (∃ c b a, transfersIn w = [.write c b a] ∧ MayTransmit s t c ∧
      (a = .ok → ∃ u, (t.caller c).held = some (.atReceive u)) ∧
      (a ≠ .ok → (t.caller c).held = none ∧ (t.caller c).ret ≠ none)) ∨
    (∃ c a, transfersIn w = [.read c a] ∧ (∃ u, (s.caller c).held = some (.atReceive u)) ∧
      (t.caller c).held = none ∧ (t.caller c).ret ≠ none) ∨
    ∃ c b a, transfersIn w = [.write c b .ok, .read c a] ∧ MayTransmit s t c ∧ (t.caller c).held = none ∧
      (t.caller c).ret ≠ none

section Transfers

variable {s t : State} {c : CallerId}

/-- The events of an operation: its transfers, and whether its caller has come into its RX step by them. -/
def CarriesOnce (s t : State) (c : CallerId) : Prop :=
  ∃ w, t.wire = s.wire ++ w ∧ TransfersOnce s t w ∧
    ∀ u, (t.caller c).held = some (.atReceive u) → ∃ b, transfersIn w = [.write c b .ok]

theorem carriesOnce_of_no_transfer {w : List WireEvent} (hwire : t.wire = s.wire ++ w) (hw : transfersIn w = [])
    (hto : ∀ u, (t.caller c).held ≠ some (.atReceive u)) : CarriesOnce s t c :=
  ⟨w, hwire, .inl hw, fun u hu => absurd hu (hto u)⟩

theorem carriesOnce_of_quiet (hwire : t.wire = s.wire) (hto : ∀ u, (t.caller c).held ≠ some (.atReceive u)) :
    CarriesOnce s t c := carriesOnce_of_no_transfer (w := []) (by rw [hwire, List.append_nil]) rfl hto

theorem carriesOnce_of_transmitted {ses : Session} (hmay : MayTransmit s t c) (h : Transmitted ses s.wire t c) :
    CarriesOnce s t c := by
  cases h with
  | failed b a ha hwire _ hover =>
    exact ⟨_, hwire, .inr (.inl ⟨c, b, a, rfl, hmay, fun h => absurd h ha, fun _ => ⟨hover.held, hover.ret⟩⟩),
      fun u hu => absurd hu (ne_atReceive_of_over hover u)⟩
  | sent u b hwire _ hheld =>
    exact ⟨_, hwire, .inr (.inl ⟨c, b, .ok, rfl, hmay, fun _ => ⟨u, hheld⟩, fun h => absurd rfl h⟩), fun _ _ => ⟨b, rfl⟩⟩
  | carried b a hwire _ hover =>
    exact ⟨_, hwire, .inr (.inr (.inr ⟨c, b, a, rfl, hmay, hover.held, hover.ret⟩)),
      fun u hu => absurd hu (ne_atReceive_of_over hover u)⟩

theorem carriesOnce_of_effect
    (hnext : (s.caller c).held = none → ∃ cmd left, takeIssued c s.issued = some (cmd, left) ∧ t.issued = left)
    (h : Effect s.session s.wire (s.caller c).held t c) : CarriesOnce s t c := by
  cases h with
  | settles x _ _ hwire hover => exact carriesOnce_of_quiet hwire (ne_atReceive_of_over hover)
  | waitsAtLock u _ _ hwire hheld => exact carriesOnce_of_quiet hwire (ne_atReceive_of_held hheld nofun)
  | waitsAtReestablish hd _ _ _ hwire hheld => exact carriesOnce_of_quiet hwire (ne_atReceive_of_held hheld nofun)
  | blocks u b _ _ _ hwire hheld => exact carriesOnce_of_quiet hwire (ne_atReceive_of_held hheld nofun)
  | claims hd a _ hwire _ hover =>
    exact carriesOnce_of_no_transfer hwire rfl (ne_atReceive_of_over hover)
  | restores hd a _ _ hwire _ _ hover =>
    obtain ⟨_, _, hnone⟩ := restoration_carries_no_transfer s.session.handle hd a
    rw [List.append_assoc] at hwire
    exact carriesOnce_of_no_transfer hwire hnone (ne_atReceive_of_over hover)
  | transmitsAtOnce _ _ hfrom ht =>
    rcases hfrom with hheld | ⟨u, hheld⟩
    · exact carriesOnce_of_transmitted (.inr (.inr ⟨hheld, hnext hheld⟩)) ht
    · exact carriesOnce_of_transmitted (.inl ⟨u, hheld⟩) ht
  | transmits u b hheld ht => exact carriesOnce_of_transmitted (.inr (.inl ⟨u, b, hheld⟩)) ht

end Transfers

/-- Settles O60: the operation of a step transmits at most once, from the gate or its TX step, and receives at most once, at its
end. -/
theorem noOperationRepeatsTransfer : Obligations.NoOperationRepeatsTransfer := by
  intro s t h
  cases stepDid_of_step h with
  | waited hcallers _ hwire =>
    refine ⟨[], by rw [hwire, List.append_nil], .inl rfl, fun c u => ?_⟩
    rw [hcallers]
    exact ⟨.inl, .inl, .inl⟩
  | operated c hothers hfrom hnext heffect =>
    obtain ⟨w, hwire, honce, hto⟩ := carriesOnce_of_effect hnext heffect
    refine ⟨w, hwire, honce, fun c' u => ?_⟩
    by_cases hc : c' = c
    · subst hc
      exact ⟨fun hu => .inr (hto u hu), fun hu => absurd hu (hfrom u), fun hh => .inr (hnext hh)⟩
    · rw [hothers c' hc]
      exact ⟨.inl, .inl, .inl⟩
  | received c u a hothers hfrom hwire _ hover =>
    refine ⟨_, hwire, .inr (.inr (.inl ⟨c, a, rfl, ⟨u, hfrom⟩, hover.held, hover.ret⟩)), fun c' u' => ?_⟩
    by_cases hc : c' = c
    · subst hc
      rw [hover.held]
      exact ⟨nofun, fun _ => .inr rfl, fun _ => .inl rfl⟩
    · rw [hothers c' hc]
      exact ⟨.inl, .inl, .inl⟩

end Sys2Proof.Proofs

/-!
What every step keeps of each caller's phase and of the request that a held exchange carries on (R30, R94, R96).
-/

namespace Sys2Proof.Proofs

open Sys2Proof Sys2Proof.Machine

/-! ### Callers at the end of a transfer -/

theorem callerWf_finish {k : Caller} (h : k.xs.phase = .idle) (x : Result Value) : CallerWf (k.finish x) :=
  callerWf_of_not_held rfl h

theorem callerWf_of_answersOnly {s t : State} {c : CallerId} {x : Result Value} (h : s.AnswersOnly t c x)
    (hp : (s.caller c).xs.phase = .idle) : CallerWf (t.caller c) := by
  rw [h.2]
  exact callerWf_of_not_held rfl hp

theorem callerWf_settle (k : Caller) (x : Result DecodedResponse) : CallerWf (k.settle .rejected x) :=
  callerWf_of_not_held rfl rfl

/-- A caller held at its TX step is `Idle`, or in `Built` for SEND_REQUEST, and the error of its transfer leaves it `Idle`. -/
theorem callerWf_afterTransferError {k : Caller} {u : TransferUser} {b : Buffer}
    (h : CallerWf { k with held := some (.atTransmit u b) }) (e : Error) : CallerWf (afterTransferError k e u) := by
  cases u with
  | raw => exact callerWf_of_not_held rfl h.1
  | exchange => exact callerWf_of_not_held rfl h.1
  | request v tid a => exact callerWf_of_not_held rfl rfl

theorem callerWf_afterTransmit {k : Caller} {u : TransferUser} {b : Buffer}
    (h : CallerWf { k with held := some (.atTransmit u b) }) (x : Option (Result Value)) :
    CallerWf { afterTransmit k u with held := some (.atReceive u), ret := x } := by
  obtain ⟨hphase, hrequest⟩ := h
  cases u with
  | raw => exact ⟨hphase, trivial⟩
  | exchange => exact ⟨hphase, trivial⟩
  | request v tid a =>
    obtain ⟨hbound, htarget, haddress, _⟩ := hrequest
    exact ⟨rfl, hbound, htarget, haddress⟩

/-- A caller after its receive is `Idle`: TRANSFER and EXCHANGE are so throughout, SEND_REQUEST has ended. -/
theorem callerWf_of_receiveEnded {s t : State} {c : CallerId} {k : Caller} {a : ReadAnswer} {clean : Bool}
    {u : TransferUser} (hk : ∀ x, CallerWf { k with held := some (.atReceive u), ret := x })
    (h : ReceiveEnded s t c k a clean u) : CallerWf (t.caller c) := by
  obtain ⟨_, herr, hok, _⟩ := h
  by_cases ha : ∃ b, a = .ok b
  · obtain ⟨b, ha⟩ := ha
    have hafter := hok b ha
    cases u with
    | raw =>
      rw [show t.caller c = _ from hafter]
      exact callerWf_of_not_held rfl (hk none).1
    | exchange =>
      rw [show t.caller c = _ from hafter]
      exact callerWf_of_not_held rfl (hk none).1
    | request v tid ad =>
      obtain ⟨path, x, _, hcaller⟩ := hafter
      rw [hcaller]
      exact callerWf_of_not_held rfl rfl
  · obtain ⟨e, he⟩ := readErrorOf_of_ne_ok fun b hb => ha ⟨b, hb⟩
    rw [herr e he]
    cases u with
    | raw => exact callerWf_of_not_held rfl (hk none).1
    | exchange => exact callerWf_of_not_held rfl (hk none).1
    | request v tid ad => exact callerWf_of_not_held rfl rfl

theorem callerWf_of_transmitEnded {s t : State} {c : CallerId} {b : Buffer} {a : WriteAnswer} {clean : Bool}
    {u : TransferUser} (hk : CallerWf { s.caller c with held := some (.atTransmit u b) })
    (h : TransmitEnded s t c b a clean u) : CallerWf (t.caller c) := by
  obtain ⟨hfailed, hsent, hcarried⟩ := h
  by_cases ha : a = .ok
  · cases hr : s.transport.reads with
    | nil =>
      obtain ⟨_, _, _, hcaller⟩ := hsent ha hr
      rw [hcaller]
      exact callerWf_afterTransmit hk none
    | cons r rest =>
      obtain ⟨_, hended⟩ := hcarried ha r rest hr
      exact callerWf_of_receiveEnded (callerWf_afterTransmit hk) hended
  · obtain ⟨e, he⟩ := writeErrorOf_of_ne_ok ha
    obtain ⟨_, _, _, hcaller⟩ := hfailed e he
    rw [hcaller]
    exact callerWf_afterTransferError hk e

/-! ### Callers at the gate -/

section Gate

variable {c : CallerId} {s : State}

/-- A transfer begins with what its caller is held for in the TX step. -/
theorem callerWf_startTransfer {u : TransferUser} {bytes : List Byte}
    (hk : CallerWf { s.caller c with held := some (.atTransmit u (bufferOf bytes)) }) :
    CallerWf ((startTransfer u c bytes s).caller c) := by
  cases transferBegun_startTransfer u c bytes s with
  | refused e ht =>
    rw [ht, endTransfer_err_caller]
    exact callerWf_afterTransferError hk e
  | blocked _ ht =>
    rw [ht, State.caller_hold_self]
    exact hk
  | transmitted _ a clean ht => exact callerWf_of_transmitEnded hk ht

/-- A user of the gate goes on, at the gate, with what it is held for there. -/
theorem callerWf_grantGate {u : GateUser} (hk : CallerWf { s.caller c with held := some (.atLock u) }) :
    CallerWf ((grantGate u c s).caller c) := by
  cases u with
  | lock => exact callerWf_of_answersOnly (State.succeed_answersOnly (s.setHolder (some c)) c _) hk.1
  | exchange bytes => exact callerWf_startTransfer (s := s.setHolder (some c)) ⟨hk.1, trivial⟩
  | request v tid a b =>
    obtain ⟨hphase, hrequest⟩ := hk
    refine callerWf_startTransfer (s := s.setHolder (some c)) ⟨hphase, ?_⟩
    rw [bufferOf_toList]
    exact hrequest

theorem callerWf_reentrantGate {u : GateUser} (hk : CallerWf { s.caller c with held := some (.atLock u) }) :
    CallerWf ((reentrantGate u c s).caller c) := by
  cases u with
  | lock => exact callerWf_of_answersOnly (s.raise_answersOnly c _) hk.1
  | exchange bytes => exact callerWf_of_answersOnly (s.raise_answersOnly c _) hk.1
  | request v tid a b =>
    rw [reentrantGate, rejectExchange, State.caller_mapCaller_self]
    exact callerWf_settle _ _

theorem callerWf_takeGate {u : GateUser} (hk : CallerWf { s.caller c with held := some (.atLock u) }) :
    CallerWf ((takeGate u c s).caller c) := by
  cases hg : s.session.holder with
  | none =>
    rw [takeGate_free hg]
    exact callerWf_grantGate hk
  | some c' =>
    by_cases hc : c' = c
    · subst hc
      rw [takeGate_reentrant hg]
      exact callerWf_reentrantGate hk
    · rw [takeGate_held hg hc, State.caller_hold_self]
      exact hk

theorem callerWf_restoreSession (h : Handle) (hp : (s.caller c).xs.phase = .idle) :
    CallerWf ((restoreSession c h s).caller c) := by
  obtain ⟨⟨a, _, _, _, _, _, hok, herr⟩, _⟩ := sessionRestored_restoreSession c h s
  by_cases ha : a = .ok
  · rw [(hok ha).2]
    exact callerWf_of_not_held rfl hp
  · rw [(herr ha).2]
    exact callerWf_of_not_held rfl hp

theorem callerWf_claimFor (h : Handle) (hp : (s.caller c).xs.phase = .idle) : CallerWf ((claimFor c h s).caller c) := by
  by_cases ha : (drawClaim s).1 = .ok
  · rw [(claimFor_of_ok c h ha).2]
    exact callerWf_finish hp _
  · rw [(claimFor_of_ne_ok c h ha).2]
    exact callerWf_finish hp _

end Gate

/-! ### Steps -/

section Steps

variable {c : CallerId} {s t : State}

/-- An instruction of an `Idle` caller leaves it with the phase of its operation. -/
theorem callerWf_of_operation (hp : (s.caller c).xs.phase = .idle) (h : Operation c s t) : CallerWf (t.caller c) := by
  cases h with
  | answers _ hover hphase => exact callerWf_of_not_held hover.held (hphase hp)
  | claims h _ => exact callerWf_claimFor h hp
  | restores h _ _ => exact callerWf_restoreSession h hp
  | waits h _ _ =>
    rw [State.caller_hold_self]
    exact ⟨hp, trivial⟩
  | takesGate u _ hwf => exact callerWf_takeGate (hwf hp)
  | unlocks _ => exact callerWf_of_answersOnly (State.succeed_answersOnly (s.setHolder none) c _) hp
  | transfers bytes _ => exact callerWf_startTransfer ⟨hp, trivial⟩

/-- The hold of a caller is part of it. -/
theorem caller_of_held {k : Caller} {hd : Held} (h : k.held = some hd) : { k with held := some hd } = k := by
  cases k
  subst h
  rfl

theorem callerWf_receiveDrawn {u : TransferUser} (hk : CallerWf (s.caller c))
    (hheld : (s.caller c).held = some (.atReceive u)) : CallerWf ((receiveDrawn u c s).caller c) := by
  obtain ⟨_, hended⟩ := receiveDrawn_ended u c s
  refine callerWf_of_receiveEnded (fun x => ?_) hended
  rw [← caller_of_held hheld] at hk
  exact hk

theorem callerWf_resume {hd : Held} (hk : CallerWf (s.caller c)) (hheld : (s.caller c).held = some hd) :
    CallerWf ((resume c hd s).caller c) := by
  have hkept := hk
  rw [← caller_of_held hheld] at hk
  cases hd with
  | atLock u =>
    by_cases hg : s.session.holder = none
    · rw [resume_atLock_free hg]
      exact callerWf_grantGate hk
    · rw [resume_atLock_held hg]
      exact hkept
  | atReestablish h =>
    rw [resume_atReestablish]
    split
    · exact callerWf_restoreSession h hk.1
    · exact hkept
  | atTransmit u b => exact callerWf_of_transmitEnded hk (transmitDrawn_ended u c b s)
  | atReceive u => exact callerWf_receiveDrawn hkept hheld

/-- The work of one caller keeps every caller's phase, where it keeps its own. -/
theorem exchangesWf_of_moves (hm : Moves c s t) (hs : s.ExchangesWf) (hown : CallerWf (t.caller c)) : t.ExchangesWf := by
  refine exchangesWf_iff.2 fun c' => ?_
  by_cases hc : c' = c
  · subst hc
    exact hown
  · rw [(operationFrame_of_moves hm).others c' hc]
    exact exchangesWf_iff.1 hs c'

theorem exchangesWf_of_callers (h : t.callers = s.callers) (hs : s.ExchangesWf) : t.ExchangesWf := by
  intro c
  rw [State.caller, h]
  exact hs c

theorem exchangesWf_deliverPacket (b : Buffer) (hs : s.ExchangesWf) : (deliverPacket b s).ExchangesWf := by
  rcases deliverPacket_moves b s with he | ⟨c, u, _, hheld, hm, he⟩
  · rw [he]
    exact exchangesWf_of_callers rfl hs
  · refine exchangesWf_of_moves hm hs ?_
    rw [he]
    exact callerWf_receiveDrawn
      (s := { s with transport := { s.transport with reads := s.transport.reads ++ [.ok b] } })
      (exchangesWf_iff.1 hs c) hheld

end Steps

/-- Settles O56: whatever an operation goes through, its caller ends `Idle` and held nowhere, or is held in the phase of its
hold, with `req` the request it carries on. -/
theorem stepKeepsExchangePhases : Obligations.StepKeepsExchangePhases := by
  intro s t hs h
  obtain ⟨s0, hb, hcase⟩ := step_cases h
  have hs0 : s0.ExchangesWf := exchangesWf_of_callers hb.callers hs
  rcases hcase with rfl | ⟨c, hd, hheld, rfl⟩ | ⟨c, cmd, left, i, hheld, _, hc, he⟩ | ⟨b, rest, _, rfl⟩
  · exact hs0
  · exact exchangesWf_of_moves (resume_moves c hd s0) hs0 (callerWf_resume (exchangesWf_iff.1 hs0 c) hheld)
  · have hidle : (s0.caller c).xs.phase = .idle := idle_of_callerWf (exchangesWf_iff.1 hs0 c) hheld
    exact exchangesWf_of_moves (exec_moves hc he) (exchangesWf_of_callers rfl hs0)
      (callerWf_of_operation (s := { s0 with issued := left }) hidle (operation_of_exec hc he))
  · exact exchangesWf_deliverPacket b (exchangesWf_of_callers rfl hs0)

end Sys2Proof.Proofs

/-!
No rule reads the bytes of an unbound packet (R31, R44): two states that differ in such bytes alone, one operation of the model
after the other, go on differing in such bytes alone.
-/

namespace Sys2Proof.Proofs

open Sys2Proof Sys2Proof.Machine

/-! ### Packets and callers that agree -/

theorem packetsAgree_refl (q : Packet) : packetsAgree q q := ⟨rfl, rfl, fun _ => rfl⟩

theorem boundTo_of_packetsAgree {q q' : Packet} (h : packetsAgree q q') : boundTo q' = boundTo q := by
  obtain ⟨hstatus, hdesc, _⟩ := h
  simp only [boundTo, hstatus, hdesc]

/-- Bound packets that agree are equal. -/
theorem eq_of_packetsAgree {q q' : Packet} {v : Variant} (h : packetsAgree q q') (hv : boundTo q = some v) : q' = q := by
  obtain ⟨hstatus, hdesc, hbuf⟩ := h
  have hbuf := hbuf (by rw [hv]; exact nofun)
  cases q
  cases q'
  cases hstatus
  cases hdesc
  cases hbuf
  rfl

/-- REUSE leaves packets that agree so, whatever their bytes. -/
theorem packetsAgree_reusedPacket (q q' : Packet) : packetsAgree (reusedPacket q) (reusedPacket q') :=
  ⟨rfl, rfl, fun h => absurd rfl h⟩

/-- Two callers that differ at most in the bytes of unbound packets. -/
structure CallersAgree (k k' : Caller) : Prop where
  held : k'.held = k.held
  ret : k'.ret = k.ret
  phase : k'.xs.phase = k.xs.phase
  respBytes : k'.xs.respBytes = k.xs.respBytes
  result : k'.xs.result = k.xs.result
  path : k'.xs.path = k.xs.path
  packets : ∀ r, packetsAgree (k.packet r) (k'.packet r)

section Callers

variable {k k' : Caller}

theorem callersAgree_finish (h : CallersAgree k k') (x : Result Value) : CallersAgree (k.finish x) (k'.finish x) :=
  ⟨rfl, rfl, h.phase, h.respBytes, h.result, h.path, fun r => by simpa using h.packets r⟩

theorem callersAgree_hold (h : CallersAgree k k') (hd : Held) : CallersAgree (k.hold hd) (k'.hold hd) :=
  ⟨rfl, rfl, h.phase, h.respBytes, h.result, h.path, fun r => by simpa using h.packets r⟩

theorem callersAgree_enter (h : CallersAgree k k') (ph : Phase) : CallersAgree (k.enter ph) (k'.enter ph) :=
  ⟨h.held, h.ret, rfl, h.respBytes, h.result, by simp [h.path], fun r => by simpa using h.packets r⟩

theorem callersAgree_beginExchange (h : CallersAgree k k') : CallersAgree k.beginExchange k'.beginExchange :=
  ⟨h.held, h.ret, h.phase, h.respBytes, h.result, by simp [h.phase], fun r => by simpa using h.packets r⟩

theorem callersAgree_settle (h : CallersAgree k k') (ph : Phase) (x : Result DecodedResponse) :
    CallersAgree (k.settle ph x) (k'.settle ph x) :=
  ⟨rfl, rfl, rfl, h.respBytes, rfl, by simp [h.path], fun r => by simpa using h.packets r⟩

theorem callersAgree_respBytes (h : CallersAgree k k') (x : Option Buffer) :
    CallersAgree { k with xs := { k.xs with respBytes := x } } { k' with xs := { k'.xs with respBytes := x } } := by
  refine ⟨h.held, h.ret, h.phase, rfl, h.result, h.path, fun r => ?_⟩
  cases r with
  | p n => exact h.packets (.p n)
  | req => exact h.packets .req
  | resp => exact h.packets .resp

theorem callersAgree_setPacket (h : CallersAgree k k') (r : PacketReg) {q q' : Packet} (hq : packetsAgree q q') :
    CallersAgree (k.setPacket r q) (k'.setPacket r q') := by
  refine ⟨?_, ?_, ?_, ?_, ?_, ?_, fun r' => ?_⟩
  · simpa using h.held
  · simpa using h.ret
  · simpa using h.phase
  · simpa using h.respBytes
  · simpa using h.result
  · simpa using h.path
  · rw [Caller.setPacket_packet, Caller.setPacket_packet]
    split
    · exact hq
    · exact h.packets r'

end Callers

/-! ### States that agree -/

/-- `State.AgreesButStale`, as a change of the callers. -/
def Agree (s t : State) : Prop := ∃ cs, t = withCallers s cs ∧ ∀ c, CallersAgree (s.caller c) (t.caller c)

theorem agree_iff {s t : State} : Agree s t ↔ s.AgreesButStale t := by
  constructor
  · rintro ⟨cs, rfl, hcallers⟩
    refine ⟨rfl, rfl, rfl, rfl, rfl, fun c => ?_⟩
    obtain ⟨h1, h2, h3, h4, h5, h6, h7⟩ := hcallers c
    exact ⟨h1, h2, h3, h4, h5, h6, h7⟩
  · rintro ⟨hsession, hissued, hschedule, htransport, hwire, hcallers⟩
    refine ⟨t.callers, ?_, fun c => ?_⟩
    · cases s
      cases t
      cases hsession
      cases hissued
      cases hschedule
      cases htransport
      cases hwire
      rfl
    · obtain ⟨h1, h2, h3, h4, h5, h6, h7⟩ := hcallers c
      exact ⟨h1, h2, h3, h4, h5, h6, h7⟩

/-- An operation on the state that neither reads nor writes the callers. -/
def Blind (f : State → State) : Prop := ∀ s cs, f (withCallers s cs) = withCallers (f s) cs

theorem callers_of_blind {f : State → State} (hf : Blind f) (s : State) : (f s).callers = s.callers := by
  have h := congrArg State.callers (hf s s.callers)
  exact h

theorem blind_setHolder (x : Option CallerId) : Blind fun s => s.setHolder x := fun _ _ => rfl
theorem blind_degrade : Blind State.degrade := fun _ _ => rfl
theorem blind_bind (h : Handle) : Blind fun s => s.bind h := fun _ _ => rfl
theorem blind_record (e : WireEvent) : Blind fun s => s.record e := fun _ _ => rfl

theorem blind_drawClaim : Blind fun s => (drawClaim s).2 := fun s cs => by
  cases h : s.transport.claims <;> simp [drawClaim, withCallers, h]

theorem blind_drawWrite : Blind fun s => (drawWrite s).2 := fun s cs => by
  cases h : s.transport.writes <;> simp [drawWrite, withCallers, h]

theorem blind_drawRead : Blind fun s => (drawRead s).2 := fun s cs => by
  cases h : s.transport.reads <;> simp [drawRead, withCallers, h]

theorem blind_applyResidue : Blind applyResidue := applyResidue_withCallers

theorem blind_releaseHandle : Blind releaseHandle := fun s cs => by
  cases h : s.session.handle with
  | none => simp only [releaseHandle, withCallers, h]
  | some x =>
    simp only [releaseHandle, withCallers, h]
    rfl

theorem blind_nextAgent : Blind fun s => (nextAgent s).2 := fun s cs => by
  cases h : s.schedule <;> simp [nextAgent, withCallers, h]

/-- The state with 16 bytes as the answer of a later read (R83). -/
def readReady (b : Buffer) (s : State) : State :=
  { s with transport := { s.transport with reads := s.transport.reads ++ [.ok b] } }

theorem blind_readReady (b : Buffer) : Blind (readReady b) := fun _ _ => rfl

/-- The gate's holder, where it is in its RX step, receives. -/
def receiveIfWaiting (s : State) : State :=
  match s.session.holder with
  | none => s
  | some c =>
    match (s.caller c).held with
    | some (.atReceive u) => receiveDrawn u c s
    | _ => s

theorem deliverPacket_eq (b : Buffer) (s : State) : deliverPacket b s = receiveIfWaiting (readReady b s) := rfl

section States

variable {s t : State}

theorem agree_of_blind {f : State → State} (hf : Blind f) (h : Agree s t) : Agree (f s) (f t) := by
  obtain ⟨cs, rfl, hcallers⟩ := h
  refine ⟨cs, hf s cs, fun c => ?_⟩
  rw [State.caller, State.caller, callers_of_blind hf, callers_of_blind hf]
  exact hcallers c

theorem session_of_agree (h : Agree s t) : t.session = s.session := by
  obtain ⟨cs, rfl, _⟩ := h
  rfl

theorem transport_of_agree (h : Agree s t) : t.transport = s.transport := by
  obtain ⟨cs, rfl, _⟩ := h
  rfl

theorem issued_of_agree (h : Agree s t) : t.issued = s.issued := by
  obtain ⟨cs, rfl, _⟩ := h
  rfl

theorem held_of_agree (h : Agree s t) (c : CallerId) : (t.caller c).held = (s.caller c).held := by
  obtain ⟨cs, _, hcallers⟩ := h
  exact (hcallers c).held

theorem packetsAgree_of_agree (h : Agree s t) (c : CallerId) (r : PacketReg) :
    packetsAgree (s.packet c r) (t.packet c r) := by
  obtain ⟨cs, _, hcallers⟩ := h
  exact (hcallers c).packets r

/-- Callers that agree are changed to callers that agree. -/
theorem agree_mapCaller (h : Agree s t) (c : CallerId) {f g : Caller → Caller}
    (hf : ∀ k k', CallersAgree k k' → CallersAgree (f k) (g k')) : Agree (s.mapCaller c f) (t.mapCaller c g) := by
  obtain ⟨cs, rfl, hcallers⟩ := h
  refine ⟨((withCallers s cs).mapCaller c g).callers, rfl, fun c' => ?_⟩
  rw [State.caller_mapCaller, State.caller_mapCaller]
  split
  · exact hf _ _ (hcallers c)
  · exact hcallers c'

theorem agree_finish (h : Agree s t) (c : CallerId) (x : Result Value) :
    Agree (s.mapCaller c fun k => k.finish x) (t.mapCaller c fun k => k.finish x) :=
  agree_mapCaller h c fun _ _ hk => callersAgree_finish hk x

theorem agree_succeed (h : Agree s t) (c : CallerId) (v : Value) : Agree (s.succeed c v) (t.succeed c v) :=
  agree_finish h c _

theorem agree_raise (h : Agree s t) (c : CallerId) (e : Error) : Agree (s.raise c e) (t.raise c e) := agree_finish h c _

theorem agree_hold (h : Agree s t) (c : CallerId) (hd : Held) : Agree (s.hold c hd) (t.hold c hd) :=
  agree_mapCaller h c fun _ _ hk => callersAgree_hold hk hd

theorem agree_setPacket (h : Agree s t) (c : CallerId) (r : PacketReg) {q q' : Packet} (hq : packetsAgree q q') :
    Agree (s.setPacket c r q) (t.setPacket c r q') :=
  agree_mapCaller h c fun _ _ hk => callersAgree_setPacket hk r hq

theorem agree_commit (h : Agree s t) (c : CallerId) (r : PacketReg) (x : Result Packet) :
    Agree (s.commit c r x) (t.commit c r x) := by
  cases x with
  | ok q => exact agree_succeed (agree_setPacket h c r (packetsAgree_refl q)) c _
  | err e => exact agree_raise h c e

theorem agree_setHolder (h : Agree s t) (x : Option CallerId) : Agree (s.setHolder x) (t.setHolder x) :=
  agree_of_blind (blind_setHolder x) h

theorem agree_record (h : Agree s t) (e : WireEvent) : Agree (s.record e) (t.record e) := agree_of_blind (blind_record e) h

/-! ### The transport's answers are the same -/

theorem drawClaim_fst_of_agree (h : Agree s t) : (drawClaim t).1 = (drawClaim s).1 := by
  unfold drawClaim
  rw [transport_of_agree h]
  split <;> rfl

theorem drawWrite_fst_of_agree (h : Agree s t) : (drawWrite t).1 = (drawWrite s).1 := by
  unfold drawWrite
  rw [transport_of_agree h]
  split <;> rfl

theorem drawRead_fst_of_agree (h : Agree s t) : (drawRead t).1 = (drawRead s).1 := by
  unfold drawRead
  rw [transport_of_agree h]
  split <;> rfl

/-! ### The session -/

theorem agree_claimFor (h : Agree s t) (c : CallerId) (hd : Handle) : Agree (claimFor c hd s) (claimFor c hd t) := by
  have hdrawn (a : ClaimAnswer) : Agree ((drawClaim s).2.record (.claim hd a)) ((drawClaim t).2.record (.claim hd a)) :=
    agree_record (agree_of_blind blind_drawClaim h) _
  rw [claimFor, claimFor, drawClaim_fst_of_agree h]
  cases (drawClaim s).1 with
  | ok => exact agree_succeed (agree_of_blind (blind_bind hd) (hdrawn .ok)) c _
  | busy => exact agree_raise (hdrawn .busy) c _
  | disconnected => exact agree_raise (hdrawn .disconnected) c _

theorem agree_acquireSession (h : Agree s t) (c : CallerId) (hd : Handle) :
    Agree (acquireSession c hd s) (acquireSession c hd t) := by
  rw [acquireSession, acquireSession, session_of_agree h]
  cases s.session.state with
  | unacquired => exact agree_claimFor h c hd
  | ready => exact agree_succeed h c _
  | degraded => exact agree_succeed h c _

theorem agree_restoreSession (h : Agree s t) (c : CallerId) (hd : Handle) :
    Agree (restoreSession c hd s) (restoreSession c hd t) :=
  agree_claimFor (agree_of_blind blind_releaseHandle h) c hd

theorem agree_reestablishSession (h : Agree s t) (c : CallerId) (hd : Handle) :
    Agree (reestablishSession c hd s) (reestablishSession c hd t) := by
  rw [reestablishSession, reestablishSession, session_of_agree h]
  cases s.session.state with
  | unacquired => exact agree_acquireSession h c hd
  | ready => exact agree_succeed h c _
  | degraded =>
    dsimp only
    split
    · exact agree_raise h c _
    · split
      · exact agree_restoreSession h c hd
      · exact agree_hold h c _

/-! ### The exchange and the transfer -/

theorem agree_rejectExchange (h : Agree s t) (c : CallerId) (e : Error) :
    Agree (rejectExchange c e s) (rejectExchange c e t) :=
  agree_mapCaller h c fun _ _ hk => callersAgree_settle hk _ _

theorem agree_judgeResponse (h : Agree s t) (c : CallerId) (v : Variant) (tid a : Nat) (q : Packet) :
    Agree (judgeResponse c v tid a q s) (judgeResponse c v tid a q t) := by
  unfold judgeResponse
  cases violationOf v q with
  | some x => exact agree_rejectExchange h c _
  | none =>
    dsimp only
    split
    · exact agree_rejectExchange h c _
    · exact agree_mapCaller h c fun _ _ hk => callersAgree_settle hk _ _

theorem agree_receiveResponse (h : Agree s t) (c : CallerId) (v : Variant) (tid a : Nat) (b : Buffer) :
    Agree (receiveResponse c v tid a b s) (receiveResponse c v tid a b t) := by
  have hkept : Agree (s.mapCaller c fun k => { k with xs := { k.xs with respBytes := some b } })
      (t.mapCaller c fun k => { k with xs := { k.xs with respBytes := some b } }) :=
    agree_mapCaller h c fun _ _ hk => callersAgree_respBytes hk _
  unfold receiveResponse
  cases decodePacket v b.toList with
  | err e => exact agree_rejectExchange hkept c e
  | ok q =>
    refine agree_judgeResponse ?_ c v tid a q
    exact agree_mapCaller (agree_setPacket hkept c .resp (packetsAgree_refl q)) c fun _ _ hk => callersAgree_enter hk _

theorem agree_endTransfer (h : Agree s t) (u : TransferUser) (c : CallerId) (x : Result Buffer) :
    Agree (endTransfer u c x s) (endTransfer u c x t) := by
  cases u with
  | raw => exact agree_finish h c _
  | exchange => exact agree_finish (agree_setHolder h none) c _
  | request v tid a =>
    cases x with
    | err e => exact agree_rejectExchange (agree_setHolder h none) c e
    | ok b => exact agree_receiveResponse (agree_setHolder h none) c v tid a b

theorem agree_applyResidue (h : Agree s t) : Agree (applyResidue s) (applyResidue t) := agree_of_blind blind_applyResidue h

theorem agree_degrade (h : Agree s t) : Agree s.degrade t.degrade := agree_of_blind blind_degrade h

theorem agree_receiveStep (h : Agree s t) (u : TransferUser) (c : CallerId) (a : ReadAnswer) :
    Agree (receiveStep u c a s) (receiveStep u c a t) := by
  have hread := agree_record h (.read c a)
  cases a with
  | ok b => exact agree_endTransfer hread u c _
  | short n => exact agree_endTransfer (agree_applyResidue hread) u c _
  | busy => exact agree_endTransfer (agree_applyResidue hread) u c _
  | timeout => exact agree_endTransfer (agree_applyResidue hread) u c _
  | disconnected => exact agree_endTransfer (agree_degrade hread) u c _

theorem agree_receiveDrawn (h : Agree s t) (u : TransferUser) (c : CallerId) :
    Agree (receiveDrawn u c s) (receiveDrawn u c t) := by
  rw [receiveDrawn, receiveDrawn, drawRead_fst_of_agree h]
  exact agree_receiveStep (agree_of_blind blind_drawRead h) u c _

theorem agree_beginReceive (h : Agree s t) (u : TransferUser) (c : CallerId) :
    Agree (beginReceive u c s) (beginReceive u c t) := by
  rw [beginReceive, beginReceive, transport_of_agree h]
  cases s.transport.reads with
  | nil => exact agree_hold h c _
  | cons a rest => exact agree_receiveDrawn h u c

theorem agree_sentPhases (h : Agree s t) (u : TransferUser) (c : CallerId) : Agree (sentPhases u c s) (sentPhases u c t) := by
  cases u with
  | raw => exact h
  | exchange => exact h
  | request v tid a =>
    exact agree_mapCaller h c fun _ _ hk => callersAgree_enter (callersAgree_enter hk _) _

theorem agree_transmitStep (h : Agree s t) (u : TransferUser) (c : CallerId) (b : Buffer) (a : WriteAnswer) :
    Agree (transmitStep u c b a s) (transmitStep u c b a t) := by
  have hwrite := agree_record h (.write c b a)
  cases a with
  | ok => exact agree_beginReceive (agree_sentPhases hwrite u c) u c
  | busy => exact agree_endTransfer hwrite u c _
  | short n => exact agree_endTransfer (agree_applyResidue hwrite) u c _
  | timeout => exact agree_endTransfer (agree_applyResidue hwrite) u c _
  | disconnected => exact agree_endTransfer (agree_degrade hwrite) u c _

theorem agree_transmitDrawn (h : Agree s t) (u : TransferUser) (c : CallerId) (b : Buffer) :
    Agree (transmitDrawn u c b s) (transmitDrawn u c b t) := by
  rw [transmitDrawn, transmitDrawn, drawWrite_fst_of_agree h]
  exact agree_transmitStep (agree_of_blind blind_drawWrite h) u c b _

theorem agree_beginTransmit (h : Agree s t) (u : TransferUser) (c : CallerId) (b : Buffer) :
    Agree (beginTransmit u c b s) (beginTransmit u c b t) := by
  rw [beginTransmit, beginTransmit, transport_of_agree h]
  cases s.transport.writes with
  | nil => exact agree_hold h c _
  | cons a rest => exact agree_transmitDrawn h u c b

theorem agree_startTransfer (h : Agree s t) (u : TransferUser) (c : CallerId) (bytes : List Byte) :
    Agree (startTransfer u c bytes s) (startTransfer u c bytes t) := by
  rw [startTransfer, startTransfer, session_of_agree h]
  cases s.session.state with
  | unacquired => exact agree_endTransfer h u c _
  | degraded => exact agree_endTransfer h u c _
  | ready =>
    dsimp only
    split
    · exact agree_endTransfer h u c _
    · exact agree_beginTransmit h u c _

/-! ### The gate -/

theorem agree_grantGate (h : Agree s t) (u : GateUser) (c : CallerId) : Agree (grantGate u c s) (grantGate u c t) := by
  have hgranted := agree_setHolder h (some c)
  cases u with
  | lock => exact agree_succeed hgranted c _
  | exchange bytes => exact agree_startTransfer hgranted _ c _
  | request v tid a b => exact agree_startTransfer hgranted _ c _

theorem agree_reentrantGate (h : Agree s t) (u : GateUser) (c : CallerId) :
    Agree (reentrantGate u c s) (reentrantGate u c t) := by
  cases u with
  | lock => exact agree_raise h c _
  | exchange bytes => exact agree_raise h c _
  | request v tid a b => exact agree_rejectExchange h c _

theorem agree_takeGate (h : Agree s t) (u : GateUser) (c : CallerId) : Agree (takeGate u c s) (takeGate u c t) := by
  rw [takeGate, takeGate, session_of_agree h]
  split
  · exact agree_reentrantGate h u c
  · split
    · exact agree_grantGate h u c
    · exact agree_hold h c _

theorem agree_sendBuilt (h : Agree s t) (c : CallerId) (v : Variant) (tid a : Nat) (q : Packet) :
    Agree (sendBuilt c v tid a q s) (sendBuilt c v tid a q t) := by
  refine agree_takeGate (agree_setPacket (agree_mapCaller h c fun _ _ hk => ?_) c .req (packetsAgree_refl _)) _ c
  exact callersAgree_enter (callersAgree_setPacket hk .req (packetsAgree_refl q)) _

theorem agree_resume (h : Agree s t) (c : CallerId) (hd : Held) : Agree (resume c hd s) (resume c hd t) := by
  unfold resume
  cases hd with
  | atLock u =>
    dsimp only
    rw [session_of_agree h]
    split
    · exact agree_grantGate h u c
    · exact h
  | atReestablish x =>
    dsimp only
    rw [session_of_agree h]
    split
    · exact agree_restoreSession h c x
    · exact h
  | atTransmit u b => exact agree_transmitDrawn h u c b
  | atReceive u => exact agree_receiveDrawn h u c

theorem agree_receiveIfWaiting (h : Agree s t) : Agree (receiveIfWaiting s) (receiveIfWaiting t) := by
  rw [receiveIfWaiting, receiveIfWaiting, session_of_agree h]
  cases s.session.holder with
  | none => exact h
  | some c =>
    dsimp only
    rw [held_of_agree h c]
    split
    · exact agree_receiveDrawn h _ c
    · exact h

theorem agree_deliverPacket (h : Agree s t) (b : Buffer) : Agree (deliverPacket b s) (deliverPacket b t) := by
  rw [deliverPacket_eq, deliverPacket_eq]
  exact agree_receiveIfWaiting (agree_of_blind (blind_readReady b) h)

/-! ### Instructions and steps -/

theorem stepsAgree_next (h : Agree s t) : StepsAgree (.next s) (.next t) := agree_iff.1 h

theorem stepsAgree_withBound (h : Agree s t) (c : CallerId) (r : PacketReg) {f g : Variant → Packet → State}
    (hf : ∀ v q, Agree (f v q) (g v q)) : StepsAgree (withBound s c r f) (withBound t c r g) := by
  have hq := packetsAgree_of_agree h c r
  rw [withBound, withBound, boundTo_of_packetsAgree hq]
  cases hb : boundTo (s.packet c r) with
  | none => rfl
  | some v =>
    rw [eq_of_packetsAgree hq hb]
    exact stepsAgree_next (hf v _)

theorem stepsAgree_withWritten {r : PacketReg} {f g : Step} (h : StepsAgree f g) :
    StepsAgree (withWritten r f) (withWritten r g) := by
  unfold withWritten
  cases writtenReg r with
  | none => rfl
  | some n => exact h

theorem stepsAgree_withVariant {d : Nat} {f g : Variant → Step} (h : ∀ v, StepsAgree (f v) (g v)) :
    StepsAgree (withVariant d f) (withVariant d g) := by
  unfold withVariant
  cases variantAt d with
  | none => rfl
  | some v => exact h v

theorem stepsAgree_withBoolean {b : Nat} {f g : Bool → Step} (h : ∀ x, StepsAgree (f x) (g x)) :
    StepsAgree (withBoolean b f) (withBoolean b g) := by
  unfold withBoolean
  cases booleanOf b with
  | none => rfl
  | some x => exact h x

/-- An accessor reads a bound packet only. -/
theorem stepsAgree_read (h : Agree s t) (c : CallerId) (r : PacketReg) (f : Variant → Packet → Value) :
    StepsAgree (withBound s c r fun v q => s.succeed c (f v q)) (withBound t c r fun v q => t.succeed c (f v q)) :=
  stepsAgree_withBound h c r fun _ _ => agree_succeed h c _

/-- A mutator reads and writes a bound packet only. -/
theorem stepsAgree_write (h : Agree s t) (c : CallerId) (r : PacketReg) (f : Variant → Packet → Result Packet) :
    StepsAgree (withBound s c r fun v q => s.commit c r (f v q)) (withBound t c r fun v q => t.commit c r (f v q)) :=
  stepsAgree_withBound h c r fun _ _ => agree_commit h c r _

/-- What only the gate's holder may do. -/
theorem stepsAgree_holder (h : Agree s t) (c : CallerId) {f : State → State} (hf : Agree (f s) (f t)) :
    StepsAgree (if s.session.holder = some c then .next (f s) else .fault .notHolder)
      (if t.session.holder = some c then .next (f t) else .fault .notHolder) := by
  rw [session_of_agree h]
  split
  · exact stepsAgree_next hf
  · rfl

theorem stepsAgree_sendRequest (h : Agree s t) (c : CallerId) (d tid f a x : Nat) :
    StepsAgree (execSendRequest c d tid f a x s) (execSendRequest c d tid f a x t) := by
  have hbegun : Agree (s.mapCaller c Caller.beginExchange) (t.mapCaller c Caller.beginExchange) :=
    agree_mapCaller h c fun _ _ hk => callersAgree_beginExchange hk
  refine stepsAgree_withVariant fun v => ?_
  cases constructPacket v tid f a x with
  | err e => exact stepsAgree_next (agree_rejectExchange hbegun c e)
  | ok q => exact stepsAgree_next (agree_sendBuilt hbegun c v tid a q)

theorem stepsAgree_exec (h : Agree s t) (i : Instr) : StepsAgree (exec i s) (exec i t) := by
  cases i with
  | lookup c m =>
    simp only [exec, execLookup]
    cases variantOfMagic m with
    | some v => exact stepsAgree_next (agree_succeed h c _)
    | none => exact stepsAgree_next (agree_raise h c _)
  | descInfo c d => exact stepsAgree_withVariant fun v => stepsAgree_next (agree_succeed h c _)
  | construct c p d tid f a x =>
    exact stepsAgree_withWritten (stepsAgree_withVariant fun v => stepsAgree_next (agree_commit h c p _))
  | encode c p =>
    refine stepsAgree_withWritten (stepsAgree_withBound h c p fun v q => ?_)
    exact agree_succeed (agree_setPacket h c p (packetsAgree_refl _)) c _
  | decode c p d bytes =>
    exact stepsAgree_withWritten (stepsAgree_withVariant fun v => stepsAgree_next (agree_commit h c p _))
  | validate c p =>
    unfold exec execValidate
    refine stepsAgree_withBound h c p fun v q => ?_
    cases violationOf v q with
    | some x => exact agree_raise h c _
    | none => exact agree_succeed h c _
  | reuse c p =>
    refine stepsAgree_withWritten (stepsAgree_next (agree_succeed ?_ c _))
    exact agree_setPacket h c p (packetsAgree_reusedPacket _ _)
  | getTarget c p =>
    unfold exec execGetTarget
    exact stepsAgree_read h c p _
  | getAddress c p =>
    unfold exec execGetAddress
    exact stepsAgree_read h c p _
  | getData c p =>
    unfold exec execGetData
    exact stepsAgree_read h c p _
  | isWrite c p =>
    unfold exec execIsWrite
    exact stepsAgree_read h c p _
  | isSuccess c p =>
    unfold exec execIsSuccess
    exact stepsAgree_read h c p _
  | setTarget c p x => exact stepsAgree_withWritten (stepsAgree_write h c p _)
  | setAddress c p x => exact stepsAgree_withWritten (stepsAgree_write h c p _)
  | setData c p x => exact stepsAgree_withWritten (stepsAgree_write h c p _)
  | setWrite c p b => exact stepsAgree_withWritten (stepsAgree_withBoolean fun x => stepsAgree_write h c p _)
  | setSuccess c p b => exact stepsAgree_withWritten (stepsAgree_withBoolean fun x => stepsAgree_write h c p _)
  | acquireOnce c hd => exact stepsAgree_next (agree_acquireSession h c hd)
  | reestablish c hd => exact stepsAgree_next (agree_reestablishSession h c hd)
  | lock c => exact stepsAgree_next (agree_takeGate h _ c)
  | unlock c =>
    unfold exec execUnlock
    exact stepsAgree_holder h c (f := fun s => (s.setHolder none).succeed c .unit)
      (agree_succeed (agree_setHolder h none) c _)
  | transfer c bytes =>
    unfold exec execTransfer
    exact stepsAgree_holder h c (agree_startTransfer h .raw c bytes)
  | exchange c bytes => exact stepsAgree_next (agree_takeGate h _ c)
  | sendRequest c d tid f a x => exact stepsAgree_sendRequest h c d tid f a x
  | pkt8x8 | pkt8x16 | pkt8x32 | pkt8x64 | pkt16x64 | pkt32x32 => exact stepsAgree_next (agree_deliverPacket h _)

theorem stepsAgree_runFrame (h : Agree s t) (f : Frame) : StepsAgree (runFrame f s) (runFrame f t) := by
  unfold runFrame
  cases decode f with
  | ok i => exact stepsAgree_exec h i
  | error e =>
    cases f with
    | command cmd => rfl
    | wire bytes => exact stepsAgree_next (agree_deliverPacket h _)

end States

/-- What is left to do when the agent `a` steps in state `s`. -/
def stepOf (a : Agent) (s : State) : Step :=
  match workOf a s with
  | .idle s' => .next s'
  | .goOn c h s' => .next (resume c h s')
  | .frame f s' => runFrame f s'

theorem step_eq_stepOf (s : State) : step s = stepOf (nextAgent s).1 (nextAgent s).2 := rfl

theorem stepsAgree_stepOf {s t : State} (h : Agree s t) (a : Agent) : StepsAgree (stepOf a s) (stepOf a t) := by
  cases a with
  | caller c =>
    simp only [stepOf, workOf, held_of_agree h, issued_of_agree h]
    cases (s.caller c).held with
    | some hd => exact stepsAgree_next (agree_resume h c hd)
    | none =>
      cases takeIssued c s.issued with
      | none => exact stepsAgree_next h
      | some r => exact stepsAgree_runFrame (agree_of_blind (f := fun s => { s with issued := r.2 }) (fun _ _ => rfl) h) _
  | transport =>
    simp only [stepOf, workOf, transport_of_agree h]
    cases s.transport.inbound with
    | nil => exact stepsAgree_next h
    | cons b rest =>
      refine stepsAgree_runFrame ?_ _
      have htaken := agree_of_blind (f := fun s => { s with transport := { s.transport with inbound := rest } })
        (fun _ _ => rfl) h
      rwa [transport_of_agree h] at htaken

theorem nextAgent_fst_of_agree {s t : State} (h : Agree s t) : (nextAgent t).1 = (nextAgent s).1 := by
  obtain ⟨cs, rfl, _⟩ := h
  cases hs : s.schedule <;> simp [nextAgent, withCallers, hs]

/-- Settles O59: no operation of the model reads the bytes of a packet without its descriptor, which an unbound packet has not. -/
theorem staleBytesAreNeverRead : Obligations.StaleBytesAreNeverRead := by
  intro s s' h
  have hagree := agree_iff.2 h
  refine ⟨stepsAgree_exec hagree, ?_⟩
  rw [step_eq_stepOf, step_eq_stepOf, nextAgent_fst_of_agree hagree]
  exact stepsAgree_stepOf (agree_of_blind blind_nextAgent hagree) _

end Sys2Proof.Proofs
